-- ==== Sys2Proof/Word.lean ====
section
/-! DEFINITION. The word types of the block (spec/00_scope.md R9, R12): bytes, nibbles and 16-bit addresses, all unsigned. -/

namespace Sys2Proof

/-- `u8`: a received character, a decoded byte, a record byte, the checksum (R9). -/
abbrev Byte := BitVec 8

/-- `u4`: the value one hex character carries (R9). -/
abbrev Nibble := BitVec 4

/-- `u16`: an address of non-volatile memory (R9, R41). -/
abbrev Addr := BitVec 16

end Sys2Proof
end

