-- ==== Sys2Proof/Config.lean ====
section
/-! DEFINITION. What an implementation fixes and the spec leaves open (spec/00_scope.md R10, R11), the decided constant
`INITIAL_BLOCK`, and the free values. The open parameters are a record that State carries and no step writes, so that every
statement about a state holds for every legal parameter value (log 1). -/

namespace Sys2Proof

/-- The OPEN parameters of R10. `blockBits` is `BLOCK_BITS`, 0 to 16 by R11; the two banners may be empty. -/
structure Params where
  blockBits       : Fin 17
  xonByte         : Byte
  xoffByte        : Byte
  bannerStart     : List Byte
  checksumErrChar : Byte
  progressChar    : Byte
  bannerHandoff   : List Byte
  entryPoint      : Addr
  deriving DecidableEq, Repr

/-- How the Committer answers a `Commit` (R113 to R115). -/
inductive CommitAnswer where
  | ok | writeFault | never
  deriving DecidableEq, Repr, Inhabited

namespace Config

/-- `INITIAL_BLOCK` (R10: decided 0x0000, the spec's decision D3; log 24). -/
def initialBlock : Addr := 0

/-- What a byte of non-volatile memory that the state does not list reads as. DESIGN CHOICE (log 2), unsafe. -/
def unlistedByte : Byte := 0

/-- The parameter values State.reset carries: the block size of the spec's test vectors, D20's suggested defaults, and two
characters of the model's own. DESIGN CHOICE (log 1); no statement rests on them. -/
def resetParams : Params where
  blockBits       := 7
  xonByte         := 0x11
  xoffByte        := 0x13
  bannerStart     := []
  checksumErrChar := 0x21
  progressChar    := 0x2E
  bannerHandoff   := []
  entryPoint      := 0

/-- FREE VALUE (spec/93_implementation_defined.md U3; R114, R115, R193; log 5): the bytes a faulted, hung or cut commit leaves
in its block, each independently any value. Applied to the counter `State.freeCount`. -/
opaque faultedByte : Nat → Byte

/-- FREE VALUE (R7: a model fixes no Committer answer; log 3): the answer of a `Commit` for which the state lists none. Applied
to the number of commits answered so far, `State.answersTaken`. -/
opaque freeAnswer : Nat → CommitAnswer

end Config

end Sys2Proof
end

