-- ==== Sys2Proof/Syntax.lean ====
section
/-! DEFINITION. The inputs of the block as syntax: one constructor per row of spec/opcode_table.json (R60, R77), the six
positions a byte takes in a record (R91 to R96), and the opcode spaces a word is read in. -/

namespace Sys2Proof

/-- The positions of a decoded byte in a record (spec/41_record_assembler.md R91 to R96). -/
inductive Position where
  | length | addrHi | addrLo | type | data | terminator
  deriving DecidableEq, Repr

/-- One constructor per row of spec/opcode_table.json.
CHAR rows are `ByteReceived` of that character; EVENT rows are `TimedOut`, told apart by `fsm`; BYTE rows carry the decoded
byte; RECORD rows carry the completed record's address bytes, payload (its length is the `length` byte) and, where the
row does not fix them, type and terminator; OUT rows are what the block sends. -/
inductive Instr where
  -- format CHAR (R62)
  | ch0 | ch1 | ch2 | ch3 | ch4 | ch5 | ch6 | ch7 | ch8 | ch9
  | chA | chB | chC | chD | chE | chF
  | chNonhex (c : Byte)
  -- format EVENT (R74, R77)
  | timeoutIdle
  | timeoutMidrec
  -- format RECORD (R64, R67)
  | recData (addrHi addrLo : Byte) (payload : List Byte)
  | recEos (addrHi addrLo : Byte) (payload : List Byte)
  | recNop (addrHi addrLo type : Byte) (payload : List Byte)
  | recBadsum (addrHi addrLo type : Byte) (payload : List Byte) (terminator : Byte)
  -- format BYTE (R63, R91 to R96)
  | byteLength (b : Byte)
  | byteAddrHi (b : Byte)
  | byteAddrLo (b : Byte)
  | byteType (b : Byte)
  | byteData (b : Byte)
  | byteTerminator (b : Byte)
  -- format OUT (R73)
  | outBannerStart
  | outXon
  | outXoff
  | outProgress
  | outErr
  | outBannerHandoff
  deriving DecidableEq, Repr

/-- The opcode spaces a sequence of words is read in (R60 to R64). `TimedOut` has no encoding (R74), and the outgoing bytes
are never received, so neither is a format to decode. -/
inductive Format where
  | char
  | byte (position : Position)
  | record
  deriving DecidableEq, Repr

end Sys2Proof
end

