-- ==== Sys2Proof/WellFormed.lean ====
section
/-! DEFINITION. The checks an instruction's operands must pass: the code class of `CH_NONHEX` (R62), the payload bound of a
record (R64: `length` is a byte, so at most 255), the type class of `REC_NOP` (R67) and the bad sum of `REC_BADSUM` (R98). -/

namespace Sys2Proof

/-- The 16 codes of classes `HEXDIGIT_0_9` and `HEXDIGIT_A_F` (R62). -/
def isHexCode (c : Byte) : Bool :=
  (0x30 ≤ c.toNat && c.toNat ≤ 0x39) || (0x41 ≤ c.toNat && c.toNat ≤ 0x46)

/-- The 8-bit sum, modulo 256, of a list of bytes (R29, R98). -/
def byteSum : List Byte → Byte
  | [] => 0
  | b :: bs => b + byteSum bs

/-- The bytes of a record before its terminator, in wire order (R64). -/
def recordHead (addrHi addrLo type : Byte) (payload : List Byte) : List Byte :=
  BitVec.ofNat 8 payload.length :: addrHi :: addrLo :: type :: payload

/-- `length` is a u8, so a record carries at most 255 payload bytes (R9, R64). -/
def payloadFits (payload : List Byte) : Bool := payload.length ≤ 255

/-- The operand checks of each constructor. -/
def WellFormed : Instr → Bool
  | .ch0 | .ch1 | .ch2 | .ch3 | .ch4 | .ch5 | .ch6 | .ch7 | .ch8 | .ch9 => true
  | .chA | .chB | .chC | .chD | .chE | .chF => true
  | .chNonhex c => !isHexCode c
  | .timeoutIdle | .timeoutMidrec => true
  | .recData _ _ payload | .recEos _ _ payload => payloadFits payload
  | .recNop _ _ type payload => payloadFits payload && 2 ≤ type.toNat
  | .recBadsum hi lo type payload terminator =>
      payloadFits payload && (byteSum (recordHead hi lo type payload) + terminator != 0)
  | .byteLength _ | .byteAddrHi _ | .byteAddrLo _ | .byteType _ | .byteData _ | .byteTerminator _ => true
  | .outBannerStart | .outXon | .outXoff | .outProgress | .outErr | .outBannerHandoff => true

end Sys2Proof
end

