-- ==== Sys2Proof/Decode.lean ====
section
/-! DEFINITION. Decoding, total on any bytes and rejecting by name, and the encoder written from the same tables
(spec/30_encoding.md, spec/40_nibble_decoder.md). The three opcode spaces of R60 are the three formats; a word has a meaning
only in one of them. -/

namespace Sys2Proof

/-- What `nib` answers: a nibble, or `InvalidHexCharacter` (spec/40_nibble_decoder.md section 1). -/
inductive NibResult where
  | valid (v : Nibble)
  | invalid
  deriving DecidableEq, Repr

/-- Why a sequence of bytes is no instruction of the format it is read in. -/
inductive DecodeError where
  | noCharacter       -- format CHAR: no byte left
  | halfByte          -- format BYTE: fewer than two characters left
  | nonHexInByte      -- format BYTE: a character outside the hex classes (R63)
  | truncatedRecord   -- format RECORD: fewer than 5 + length bytes left (R65)
  | noSuchWidth       -- a table word of a width no format has
  deriving DecidableEq, Repr

/-- The function `nib` over all 256 codes (R80, R81, R82). The codes are ASCII's, general knowledge by R61's own mark
(log 11). -/
def nib (c : Byte) : NibResult :=
  if 0x30 ≤ c.toNat ∧ c.toNat ≤ 0x39 then .valid (c.extractLsb' 0 4)
  else if 0x41 ≤ c.toNat ∧ c.toNat ≤ 0x46 then .valid ((c - 0x37#8).extractLsb' 0 4)
  else .invalid

/-- The character that carries a nibble (R61, upper case by R75). -/
def hexCode (v : Nibble) : Byte :=
  if v.toNat ≤ 9 then 0x30#8 + v.setWidth 8 else 0x37#8 + v.setWidth 8

/-- The row `CH_0` to `CH_F` of a nibble value (R80, R81). -/
def hexInstr (v : Nibble) : Instr :=
  match v.toNat with
  | 0 => .ch0
  | 1 => .ch1
  | 2 => .ch2
  | 3 => .ch3
  | 4 => .ch4
  | 5 => .ch5
  | 6 => .ch6
  | 7 => .ch7
  | 8 => .ch8
  | 9 => .ch9
  | 10 => .chA
  | 11 => .chB
  | 12 => .chC
  | 13 => .chD
  | 14 => .chE
  | _ => .chF

/-- Format CHAR: the three classes partition the 256 codes (R62). -/
def decodeChar (c : Byte) : Instr :=
  match nib c with
  | .valid v => hexInstr v
  | .invalid => .chNonhex c

/-- Format BYTE: the row is chosen by the position, not by the byte (R91 to R96). -/
def decodeByte (p : Position) (b : Byte) : Instr :=
  match p with
  | .length => .byteLength b
  | .addrHi => .byteAddrHi b
  | .addrLo => .byteAddrLo b
  | .type => .byteType b
  | .data => .byteData b
  | .terminator => .byteTerminator b

/-- Two nibbles, most significant first, are a byte (R45, R63, R84). -/
def joinNibbles (hi lo : Nibble) : Byte := hi ++ lo

/-- A completed record as an instruction: the sum is tested before the type (R137, R138, R170). -/
def classifyRecord (addrHi addrLo type : Byte) (payload : List Byte) (terminator : Byte) : Instr :=
  if byteSum (recordHead addrHi addrLo type payload) + terminator ≠ 0 then
    .recBadsum addrHi addrLo type payload terminator
  else if type = 0x01 then .recEos addrHi addrLo payload
  else if type = 0x00 then .recData addrHi addrLo payload
  else .recNop addrHi addrLo type payload

/-- Format RECORD: 5 + length bytes, the length known from byte 0 (R64, R65, R72). -/
def decodeRecord : List Byte → Except DecodeError (Instr × List Byte)
  | len :: hi :: lo :: type :: rest =>
      match rest.drop len.toNat with
      | [] => .error .truncatedRecord
      | terminator :: rest' => .ok (classifyRecord hi lo type (rest.take len.toNat) terminator, rest')
  | _ => .error .truncatedRecord

/-- The decoder: the instruction at the front of the bytes, read in the given format, and the bytes after it. -/
def decode : Format → List Byte → Except DecodeError (Instr × List Byte)
  | .char, [] => .error .noCharacter
  | .char, c :: rest => .ok (decodeChar c, rest)
  | .byte p, c₁ :: c₂ :: rest =>
      match nib c₁, nib c₂ with
      | .valid v₁, .valid v₂ => .ok (decodeByte p (joinNibbles v₁ v₂), rest)
      | _, _ => .error .nonHexInByte
  | .byte _, _ => .error .halfByte
  | .record, bytes => decodeRecord bytes

/-- The terminator a sender computes: `(256 - p) mod 256` of the bytes before it (R68, R76). -/
def terminatorFor (bytes : List Byte) : Byte := 0 - byteSum bytes

/-- A record whose sum is zero, as its 5 + length bytes (R64, R76). -/
def encodeGoodRecord (addrHi addrLo type : Byte) (payload : List Byte) : List Byte :=
  recordHead addrHi addrLo type payload ++ [terminatorFor (recordHead addrHi addrLo type payload)]

/-- The two characters of a byte, high nibble first (R63, R75). -/
def byteText (b : Byte) : List Byte := [hexCode (b.extractLsb' 4 4), hexCode (b.extractLsb' 0 4)]

/-- The encoder: the words of an instruction. A CHAR row is its code (R61); a BYTE row its two characters (R63); a RECORD row
its bytes (R64); an OUT row the parameter's bytes (R73); the timeouts have no encoding (R74). -/
def encode (p : Params) : Instr → List Byte
  | .ch0 => [0x30]
  | .ch1 => [0x31]
  | .ch2 => [0x32]
  | .ch3 => [0x33]
  | .ch4 => [0x34]
  | .ch5 => [0x35]
  | .ch6 => [0x36]
  | .ch7 => [0x37]
  | .ch8 => [0x38]
  | .ch9 => [0x39]
  | .chA => [0x41]
  | .chB => [0x42]
  | .chC => [0x43]
  | .chD => [0x44]
  | .chE => [0x45]
  | .chF => [0x46]
  | .chNonhex c => [c]
  | .timeoutIdle => []
  | .timeoutMidrec => []
  | .recData hi lo payload => encodeGoodRecord hi lo 0x00 payload
  | .recEos hi lo payload => encodeGoodRecord hi lo 0x01 payload
  | .recNop hi lo type payload => encodeGoodRecord hi lo type payload
  | .recBadsum hi lo type payload terminator => recordHead hi lo type payload ++ [terminator]
  | .byteLength b => byteText b
  | .byteAddrHi b => byteText b
  | .byteAddrLo b => byteText b
  | .byteType b => byteText b
  | .byteData b => byteText b
  | .byteTerminator b => byteText b
  | .outBannerStart => p.bannerStart
  | .outXon => [p.xonByte]
  | .outXoff => [p.xoffByte]
  | .outProgress => [p.progressChar]
  | .outErr => [p.checksumErrChar]
  | .outBannerHandoff => p.bannerHandoff

/-- The format an instruction's words are read in; none for the rows that are never decoded (R73, R74). -/
def formatOf : Instr → Option Format
  | .ch0 | .ch1 | .ch2 | .ch3 | .ch4 | .ch5 | .ch6 | .ch7 | .ch8 | .ch9 => some .char
  | .chA | .chB | .chC | .chD | .chE | .chF | .chNonhex _ => some .char
  | .timeoutIdle | .timeoutMidrec => none
  | .recData _ _ _ | .recEos _ _ _ | .recNop _ _ _ _ | .recBadsum _ _ _ _ _ => some .record
  | .byteLength _ => some (.byte .length)
  | .byteAddrHi _ => some (.byte .addrHi)
  | .byteAddrLo _ => some (.byte .addrLo)
  | .byteType _ => some (.byte .type)
  | .byteData _ => some (.byte .data)
  | .byteTerminator _ => some (.byte .terminator)
  | .outBannerStart | .outXon | .outXoff | .outProgress | .outErr | .outBannerHandoff => none

/-- The text form of bytes: two upper-case hex characters each, in wire order (R75, R76). -/
def textOf (bytes : List Byte) : List Byte := bytes.flatMap byteText

/-- The `n` bytes of a table word, the first in its least significant bits. -/
def wordBytes : Nat → Nat → List Byte
  | 0, _ => []
  | n + 1, w => BitVec.ofNat 8 w :: wordBytes n (w / 256)

/-- The bytes of a RECORD word of `nbits` bits: the length byte says how many there are, and those above `nbits` are zero. -/
def recordWordBytes (nbits w : Nat) : List Byte :=
  wordBytes (5 + w % 256) (w % 2 ^ nbits)

/-- The instruction a table word decodes to (log 21): 8 bits are one received character, 16 bits the two characters of a
byte at the start of a line, 40 bits or more the bytes of a record. -/
def decodeTableWordE (nbits w : Nat) : Except DecodeError (Instr × List Byte) :=
  if nbits = 8 then decode .char (wordBytes 1 w)
  else if nbits = 16 then decode (.byte .length) (wordBytes 2 w)
  else if 40 ≤ nbits then decode .record (recordWordBytes nbits w)
  else .error .noSuchWidth

/-- The decoder on a word numbered as spec/opcode_table.json numbers it. -/
def decodeTableWord (nbits w : Nat) : Option Instr :=
  match decodeTableWordE nbits w with
  | .ok (i, _) => some i
  | .error _ => none

end Sys2Proof
end

