-- ==== Sys2Proof/Machine/State.lean ====
section
/-! DEFINITION. The state of the machine as plain data (spec/10_state.md), the environment state it affects only through
events and actions (R36), the inputs it has not consumed, the actions it has emitted, the reasons a step can stop, and the
state after reset (R37, R191). -/

namespace Sys2Proof.Machine

/-- The protocol state (R21, R130). `finished`, `aborted` and `writeFaulted` are terminal. -/
inductive Fsm where
  | awaitingLine | accumulatingRecord | finished | aborted | writeFaulted
  deriving DecidableEq, Repr

/-- `nib_phase`: which half of a byte the next valid character is (R26). -/
inductive NibPhase where
  | high | low
  deriving DecidableEq, Repr

/-- An input event (R6). -/
inductive Event where
  | byteReceived (c : Byte)
  | timedOut
  deriving DecidableEq, Repr

/-- What the outside delivers: an event, an external reset between two steps (R190), or an external reset in the middle of one
(R190, R193; log 4): while the step on `during` runs, after `count` of its actions, and, where the last of them is a `Commit`,
before its answer if `inCommit` says so. Both resets carry the further resets that cut the session entry they start: `again`
says for each, in order, how many actions of that session entry come before it; the session entry after the last one ends. -/
inductive Input where
  | event (e : Event)
  | externalReset (again : List Nat)
  | resetDuring (during : Event) (count : Nat) (inCommit : Bool) (again : List Nat)
  deriving DecidableEq, Repr

/-- An output action (R6). -/
inductive Action where
  | send (b : Byte)
  | armTimeout
  | commit (block : Addr) (data : List Byte)
  | load (block : Addr)
  | drain
  | handoff (entry : Addr)
  deriving DecidableEq, Repr

/-- Non-volatile memory: the listed bytes, addresses strictly rising and below 65536, none equal to what an unlisted address
reads as (R41; log 2). -/
abbrev Memory := List Host.Cell

/-- The record's data array with every entry zero (R33). -/
def noData : Vector Byte 256 := Vector.replicate 256 0

/-- Everything the spec gives the machine (INVENTORY.md, heading State). -/
structure State where
  /-- static parameters (R10, R35); no step writes them -/
  params : Params
  /-- session group (R20) -/
  fsm : Fsm
  currentBlock : Addr
  buf : List Byte
  /-- line group (R20) -/
  nibPhase : NibPhase
  hiNib : Nibble
  offset : BitVec 9
  sum : Byte
  recLength : Byte
  recAddrHi : Byte
  recAddrLo : Byte
  recType : Byte
  recData : Vector Byte 256
  /-- environment state (R36, R57) -/
  nv : Memory
  executable : List Addr
  timerArmed : Bool
  senderPaused : Bool
  txQueue : List Byte
  interruptsEnabled : Bool
  /-- inputs not yet consumed (R6, R7) -/
  inbox : List Input
  /-- the Committer's next answers; past them, free answers (R7; log 3) -/
  answers : List CommitAnswer
  /-- the model's own counter of the commits answered (log 3) -/
  answersTaken : Nat
  /-- the model's own counter of free bytes drawn (log 5) -/
  freeCount : Nat
  /-- every action emitted, oldest first (R6) -/
  trace : List Action
  deriving DecidableEq, Repr

/-- Why a step has no next state. -/
inductive Fault where
  /-- `Stuck` (R115, R166): a `Commit` that never answers. Raised by the shared operation `commit`. `inside` is the state the
  block is stuck in: every action up to and including the `Commit` emitted, none after. Safe: the spec gives no successor. -/
  | stuck (inside : State)
  /-- A byte fed after the end of its record. Raised by `feedByte` in states no run reaches (R101). Safe. -/
  | feedPastRecordEnd
  deriving DecidableEq, Repr

/-- Why an instruction has no meaning in a state. -/
inductive Refusal where
  /-- The instruction has no meaning yet. Raised by `exec`'s refused arms only. Safe. -/
  | notModelled (mnemonic : String)
  /-- A row chosen by state (`TIMEOUT_*` by `fsm`, `BYTE_*` by `offset`: R77, R90) asked for in a state that chooses another;
  the block never runs it there. Raised by the meanings of those rows. Safe (log 8). -/
  | notSelected
  deriving DecidableEq, Repr

/-- The first state in which the block polls: after the session-entry sequence on empty listed memory (R37, R191; log 19). -/
def State.reset : State where
  params := Config.resetParams
  fsm := .awaitingLine
  currentBlock := Config.initialBlock
  buf := List.replicate 128 Config.unlistedByte
  nibPhase := .high
  hiNib := 0
  offset := 0
  sum := 0
  recLength := 0
  recAddrHi := 0
  recAddrLo := 0
  recType := 0
  recData := noData
  nv := []
  executable := []
  timerArmed := true
  senderPaused := false
  txQueue := [0x11]
  interruptsEnabled := false
  inbox := []
  answers := []
  answersTaken := 0
  freeCount := 0
  trace := [.load Config.initialBlock, .send 0x11, .armTimeout]

end Sys2Proof.Machine
end

