-- ==== Sys2Proof/Machine/Operands.lean ====
section
/-! DEFINITION. Operands: the address arithmetic of a block (R11, R110, R111), the position and the fields of a record in the
record registers (R90 to R99), and the two joins of R15. -/

namespace Sys2Proof.Machine

/-- `BLOCK_SIZE` = 2 ^ `BLOCK_BITS` (R11). -/
def blockSize (p : Params) : Nat := 2 ^ p.blockBits.val

/-- `BLOCK_SIZE - 1` as a 16-bit mask (R11, R15). -/
def blockMask (p : Params) : Addr := BitVec.ofNat 16 (2 ^ p.blockBits.val - 1)

/-- `address & ~(BLOCK_SIZE - 1)`: the base of the block an address lies in (R110). -/
def blockBase (p : Params) (a : Addr) : Addr := a &&& ~~~(blockMask p)

/-- `address & (BLOCK_SIZE - 1)`: the place of an address in its block (R111). -/
def blockIndex (p : Params) (a : Addr) : Nat := (a &&& blockMask p).toNat

/-- The address of a record: first wire byte most significant (R99; the spec's decision D5, log 24). -/
def recordAddress (addrHi addrLo : Byte) : Addr := addrHi ++ addrLo

/-- The byte two nibbles make when the second arrives (R84). -/
def pairedByte (s : State) (v : Nibble) : Byte := joinNibbles s.hiNib v

/-- The position the next decoded byte takes (R90); none past the record's end, where `feed` is never called (R101). -/
def position (s : State) : Option Position :=
  match s.offset.toNat with
  | 0 => some .length
  | 1 => some .addrHi
  | 2 => some .addrLo
  | 3 => some .type
  | o =>
      if o < 4 + s.recLength.toNat then some .data
      else if o = 4 + s.recLength.toNat then some .terminator
      else none

/-- The valid prefix of the record's data array (R31). -/
def payload (s : State) : List Byte := s.recData.toList.take s.recLength.toNat

/-- The terminator of a completed record, which is summed and not stored (R96): what the sum holds beyond the other bytes
(log 10). -/
def terminatorOf (s : State) : Byte :=
  s.sum - byteSum (s.recLength :: s.recAddrHi :: s.recAddrLo :: s.recType :: payload s)

end Sys2Proof.Machine
end

