-- ==== Sys2Proof/Machine/Flags.lean ====
section
/-! DEFINITION. The computed predicates that play the part of flags, none of them stored (R34): the record event of `feed`
(R97, R98), the block transition of `touch` (R110), and which protocol states poll (R133). -/

namespace Sys2Proof.Machine

/-- What `feed` answers (spec/41_record_assembler.md, R14). -/
inductive RecordEvent where
  | inProgress
  | recordComplete (checksumOk : Bool)
  deriving DecidableEq, Repr

/-- What `touch` answers (R14, R110). -/
inductive BlockTransition where
  | noTransition
  | crossing (oldBlock newBlock : Addr)
  deriving DecidableEq, Repr

/-- `checksum_ok`: the 8-bit sum of every byte of the record is zero (R34, R98). -/
def checksumOk (s : State) : Bool := s.sum == 0

/-- The completion test made after each byte (R97), with its checksum (R98). -/
def recordEvent (s : State) : RecordEvent :=
  if s.offset.toNat = 5 + s.recLength.toNat then .recordComplete (checksumOk s) else .inProgress

/-- `touch(address)`: whether a payload byte's destination lies in another block (R110). -/
def touch (s : State) (a : Addr) : BlockTransition :=
  if blockBase s.params a = s.currentBlock then .noTransition
  else .crossing s.currentBlock (blockBase s.params a)

/-- The states in which the block takes events (R133). -/
def polls : Fsm → Bool
  | .awaitingLine | .accumulatingRecord => true
  | .finished | .aborted | .writeFaulted => false

/-- A completed record as the RECORD row it is: the sum first, then the type (R137, R138). -/
def completedRecord (s : State) : Instr :=
  if checksumOk s then
    (if s.recType = 0x01 then .recEos s.recAddrHi s.recAddrLo (payload s)
     else if s.recType = 0x00 then .recData s.recAddrHi s.recAddrLo (payload s)
     else .recNop s.recAddrHi s.recAddrLo s.recType (payload s))
  else .recBadsum s.recAddrHi s.recAddrLo s.recType (payload s) (terminatorOf s)

end Sys2Proof.Machine
end

