-- ==== Sys2Proof/Machine/Ops.lean ====
section
/-! DEFINITION. The named operations over memory, the buffer, the record registers and the environment, and the shared flow
of a step that may end inside a commit: actions (R13, R73), line reset (R33), error handlings (R161 to R166), commit and load
(R113 to R116), crossing (R112), applying payload (R119, R141), session entry (R191), finish (R146). -/

namespace Sys2Proof.Machine

/-! ### Memory -/

/-- Canonical form: addresses strictly rising and below 65536, no cell that says what an unlisted address reads as. -/
abbrev Memory.wf (m : Memory) : Prop :=
  m.Pairwise (fun x y => x.1 < y.1) ∧ ∀ c ∈ m, c.1 < 65536 ∧ c.2 ≠ Config.unlistedByte

/-- One byte of non-volatile memory. -/
def Memory.read : Memory → Nat → Byte
  | [], _ => Config.unlistedByte
  | (a', v') :: rest, a => if a' = a then v' else Memory.read rest a

/-- A cell at the front of a memory, unless it says nothing new. -/
def Memory.put (a : Nat) (v : Byte) (m : Memory) : Memory :=
  if v = Config.unlistedByte then m else (a, v) :: m

/-- One byte written, keeping the canonical form. -/
def Memory.write : Memory → Nat → Byte → Memory
  | [], a, v => Memory.put a v []
  | (a', v') :: rest, a, v =>
      if a < a' then Memory.put a v ((a', v') :: rest)
      else if a = a' then Memory.put a v rest
      else (a', v') :: Memory.write rest a v

/-- `MemRead(NV, a, n)` (R13): ascending 16-bit addresses. -/
def Memory.readBytes : Memory → Addr → Nat → List Byte
  | _, _, 0 => []
  | m, a, n + 1 => m.read a.toNat :: Memory.readBytes m (a + 1) n

/-- `MemWrite(NV, a, n, v)` (R13): ascending 16-bit addresses. -/
def Memory.writeBytes : Memory → Addr → List Byte → Memory
  | m, _, [] => m
  | m, a, b :: bs => Memory.writeBytes (m.write a.toNat b) (a + 1) bs

/-- The contents of the block at `b`, as `Load` answers them (R116). -/
def Memory.block (p : Params) (m : Memory) (b : Addr) : List Byte := m.readBytes b (blockSize p)

/-! ### Actions -/

/-- `emit A` (R13). -/
def emit (a : Action) (s : State) : State := { s with trace := s.trace ++ [a] }

/-- `Send(b)`: the byte joins the transmit queue (R176). -/
def send (b : Byte) (s : State) : State :=
  { s with trace := s.trace ++ [.send b], txQueue := s.txQueue ++ [b] }

/-- `Send*(L)` (R13). -/
def sendAll (bs : List Byte) (s : State) : State :=
  { s with trace := s.trace ++ bs.map .send, txQueue := s.txQueue ++ bs }

/-- `ArmTimeout`: the timer restarts (R177). -/
def armTimeout (s : State) : State := { emit .armTimeout s with timerArmed := true }

/-- `OUT_XON`: the sender may run (R36, R56; log 13). -/
def sendXon (s : State) : State := { send s.params.xonByte s with senderPaused := false }

/-- `OUT_XOFF`: the sender is paused (R36, R56; log 13). -/
def sendXoff (s : State) : State := { send s.params.xoffByte s with senderPaused := true }

/-- `OUT_PROGRESS` (R118). -/
def sendProgress (s : State) : State := send s.params.progressChar s

/-- `OUT_ERR` (R137). -/
def sendErr (s : State) : State := send s.params.checksumErrChar s

/-- `OUT_BANNER_START` (R191). -/
def sendBannerStart (s : State) : State := sendAll s.params.bannerStart s

/-- `OUT_BANNER_HANDOFF` (R146). -/
def sendBannerHandoff (s : State) : State := sendAll s.params.bannerHandoff s

/-- `Drain`: returns when the transmit queue is empty (R176; log 14). -/
def drain (s : State) : State := { emit .drain s with txQueue := [] }

/-- `Handoff(ENTRY_POINT)`, then `Finished`: the last act of `finish()` (R146, R179). -/
def handoff (s : State) : State := { emit (.handoff s.params.entryPoint) s with fsm := .finished }

/-! ### The line group -/

/-- `line_reset()` (R33). -/
def lineReset (s : State) : State :=
  { s with
    nibPhase := .high, hiNib := 0, offset := 0, sum := 0, recLength := 0, recAddrHi := 0, recAddrLo := 0, recType := 0,
    recData := noData }

/-- The line restart: `line_reset() ; fsm <- AwaitingLine`. -/
def lineRestart (s : State) : State := { lineReset s with fsm := .awaitingLine }

/-! ### Error handlings: what the errors of R160 do to the state -/

/-- `raise InvalidHexCharacter` (R161): no action, the timeout not re-armed. -/
def raiseInvalidHexCharacter (s : State) : State := lineRestart s

/-- `raise ChecksumMismatch` (R162): one error character, `Aborted`; the line group stays as it is. -/
def raiseChecksumMismatch (s : State) : State := { sendErr s with fsm := .aborted }

/-- `raise TimeoutMidRecord` (R164): a line restart that re-arms the timeout. -/
def raiseTimeoutMidRecord (s : State) : State := { armTimeout (lineReset s) with fsm := .awaitingLine }

/-- `WriteFault` (R165): nothing more is emitted, `WriteFaulted`. -/
def raiseWriteFault (s : State) : State := { s with fsm := .writeFaulted }

/-! ### The flow of a step -/

/-- How far a step has come: it goes on, it has ended with a next state, or it is stuck in a commit (R115). -/
inductive Flow where
  | go (s : State)
  | ends (s : State)
  | stuck (s : State)
  deriving DecidableEq, Repr

/-- Sequencing: what follows runs only where the step goes on. -/
def Flow.andThen : Flow → (State → Flow) → Flow
  | .go s, k => k s
  | .ends s, _ => .ends s
  | .stuck s, _ => .stuck s

/-- The step's outcome. -/
def Flow.toOutcome : Flow → Host.Outcome State Fault Refusal
  | .go s => .next s
  | .ends s => .next s
  | .stuck s => .fault (.stuck s)

/-- A meaning in a state that polls; in a terminal state events change nothing (R133, R152; log 7). -/
def whilePolling (s : State) (o : Host.Outcome State Fault Refusal) : Host.Outcome State Fault Refusal :=
  if polls s.fsm then o else .next s

/-! ### Load, session entry, commit -/

/-- `Load(b)` with its answer in `buf`, then `current_block <- b` (R112 (c) and (d), R116, R191). -/
def load (b : Addr) (s : State) : State :=
  { emit (.load b) s with buf := Memory.block s.params s.nv b, currentBlock := b }

/-- What a reset of the whole device takes away outside the block (R5, R192: no state but `NV` survives): the transmit queue
(log 14), and the list of executable blocks, of which the spec does not say whether it survives (DESIGN CHOICE, log 16: R57
speaks of one session and R192 of `NV` only). -/
def forgetSession (s : State) : State := { s with txQueue := [], executable := [] }

/-- `session_entry()` (R191), on what an external reset leaves (R190, R192). That the executable blocks of an earlier session are
none afterwards is a DESIGN CHOICE (log 16). -/
def sessionEntry (s : State) : State :=
  { armTimeout (sendXon (lineReset (load Config.initialBlock (sendBannerStart (forgetSession s))))) with
    fsm := .awaitingLine }

/-- The answer the Committer gives to the commit after the next `k`: a listed one, else a free value (R7; log 3). -/
def answerOf (s : State) (k : Nat) : CommitAnswer := s.answers.getD k (Config.freeAnswer (s.answersTaken + k))

/-- The answer the Committer gives next. -/
def nextAnswer (s : State) : CommitAnswer := answerOf s 0

/-- A block added to the rising list of executable blocks (R50, R57). -/
def insertBlock (b : Addr) : List Addr → List Addr
  | [] => [b]
  | c :: cs => if b.toNat < c.toNat then b :: c :: cs else if b = c then c :: cs else c :: insertBlock b cs

/-- A block taken out of the list of executable blocks. -/
def removeBlock (b : Addr) : List Addr → List Addr
  | [] => []
  | c :: cs => if c = b then removeBlock b cs else c :: removeBlock b cs

/-- The bytes a commit that faulted, hung or was cut by a reset leaves (U3): fresh free values. -/
def freeBytes (start n : Nat) : List Byte := (List.range n).map fun i => Config.faultedByte (start + i)

/-- What a commit that did not succeed leaves: its block's bytes free and not made executable; all other bytes as before
(R114, R115, R193). -/
def spoilBlock (s : State) : State :=
  { s with
    nv := Memory.writeBytes s.nv s.currentBlock (freeBytes s.freeCount (blockSize s.params))
    executable := removeBlock s.currentBlock s.executable
    freeCount := s.freeCount + blockSize s.params }

/-- What a commit answered Ok leaves: the buffer in its block, made executable (R50, R113). -/
def storeBlock (s : State) : State :=
  { s with
    nv := Memory.writeBytes s.nv s.currentBlock s.buf
    executable := insertBlock s.currentBlock s.executable }

/-- `emit Commit(current_block, buf)`, its answer taken. -/
def issueCommit (s : State) : State :=
  { emit (.commit s.currentBlock s.buf) s with answers := s.answers.tail, answersTaken := s.answersTaken + 1 }

/-- `Commit(current_block, buf)` and what its answer does (R113 to R115, R165, R166). -/
def commit (s : State) : Flow :=
  match nextAnswer s with
  | .ok => .go (storeBlock (issueCommit s))
  | .writeFault => .ends (raiseWriteFault (spoilBlock (issueCommit s)))
  | .never => .stuck (spoilBlock (issueCommit s))

/-- A commit and, if it was answered Ok, its progress character before any other action (R118). -/
def commitAndReport (s : State) : Flow := (commit s).andThen fun s => .go (sendProgress s)

/-- `final_flush()` (R117): no flow-control bytes, no load. -/
def finalFlush (s : State) : Flow := commitAndReport s

/-- `crossing(old_block, new_block)` (R112). -/
def crossing (newBlock : Addr) (s : State) : Flow :=
  (commitAndReport (sendXoff s)).andThen fun s => .go (sendXon (load newBlock s))

/-- `finish()` (R146). -/
def finish (s : State) : Flow :=
  (finalFlush s).andThen fun s => .go (handoff (drain (sendBannerHandoff s)))

/-! ### Applying payload -/

/-- `BUF_WRITE` (R111). -/
def bufWrite (a : Addr) (v : Byte) (s : State) : State :=
  { s with buf := s.buf.set (blockIndex s.params a) v }

/-- `apply_byte(address, value)` (R119). -/
def applyByte (a : Addr) (v : Byte) (s : State) : Flow :=
  match touch s a with
  | .noTransition => .go (bufWrite a v s)
  | .crossing _ new => (crossing new s).andThen fun s => .go (bufWrite a v s)

/-- The payload loop (R141): ascending index, addresses wrapping at 16 bits. -/
def applyPayload : Addr → List Byte → State → Flow
  | _, [], s => .go s
  | a, b :: bs, s => (applyByte a b s).andThen fun s => applyPayload (a + 1) bs s

/-! ### Pairing and feeding -/

/-- `PAIR_HI` (R83). -/
def pairHi (v : Nibble) (s : State) : State := { s with hiNib := v, nibPhase := .low }

/-- `PAIR_LO` (R84): the byte is `pairedByte`. -/
def pairLo (s : State) : State := { s with nibPhase := .high }

/-- Where a byte of a record is stored (R91 to R96); the terminator is not. -/
def storeField (p : Position) (b : Byte) (s : State) : State :=
  match p with
  | .length => { s with recLength := b }
  | .addrHi => { s with recAddrHi := b }
  | .addrLo => { s with recAddrLo := b }
  | .type => { s with recType := b }
  | .data => { s with recData := s.recData.setIfInBounds (s.offset.toNat - 4) b }
  | .terminator => s

/-- `feed(b)` at a position (R90): the sum, the field, the offset. Its answer is `recordEvent` of the state it leaves. -/
def feedAt (p : Position) (b : Byte) (s : State) : State :=
  let t := storeField p b { s with sum := s.sum + b }
  { t with offset := t.offset + 1 }

/-- A BYTE row: `feed(b)` where `offset` chooses its position, not selected elsewhere (R90; log 8). -/
def feedWhenAt (p : Position) (b : Byte) (s : State) : Host.Outcome State Fault Refusal :=
  whilePolling s (if position s = some p then .next (feedAt p b s) else .refused .notSelected)

/-! ### A reset in the middle of a step (R190, R192, R193; log 4) -/

/-- The actions emitted between two states of one run (R6). -/
def newActions (s t : State) : List Action := t.trace.drop s.trace.length

/-- The actions of a step that started in `s`, a stuck one among them (R115). -/
def actionsOf (s : State) : Host.Outcome State Fault Refusal → List Action
  | .next t => newActions s t
  | .fault (.stuck u) => newActions s u
  | .fault .feedPastRecordEnd => []
  | .refused _ => []

/-- What one action does to everything that a reset does not overwrite: memory by the commit's answer, the transmit queue, the
actions emitted. -/
def replayAction (s : State) : Action → State
  | .send b => send b s
  | .armTimeout => armTimeout s
  | .load b => load b s
  | .drain => drain s
  | .handoff e => emit (.handoff e) s
  | .commit b d =>
      match nextAnswer s with
      | .ok => storeBlock (issueCommit { s with currentBlock := b, buf := d })
      | .writeFault | .never => spoilBlock (issueCommit { s with currentBlock := b, buf := d })

/-- Actions in order. -/
def replay (as : List Action) (s : State) : State := as.foldl replayAction s

/-- Whether an action is a hand-off; a reset after it is one in `Finished`. -/
def isHandoff : Action → Bool
  | .handoff _ => true
  | .send _ | .armTimeout | .commit _ _ | .load _ | .drain => false

/-- The actions a step emits before a reset cuts it. -/
def cutActions (count : Nat) (as : List Action) : List Action := (as.take count).takeWhile fun a => !isHandoff a

/-- The last of the actions as a reset finds it: a `Commit` that has not answered leaves its block free (R193). -/
def replayCut (inCommit : Bool) (as : List Action) (s : State) : State :=
  match as.getLast? with
  | some (.commit b d) =>
      if inCommit then spoilBlock (issueCommit { replay as.dropLast s with currentBlock := b, buf := d })
      else replay as s
  | some (.send _) | some .armTimeout | some (.load _) | some .drain | some (.handoff _) | none => replay as s

/-- The session entries after an external reset (R190, R191): further resets cut the first ones, each after the number of its
actions that `again` gives, and the last one ends. -/
def sessionEntries : List Nat → State → State
  | [], s => sessionEntry s
  | k :: again, s => sessionEntries again (replay ((newActions s (sessionEntry s)).take k) s)

/-- A step with the given outcome, cut by an external reset: the actions before it, then session entry, which further resets
may cut again (R190, R191). -/
def cutStep (o : Host.Outcome State Fault Refusal) (count : Nat) (inCommit : Bool) (again : List Nat) (s : State) : State :=
  sessionEntries again (replayCut inCommit (cutActions count (actionsOf s o)) s)

end Sys2Proof.Machine
end

