-- ==== Sys2Proof/Machine/Records.lean ====
section
/-! DEFINITION. The meanings of the RECORD rows: a completed record, by its sum and its type (spec/43_protocol_fsm.md R137 to
R143). Each takes the record's operands; a character step takes them from the record registers (`completeRecord`). -/

namespace Sys2Proof.Machine

/-- `REC_DATA` (R140, R141, R142): every payload byte applied in order, then the line restart; no commit of its own. -/
def execRecData (addrHi addrLo : Byte) (payload : List Byte) (s : State) : Host.Outcome State Fault Refusal :=
  whilePolling s
    ((applyPayload (recordAddress addrHi addrLo) payload s).andThen fun s => .go (lineRestart s)).toOutcome

/-- `REC_EOS` (R139): `finish()`; address and payload are ignored. -/
def execRecEos (_addrHi _addrLo : Byte) (_payload : List Byte) (s : State) : Host.Outcome State Fault Refusal :=
  whilePolling s (finish s).toOutcome

/-- `REC_NOP` (R143): no action, the line restart. -/
def execRecNop (_addrHi _addrLo _type : Byte) (_payload : List Byte) (s : State) :
    Host.Outcome State Fault Refusal :=
  whilePolling s (.next (lineRestart s))

/-- `REC_BADSUM` (R137): the checksum mismatch, whatever the type. -/
def execRecBadsum (_addrHi _addrLo _type : Byte) (_payload : List Byte) (_terminator : Byte) (s : State) :
    Host.Outcome State Fault Refusal :=
  whilePolling s (.next (raiseChecksumMismatch s))

/-- `DISPATCH` (R137, R138): the RECORD row a completed record is, run on its operands. -/
def completeRecord (s : State) : Host.Outcome State Fault Refusal :=
  if checksumOk s then
    (if s.recType = 0x01 then execRecEos s.recAddrHi s.recAddrLo (payload s) s
     else if s.recType = 0x00 then execRecData s.recAddrHi s.recAddrLo (payload s) s
     else execRecNop s.recAddrHi s.recAddrLo s.recType (payload s) s)
  else execRecBadsum s.recAddrHi s.recAddrLo s.recType (payload s) (terminatorOf s) s

end Sys2Proof.Machine
end

