-- ==== Sys2Proof/Machine/Bytes.lean ====
section
/-! DEFINITION. The meanings of the BYTE rows: a decoded byte fed to the Record Assembler at one of its six positions
(spec/41_record_assembler.md R90 to R97), and what the state machine does with the event `feed` answers (R134, R136). -/

namespace Sys2Proof.Machine

/-- `BYTE_LENGTH` (R91). -/
def execByteLength (b : Byte) (s : State) : Host.Outcome State Fault Refusal := feedWhenAt .length b s

/-- `BYTE_ADDR_HI` (R92). -/
def execByteAddrHi (b : Byte) (s : State) : Host.Outcome State Fault Refusal := feedWhenAt .addrHi b s

/-- `BYTE_ADDR_LO` (R93). -/
def execByteAddrLo (b : Byte) (s : State) : Host.Outcome State Fault Refusal := feedWhenAt .addrLo b s

/-- `BYTE_TYPE` (R94): stored, not examined. -/
def execByteType (b : Byte) (s : State) : Host.Outcome State Fault Refusal := feedWhenAt .type b s

/-- `BYTE_DATA` (R95). -/
def execByteData (b : Byte) (s : State) : Host.Outcome State Fault Refusal := feedWhenAt .data b s

/-- `BYTE_TERMINATOR` (R96): summed, not stored. -/
def execByteTerminator (b : Byte) (s : State) : Host.Outcome State Fault Refusal := feedWhenAt .terminator b s

/-- The BYTE row the offset selects (R90). Past the record's end, where the rules never feed (R101), a fault (log 9). -/
def feedByte (b : Byte) (s : State) : Host.Outcome State Fault Refusal :=
  match position s with
  | some .length => execByteLength b s
  | some .addrHi => execByteAddrHi b s
  | some .addrLo => execByteAddrLo b s
  | some .type => execByteType b s
  | some .data => execByteData b s
  | some .terminator => execByteTerminator b s
  | none => .fault .feedPastRecordEnd

/-- What the state machine does with the record event (R134): nothing more (R136), or the record's own row (R137, R138). -/
def afterFeed (s : State) : Host.Outcome State Fault Refusal :=
  match recordEvent s with
  | .inProgress => .next s
  | .recordComplete _ => completeRecord s

/-- Two meanings of one step in a row: the second runs on the state the first leaves. -/
def thenRun (o : Host.Outcome State Fault Refusal) (k : State → Host.Outcome State Fault Refusal) :
    Host.Outcome State Fault Refusal :=
  match o with
  | .next s => k s
  | .fault r => .fault r
  | .refused r => .refused r

end Sys2Proof.Machine
end

