-- ==== Sys2Proof/Machine/Chars.lean ====
section
/-! DEFINITION. The meanings of the CHAR rows: a received hex character (spec/43_protocol_fsm.md R134, with R83, R84, R90, R136
to R138) and a received non-hex character (R135). -/

namespace Sys2Proof.Machine

/-- `HEX_CHAR` (R134): the timeout is re-armed first, before anything the record may cause; a first nibble is kept (R83), a
second makes a byte (R84) that is fed, and a completed record is dispatched in the same step. -/
def hexChar (v : Nibble) (s : State) : Host.Outcome State Fault Refusal :=
  whilePolling s
    (let t := { armTimeout s with fsm := .accumulatingRecord }
     match s.nibPhase with
     | .high => .next (pairHi v t)
     | .low => thenRun (feedByte (pairedByte t v) (pairLo t)) afterFeed)

/-- `NONHEX_CHAR` (R135). -/
def nonhexChar (s : State) : Host.Outcome State Fault Refusal :=
  whilePolling s (.next (raiseInvalidHexCharacter s))

/-- `CH_0` (R80: `nib` is 0). -/
def execCh0 (s : State) : Host.Outcome State Fault Refusal := hexChar 0 s

/-- `CH_1` (R80: `nib` is 1). -/
def execCh1 (s : State) : Host.Outcome State Fault Refusal := hexChar 1 s

/-- `CH_2` (R80: `nib` is 2). -/
def execCh2 (s : State) : Host.Outcome State Fault Refusal := hexChar 2 s

/-- `CH_3` (R80: `nib` is 3). -/
def execCh3 (s : State) : Host.Outcome State Fault Refusal := hexChar 3 s

/-- `CH_4` (R80: `nib` is 4). -/
def execCh4 (s : State) : Host.Outcome State Fault Refusal := hexChar 4 s

/-- `CH_5` (R80: `nib` is 5). -/
def execCh5 (s : State) : Host.Outcome State Fault Refusal := hexChar 5 s

/-- `CH_6` (R80: `nib` is 6). -/
def execCh6 (s : State) : Host.Outcome State Fault Refusal := hexChar 6 s

/-- `CH_7` (R80: `nib` is 7). -/
def execCh7 (s : State) : Host.Outcome State Fault Refusal := hexChar 7 s

/-- `CH_8` (R80: `nib` is 8). -/
def execCh8 (s : State) : Host.Outcome State Fault Refusal := hexChar 8 s

/-- `CH_9` (R80: `nib` is 9). -/
def execCh9 (s : State) : Host.Outcome State Fault Refusal := hexChar 9 s

/-- `CH_A` (R81: `nib` is 10). -/
def execChA (s : State) : Host.Outcome State Fault Refusal := hexChar 10 s

/-- `CH_B` (R81: `nib` is 11). -/
def execChB (s : State) : Host.Outcome State Fault Refusal := hexChar 11 s

/-- `CH_C` (R81: `nib` is 12). -/
def execChC (s : State) : Host.Outcome State Fault Refusal := hexChar 12 s

/-- `CH_D` (R81: `nib` is 13). -/
def execChD (s : State) : Host.Outcome State Fault Refusal := hexChar 13 s

/-- `CH_E` (R81: `nib` is 14). -/
def execChE (s : State) : Host.Outcome State Fault Refusal := hexChar 14 s

/-- `CH_F` (R81: `nib` is 15). -/
def execChF (s : State) : Host.Outcome State Fault Refusal := hexChar 15 s

/-- `CH_NONHEX` (R82, R135): which of the 240 codes it is plays no part. -/
def execChNonhex (_c : Byte) (s : State) : Host.Outcome State Fault Refusal := nonhexChar s

end Sys2Proof.Machine
end

