-- ==== Sys2Proof/Machine/Outputs.lean ====
section
/-! DEFINITION. The meanings of the OUT rows: the bytes the block sends (spec/30_encoding.md R73), as the `Send` actions they
are. When the block sends them is the business of the operations that do (R112, R118, R137, R146, R191). -/

namespace Sys2Proof.Machine

/-- `OUT_BANNER_START` (R73). -/
def execOutBannerStart (s : State) : Host.Outcome State Fault Refusal := whilePolling s (.next (sendBannerStart s))

/-- `OUT_XON` (R73). -/
def execOutXon (s : State) : Host.Outcome State Fault Refusal := whilePolling s (.next (sendXon s))

/-- `OUT_XOFF` (R73). -/
def execOutXoff (s : State) : Host.Outcome State Fault Refusal := whilePolling s (.next (sendXoff s))

/-- `OUT_PROGRESS` (R73). -/
def execOutProgress (s : State) : Host.Outcome State Fault Refusal := whilePolling s (.next (sendProgress s))

/-- `OUT_ERR` (R73). -/
def execOutErr (s : State) : Host.Outcome State Fault Refusal := whilePolling s (.next (sendErr s))

/-- `OUT_BANNER_HANDOFF` (R73). -/
def execOutBannerHandoff (s : State) : Host.Outcome State Fault Refusal := whilePolling s (.next (sendBannerHandoff s))

end Sys2Proof.Machine
end

