-- ==== Sys2Proof/Machine/Timeouts.lean ====
section
/-! DEFINITION. The meanings of the two `TimedOut` rows, told apart by `fsm` (spec/43_protocol_fsm.md R144, R145; R77). The
timer that has fired is not armed until it is armed again (R177; log 15). -/

namespace Sys2Proof.Machine

/-- `TIMEOUT_IDLE` (R144, R163): `finish()`. Selected in `AwaitingLine` only: an incomplete record plus idle timeout does not
finalize. -/
def execTimeoutIdle (s : State) : Host.Outcome State Fault Refusal :=
  whilePolling s
    (if s.fsm = .awaitingLine then (finish { s with timerArmed := false }).toOutcome else .refused .notSelected)

/-- `TIMEOUT_MIDREC` (R145, R164): the line restart that re-arms. Selected in `AccumulatingRecord` only. -/
def execTimeoutMidrec (s : State) : Host.Outcome State Fault Refusal :=
  whilePolling s
    (if s.fsm = .accumulatingRecord then .next (raiseTimeoutMidRecord { s with timerArmed := false })
     else .refused .notSelected)

end Sys2Proof.Machine
end

