-- ==== Sys2Proof/Machine/Dispatch.lean ====
section
/-! DEFINITION. The dispatch: one arm per constructor of Instr, each one call of its meaning. -/

namespace Sys2Proof.Machine

def exec (i : Instr) (s : State) : Host.Outcome State Fault Refusal :=
  match i with
  | .ch0 => Sys2Proof.Machine.execCh0 s
  | .ch1 => Sys2Proof.Machine.execCh1 s
  | .ch2 => Sys2Proof.Machine.execCh2 s
  | .ch3 => Sys2Proof.Machine.execCh3 s
  | .ch4 => Sys2Proof.Machine.execCh4 s
  | .ch5 => Sys2Proof.Machine.execCh5 s
  | .ch6 => Sys2Proof.Machine.execCh6 s
  | .ch7 => Sys2Proof.Machine.execCh7 s
  | .ch8 => Sys2Proof.Machine.execCh8 s
  | .ch9 => Sys2Proof.Machine.execCh9 s
  | .chA => Sys2Proof.Machine.execChA s
  | .chB => Sys2Proof.Machine.execChB s
  | .chC => Sys2Proof.Machine.execChC s
  | .chD => Sys2Proof.Machine.execChD s
  | .chE => Sys2Proof.Machine.execChE s
  | .chF => Sys2Proof.Machine.execChF s
  | .chNonhex c => Sys2Proof.Machine.execChNonhex c s
  | .timeoutIdle => Sys2Proof.Machine.execTimeoutIdle s
  | .timeoutMidrec => Sys2Proof.Machine.execTimeoutMidrec s
  | .recData hi lo payload => Sys2Proof.Machine.execRecData hi lo payload s
  | .recEos hi lo payload => Sys2Proof.Machine.execRecEos hi lo payload s
  | .recNop hi lo type payload => Sys2Proof.Machine.execRecNop hi lo type payload s
  | .recBadsum hi lo type payload terminator => Sys2Proof.Machine.execRecBadsum hi lo type payload terminator s
  | .byteLength b => Sys2Proof.Machine.execByteLength b s
  | .byteAddrHi b => Sys2Proof.Machine.execByteAddrHi b s
  | .byteAddrLo b => Sys2Proof.Machine.execByteAddrLo b s
  | .byteType b => Sys2Proof.Machine.execByteType b s
  | .byteData b => Sys2Proof.Machine.execByteData b s
  | .byteTerminator b => Sys2Proof.Machine.execByteTerminator b s
  | .outBannerStart => Sys2Proof.Machine.execOutBannerStart s
  | .outXon => Sys2Proof.Machine.execOutXon s
  | .outXoff => Sys2Proof.Machine.execOutXoff s
  | .outProgress => Sys2Proof.Machine.execOutProgress s
  | .outErr => Sys2Proof.Machine.execOutErr s
  | .outBannerHandoff => Sys2Proof.Machine.execOutBannerHandoff s

end Sys2Proof.Machine
end

