-- ==== Sys2Proof/Machine/Fetch.lean ====
section
/-! DEFINITION. How the block comes by its next instruction (R133, R169): one poll of what the outside delivers; and how a
table word is placed so that the next step runs it (log 6, log 21). Step.lean only calls these. -/

namespace Sys2Proof.Machine

/-- What a poll finds. -/
inductive Poll where
  /-- no event: the block spins (R133), or does nothing any more (R148) -/
  | idle
  /-- an external reset, the further ones that cut its session entry, and the state with the inputs consumed (R190) -/
  | reset (again : List Nat) (s : State)
  /-- an instruction, and the state with its event consumed -/
  | run (i : Instr) (s : State)
  /-- a reset in the middle of an instruction's step, and the state with the input consumed -/
  | cut (i : Instr) (count : Nat) (inCommit : Bool) (again : List Nat) (s : State)
  deriving DecidableEq, Repr

/-- What the inputs do to a block that polls no more: nothing until the first external reset; events before it, and one whose
step the reset would have cut, are not consumed, so that reset is one like any other (R148, R149; log 7). -/
def afterReset (s : State) : List Input → Poll
  | [] => .idle
  | .event _ :: rest => afterReset s rest
  | .externalReset again :: rest => .reset again { s with inbox := rest }
  | .resetDuring _ _ _ again :: rest => .reset again { s with inbox := rest }

/-- The row an event is (R60, R62, R77): a character by its code, `TimedOut` by `fsm`. -/
def selectInstr (s : State) : Event → Instr
  | .byteReceived c => decodeChar c
  | .timedOut => if s.fsm = .awaitingLine then .timeoutIdle else .timeoutMidrec

/-- One poll (R133). In a terminal state only an external reset counts (R148, R149). -/
def poll (s : State) : Poll :=
  if polls s.fsm then
    (match s.inbox with
     | [] => .idle
     | .externalReset again :: rest => .reset again { s with inbox := rest }
     | .event e :: rest => .run (selectInstr s e) { s with inbox := rest }
     | .resetDuring e count inCommit again :: rest =>
         .cut (selectInstr s e) count inCommit again { s with inbox := rest })
  else afterReset s s.inbox

/-- The state after `feed` of all the given bytes, by the rows their positions select; a state the rules never feed is left
as it is. -/
def feedAll : List Byte → State → State
  | [], s => s
  | b :: bs, s =>
      match position s with
      | some p => feedAll bs (feedAt p b s)
      | none => s

/-- A list of bytes delivered as characters, before what is already waiting. -/
def deliver (cs : List Byte) (s : State) : State :=
  { s with inbox := cs.map (fun c => .event (.byteReceived c)) ++ s.inbox }

/-- A state in the middle of a record, all of `bytes` but the low nibble of the last one received: the next character
delivered completes it. -/
def midRecord (bytes : List Byte) (s : State) : State :=
  match bytes.getLast? with
  | none => s
  | some b =>
      deliver [hexCode (b.extractLsb' 0 4)]
        (pairHi (b.extractLsb' 4 4)
          { feedAll bytes.dropLast (lineReset s) with fsm := .accumulatingRecord })

/-- `s` with a table word placed where the next step takes its instruction (log 21): a character is delivered; of the two
characters of a byte, or of a record's characters, all but the last have been received and the last is delivered. -/
def placeWord (s : State) (nbits w : Nat) : State :=
  match decodeTableWordE nbits w with
  | .error _ => deliver (wordBytes (nbits / 8) w) s
  | .ok (.byteLength b, _) => midRecord [b] s
  | .ok (i, _) =>
      if nbits = 8 then
        deliver (wordBytes 1 w) { s with fsm := if polls s.fsm then s.fsm else .awaitingLine }
      else midRecord (encode s.params i) s

end Sys2Proof.Machine
end

