-- ==== Sys2Proof/Machine/Step.lean ====
section
/-! DEFINITION. One step: one poll, and all of what the event it finds causes (R6, R53, R133, R150). -/

namespace Sys2Proof.Machine

/-- The step function (R150). -/
def step (s : State) : Host.Outcome State Fault Refusal :=
  match poll s with
  | .idle => .next s
  | .reset again t => .next (sessionEntries again t)
  | .run i t => exec i t
  | .cut i count inCommit again t => .next (cutStep (exec i t) count inCommit again t)

/-- `s` with the table word `w` of `nbits` bits where the next step takes its instruction from (log 21). -/
def State.withFetchWord (s : State) (nbits w : Nat) : State := placeWord s nbits w

end Sys2Proof.Machine
end

