-- ==== Sys2Proof/Safety.lean ====
section
/-! DEFINITION. The terms claims are stated in: the invariant of the machine, the line start, the memory a program would see
once the buffer is committed, and what the actions of one step are. -/

namespace Sys2Proof.Machine

/-- The line group as every line starts with it (R33, R37, R130). -/
abbrev AtLineStart (s : State) : Prop :=
  s.nibPhase = .high ∧ s.hiNib = 0 ∧ s.offset = 0 ∧ s.sum = 0 ∧ s.recLength = 0 ∧ s.recAddrHi = 0 ∧ s.recAddrLo = 0 ∧
    s.recType = 0 ∧ s.recData = noData

/-- A state with the line group of a line start and everything else as it is (R33). -/
def freshLine (s : State) : State :=
  { s with
    nibPhase := .high, hiNib := 0, offset := 0, sum := 0, recLength := 0, recAddrHi := 0, recAddrLo := 0, recType := 0,
    recData := noData }

/-- The bytes of the current record consumed so far, as the record registers hold them (R28, R30, R31). -/
def consumed (s : State) : List Byte :=
  ([s.recLength, s.recAddrHi, s.recAddrLo, s.recType] ++ s.recData.toList).take s.offset.toNat

/-- Mid-record (R130): something consumed, the record's end not passed (R101), the sum that of the bytes consumed (R29). -/
abbrev MidRecord (s : State) : Prop :=
  (s.nibPhase = .low ∨ 0 < s.offset.toNat) ∧ s.offset.toNat ≤ 4 + s.recLength.toNat ∧ s.sum = byteSum (consumed s)

/-- `current_block` is block-aligned (R23). -/
abbrev BlockAligned (s : State) : Prop := s.currentBlock &&& blockMask s.params = 0

/-- `buf` has `BLOCK_SIZE` bytes (R24). -/
abbrev BufferSized (s : State) : Prop := s.buf.length = blockSize s.params

/-- The invariant of the machine: alignment (R23), the buffer's size (R24), memory in canonical form, the line group as `fsm`
says (R130), the sender running and interrupts off whenever the block polls (R36, R56, R168). -/
abbrev Inv (s : State) : Prop :=
  BlockAligned s ∧ BufferSized s ∧ Memory.wf s.nv ∧ (s.fsm = .awaitingLine → AtLineStart s) ∧
    (s.fsm = .accumulatingRecord → MidRecord s) ∧ (polls s.fsm = true → s.senderPaused = false) ∧
    s.interruptsEnabled = false

/-- The next `n` commits are answered Ok (R113). -/
abbrev OkFor (n : Nat) (s : State) : Prop := ∀ k, k < n → answerOf s k = CommitAnswer.ok

/-- The byte at an address as the stream has left it: in the buffer for the current block, in non-volatile memory for every
other (R25, R121). -/
def logicalByte (s : State) (a : Addr) : Byte :=
  if blockBase s.params a = s.currentBlock then s.buf.getD (blockIndex s.params a) Config.unlistedByte
  else s.nv.read a.toNat

/-- The addresses of `n` payload bytes from `a` on (R141): ascending, wrapping at 16 bits. -/
def payloadAddrs (a : Addr) (n : Nat) : List Addr := (List.range n).map fun i => a + BitVec.ofNat 16 i

/-- How often the block changes along a list of addresses, starting in `block` (R120, R141). -/
def blockChanges (p : Params) : Addr → List Addr → Nat
  | _, [] => 0
  | block, a :: as =>
      if blockBase p a = block then blockChanges p block as else 1 + blockChanges p (blockBase p a) as

/-- The buffer holds what memory holds of its block, but for the addresses of `dirty` (R25). -/
def MirrorsExcept (dirty : List Addr) (s : State) : Prop :=
  ∀ a : Addr, blockBase s.params a = s.currentBlock → a ∉ dirty → logicalByte s a = s.nv.read a.toNat

/-- The addresses the record registers write when the next byte completes a data record (R99, R137, R141); none otherwise. -/
def addressesDue (s : State) : List Addr :=
  if s.nibPhase = .low ∧ s.offset.toNat = 4 + s.recLength.toNat ∧ s.recType = 0x00 then
    payloadAddrs (recordAddress s.recAddrHi s.recAddrLo) s.recLength.toNat
  else []

/-- The actions of a session entry with the given parameters (R191). -/
def entryActions (p : Params) : List Action :=
  p.bannerStart.map Action.send ++ [.load 0x0000#16, .send p.xonByte, .armTimeout]

/-- The block of the last address of a list, or `block` where there is none. -/
def lastBlock (p : Params) (block : Addr) (as : List Addr) : Addr :=
  match as.getLast? with
  | none => block
  | some a => blockBase p a

/-- The 16 CHAR rows of hex characters with the nibble each stands for (spec/opcode_table.json, R80, R81). -/
def hexRows : List (Instr × Nibble) :=
  [(.ch0, 0), (.ch1, 1), (.ch2, 2), (.ch3, 3), (.ch4, 4), (.ch5, 5), (.ch6, 6), (.ch7, 7), (.ch8, 8), (.ch9, 9),
   (.chA, 10), (.chB, 11), (.chC, 12), (.chD, 13), (.chE, 14), (.chF, 15)]

/-- A list of bytes as the events the Byte Source delivers (R6, R175). -/
def characters (cs : List Byte) : List Input := cs.map fun c => .event (.byteReceived c)

/-- How many commits a list of actions issues. -/
def commitCount : List Action → Nat
  | [] => 0
  | .commit _ _ :: as => 1 + commitCount as
  | .send _ :: as | .armTimeout :: as | .load _ :: as | .drain :: as | .handoff _ :: as => commitCount as

end Sys2Proof.Machine
end

