-- ==== Sys2Proof/Certificates/Slice0/Obligations.lean ====
section
/-! DEFINITION. The statements for the provers. Each docstring names the rules of spec/ it rests on; where a clause rests on a
choice the spec marks as its own (Dn of spec/92_eei_decisions.md) or on a log entry of the model, it says so. -/

open Sys2Proof Sys2Proof.Machine

/-! ### Encoding -/

/-- A few words written out from R61, R63, R64 and R68 decode to the rows they stand for. The codes of the characters are the
spec's general knowledge (log 11), 0x61 is no hex character by the spec's decision D7, and `decodeTableWord` reads a table word
of 8 bits as one character by the model's choice (log 21). The size of a record is the spec's decision D6, and the operands of a
RECORD row are log 10's. -/
def Obligations.WrittenWordsDecode : Prop :=
  decodeTableWord 8 0x37 = some .ch7 ∧ decodeTableWord 8 0x45 = some .chE ∧
  decodeTableWord 8 0x61 = some (.chNonhex 0x61) ∧
  decode .char [0x30, 0x0A] = .ok (.ch0, [0x0A]) ∧
  decode (.byte .addrHi) [0x44, 0x45] = .ok (.byteAddrHi 0xDE, []) ∧
  decode .record [0x04, 0x00, 0x00, 0x00, 0xDE, 0xAD, 0xBE, 0xEF, 0xC4] =
    .ok (.recData 0x00 0x00 [0xDE, 0xAD, 0xBE, 0xEF], []) ∧
  decode .record [0x00, 0x00, 0x00, 0x01, 0xFF] = .ok (.recEos 0x00 0x00 [], []) ∧
  decode .record [0x02, 0x12, 0x34, 0x02, 0x09, 0x09, 0xA4] = .ok (.recNop 0x12 0x34 0x02 [0x09, 0x09], []) ∧
  decode .record [0x00, 0x00, 0x00, 0x01, 0xFE] = .ok (.recBadsum 0x00 0x00 0x01 [] 0xFE, [])

/-- R80: a code in 0x30 to 0x39 is its low four bits, that is the code less 0x30. R81: a code in 0x41 to 0x46 is the code less
0x37. That these are the codes of the hex characters is the spec's general knowledge (log 11). -/
def Obligations.NibOfHexCodes : Prop :=
  ∀ c : Byte,
    (0x30 ≤ c.toNat → c.toNat ≤ 0x39 → nib c = .valid (c.extractLsb' 0 4) ∧ (c.extractLsb' 0 4).toNat = c.toNat - 0x30) ∧
    (0x41 ≤ c.toNat → c.toNat ≤ 0x46 → ∃ v : Nibble, nib c = .valid v ∧ v.toNat = c.toNat - 0x37)

/-- R82 and R62: every other code is `Invalid`, lower-case letters among them (the spec's decision D7), so the three classes
partition the 256 codes. The ranges rest on the codes of the hex characters, the spec's general knowledge (log 11). -/
def Obligations.NibRejectsEveryOtherCode : Prop :=
  ∀ c : Byte, (c.toNat ≤ 0x2F ∨ (0x3A ≤ c.toNat ∧ c.toNat ≤ 0x40) ∨ 0x47 ≤ c.toNat) →
    nib c = .invalid ∧ decodeChar c = .chNonhex c

/-- Decode and encode agree (R61 to R68): the words of every well-formed instruction that has an encoding, with any bytes after
them, decode to it and leave those bytes. The size of a record is the spec's decision D6. The codes of the characters are the
spec's general knowledge (log 11), lower-case letters are `CH_NONHEX` by its decision D7, and the operands of a RECORD row are
log 10's. -/
def Obligations.DecodeOfEncode : Prop :=
  ∀ (p : Params) (i : Instr) (f : Format) (rest : List Byte), WellFormed i = true → formatOf i = some f →
    decode f (encode p i ++ rest) = .ok (i, rest)

/-- The other direction: whatever bytes a format reads as an instruction, that instruction is well formed, belongs to the
format, and encodes to exactly the bytes consumed. The size of a record is the spec's decision D6. A byte has one spelling only
because lower-case digits are refused, the spec's decision D7 (log 24): of a loader that takes them the clause about bytes is
false. The codes are the spec's general knowledge (log 11), and the operands of a RECORD row are log 10's. -/
def Obligations.EncodeOfDecode : Prop :=
  ∀ (p : Params) (f : Format) (bytes rest : List Byte) (i : Instr), decode f bytes = .ok (i, rest) →
    WellFormed i = true ∧ formatOf i = some f ∧ encode p i ++ rest = bytes

/-! ### The step, reset, terminal states -/

/-- A step runs the decoded instruction (R6, R133, R150): where the block polls and the next event is a character that decodes
to a well-formed instruction, or a timeout, the step is `exec` of that instruction on the state with the event consumed. That
the events to come are a list is log 6. -/
def Obligations.StepRunsTheDecodedInstruction : Prop :=
  (∀ (s : State) (c : Byte) (rest : List Input) (i : Instr), polls s.fsm = true →
    s.inbox = .event (.byteReceived c) :: rest → decode .char [c] = .ok (i, []) → WellFormed i = true →
    step s = exec i { s with inbox := rest }) ∧
  (∀ (s : State) (rest : List Input), s.fsm = .awaitingLine → s.inbox = .event .timedOut :: rest →
    step s = exec .timeoutIdle { s with inbox := rest }) ∧
  (∀ (s : State) (rest : List Input), s.fsm = .accumulatingRecord → s.inbox = .event .timedOut :: rest →
    step s = exec .timeoutMidrec { s with inbox := rest })

/-- R133 and R148 (events in terminal states: the spec's decision D18), with the model's choices of log 6 and log 7: a poll that
finds nothing, and any step of a terminal state that no external reset leaves, change nothing; in a terminal state no instruction changes anything. -/
def Obligations.TerminalStatesChangeNothing : Prop :=
  (∀ s : State, s.inbox = [] → step s = .next s) ∧
  (∀ s : State, polls s.fsm = false → (∀ x ∈ s.inbox, ∃ e, x = Input.event e) → step s = .next s) ∧
  (∀ (i : Instr) (s : State), polls s.fsm = false → exec i s = .next s)

/-- Session entry on an external reset (R190, R191; the spec's decisions D3, D4, D11, D14, D25): from any state that polls, with
the reset next, or from a terminal state, past events it never consumed (log 7). The bytes queued before are gone (R5, R192;
log 14), and that no block is executable afterwards is the model's choice (log 16). -/
def Obligations.ExternalResetRunsSessionEntry : Prop :=
  ∀ (s : State) (es : List Event) (rest : List Input), (polls s.fsm = true → es = []) →
    s.inbox = es.map Input.event ++ Input.externalReset [] :: rest →
    step s = .next { freshLine s with
      fsm := .awaitingLine, currentBlock := 0x0000#16, buf := Memory.readBytes s.nv 0x0000#16 (blockSize s.params),
      timerArmed := true, senderPaused := false, inbox := rest, executable := [],
      txQueue := s.params.bannerStart ++ [s.params.xonByte],
      trace := s.trace ++ s.params.bannerStart.map Action.send ++
        [.load 0x0000#16, .send s.params.xonByte, .armTimeout] }

/-- What survives a reset is `NV` (R5, R192): two states that differ in any way in the block's own state, the timer, the sender,
the transmit queue (log 14) and the list of executable blocks (its loss: the model's choice, log 16), whatever further resets
cut the session entry (log 4), are the same after the reset, and memory is as it was. When a reset can come and what it starts
is the spec's decision D25. -/
def Obligations.ResetForgetsTheBlock : Prop :=
  ∀ (s t : State) (again : List Nat) (rest : List Input), s.inbox = .externalReset again :: rest →
    t = { s with
      fsm := t.fsm, currentBlock := t.currentBlock, buf := t.buf, nibPhase := t.nibPhase, hiNib := t.hiNib,
      offset := t.offset, sum := t.sum, recLength := t.recLength, recAddrHi := t.recAddrHi, recAddrLo := t.recAddrLo,
      recType := t.recType, recData := t.recData, timerArmed := t.timerArmed, senderPaused := t.senderPaused,
      txQueue := t.txQueue, executable := t.executable } →
    ∃ u, step s = .next u ∧ step t = .next u ∧ u.nv = s.nv

/-- R190 to R193, a reset in the middle of a step, and further ones in the middle of the session entries that follow (the spec's
decisions D3, D4, D11, D14, D25; their places: log 4; the queue: log 14; the executable list: log 16). In a state that polls, the
actions before the reset are the first ones of the step on the event it names, none of them a hand-off; then come the actions of
each cut session entry and those of a whole one; memory changes only in blocks that were committed before the reset. A reset
between two steps, and any reset of a terminal state past the events it never consumed (log 7), run the session entries on the
state as it is. -/
def Obligations.ResetInsideAStep : Prop :=
  (∀ (s : State) (e : Event) (count : Nat) (inCommit : Bool) (again : List Nat) (rest : List Input), polls s.fsm = true →
    Inv s → s.inbox = .resetDuring e count inCommit again :: rest →
    let acts := cutActions count (actionsOf s (step { s with inbox := .event e :: rest }))
    (∀ x, Action.handoff x ∉ acts) ∧
    ∃ u : State, step s = .next u ∧
      newActions s u = acts ++ (again.map fun k => (entryActions s.params).take k).flatten ++ entryActions s.params ∧
      u.fsm = .awaitingLine ∧ u.currentBlock = 0x0000#16 ∧ u.buf = Memory.readBytes u.nv 0x0000#16 (blockSize u.params) ∧
      AtLineStart u ∧ u.timerArmed = true ∧ u.senderPaused = false ∧ u.inbox = rest ∧ u.params = s.params ∧
      u.executable = [] ∧ u.txQueue = s.params.bannerStart ++ [s.params.xonByte] ∧
      ∀ a : Addr, u.nv.read a.toNat ≠ s.nv.read a.toNat →
        ∃ (b : Addr) (d : List Byte), Action.commit b d ∈ acts ∧ blockBase s.params a = b) ∧
  (∀ (s : State) (es : List Event) (x : Input) (again : List Nat) (rest : List Input),
    x = .externalReset again ∨ (polls s.fsm = false ∧ ∃ e count inCommit, x = .resetDuring e count inCommit again) →
    (polls s.fsm = true → es = []) → s.inbox = es.map Input.event ++ x :: rest →
    step s = .next { freshLine s with
      fsm := .awaitingLine, currentBlock := 0x0000#16, buf := Memory.readBytes s.nv 0x0000#16 (blockSize s.params),
      timerArmed := true, senderPaused := false, inbox := rest, executable := [],
      txQueue := s.params.bannerStart ++ [s.params.xonByte],
      trace := s.trace ++ (again.map fun k => (entryActions s.params).take k).flatten ++ entryActions s.params })

/-- R192 and R193 in the middle of a step (the spec's decision D25; log 4), whatever further resets cut the session entries: with
every commit of the step answered Ok, a block whose last commit before the reset had completed holds what that commit stored. -/
def Obligations.CommittedBlocksSurviveAReset : Prop :=
  ∀ (s u : State) (e : Event) (count : Nat) (inCommit : Bool) (again : List Nat) (rest : List Input)
    (before after : List Action) (b : Addr) (d : List Byte), polls s.fsm = true → Inv s → OkFor 256 s →
    s.inbox = .resetDuring e count inCommit again :: rest → step s = .next u →
    (actionsOf s (step { s with inbox := .event e :: rest })).take count = before ++ .commit b d :: after →
    (∀ d', Action.commit b d' ∉ after) → (inCommit = false ∨ after ≠ []) →
    Memory.block u.params u.nv b = d

/-- What a reset in the middle of a step replays is the step itself (log 4): for every instruction that answers a next state,
replaying the actions it emitted gives its memory, executable blocks, answers taken, free bytes drawn and transmit queue. -/
def Obligations.ReplayedActionsAreTheStep : Prop :=
  ∀ (i : Instr) (s t : State), exec i s = .next t →
    let u := replay (newActions s t) s
    u.nv = t.nv ∧ u.executable = t.executable ∧ u.answers = t.answers ∧ u.answersTaken = t.answersTaken ∧
      u.freeCount = t.freeCount ∧ u.txQueue = t.txQueue

/-- The state after reset has the values of R37 for the first state in which the block polls (the spec's decisions D3, D4, D14;
that `State.reset` is this state: log 19): `AwaitingLine`, block 0, the buffer a copy of block 0, the line group zero, the timer
armed, the sender running. Two clauses are no values of R37: that no byte of memory is listed is the model's choice (log 2: R37
and U12 leave the contents of `NV` free), and that interrupts are off is its reading of R168 and R194(3) (log 17). -/
def Obligations.ResetValues : Prop :=
  State.reset.fsm = .awaitingLine ∧ State.reset.currentBlock = 0x0000#16 ∧
  State.reset.buf = Memory.readBytes State.reset.nv 0x0000#16 (blockSize State.reset.params) ∧
  AtLineStart State.reset ∧ State.reset.timerArmed = true ∧ State.reset.senderPaused = false ∧
  State.reset.interruptsEnabled = false ∧ State.reset.nv = []

/-! ### Characters -/

/-- R83 with R134: a valid nibble at phase 0 is kept, no byte is produced and the assembler is not called; a non-hex character
or a timeout right after discards it. The first clause gives the whole next state of every hex character there: that a lone
nibble makes it `AccumulatingRecord` is the spec's decision D8. That a timeout there restarts the line is its D9, and that the
restart leaves the whole line group zero (R33) its D14. -/
def Obligations.FirstNibbleIsKept : Prop :=
  ∀ r ∈ hexRows, ∀ s : State, polls s.fsm = true → s.nibPhase = .high →
    ∃ t, exec r.1 s = .next t ∧
      t = { s with
        hiNib := r.2, nibPhase := .low, fsm := .accumulatingRecord, timerArmed := true,
        trace := s.trace ++ [.armTimeout] } ∧
      (∀ c, ∃ u, exec (.chNonhex c) t = .next u ∧ AtLineStart u) ∧
      (∃ u, exec .timeoutMidrec t = .next u ∧ AtLineStart u)

/-- R84, R90 to R95, R134, R136: a valid nibble at phase 1 makes a byte with the kept nibble in its high half; before the
record's last byte the byte is summed, stored by its position, and the step ends mid-record with the one action
`ArmTimeout`. -/
def Obligations.SecondNibbleFeedsTheByte : Prop :=
  ∀ r ∈ hexRows, ∀ s : State, polls s.fsm = true → s.nibPhase = .low →
    (s.offset.toNat < 4 ∨ s.offset.toNat < 4 + s.recLength.toNat) →
    exec r.1 s = .next { s with
      fsm := .accumulatingRecord, timerArmed := true, trace := s.trace ++ [.armTimeout], nibPhase := .high,
      sum := s.sum + (s.hiNib ++ r.2 : BitVec 8), offset := s.offset + 1,
      recLength := if s.offset.toNat = 0 then (s.hiNib ++ r.2 : BitVec 8) else s.recLength,
      recAddrHi := if s.offset.toNat = 1 then (s.hiNib ++ r.2 : BitVec 8) else s.recAddrHi,
      recAddrLo := if s.offset.toNat = 2 then (s.hiNib ++ r.2 : BitVec 8) else s.recAddrLo,
      recType := if s.offset.toNat = 3 then (s.hiNib ++ r.2 : BitVec 8) else s.recType,
      recData := if 4 ≤ s.offset.toNat then s.recData.setIfInBounds (s.offset.toNat - 4) (s.hiNib ++ r.2 : BitVec 8)
        else s.recData }

/-- R97, R137, R138, R170: the character that completes the record's last byte runs, in the same step, the row the record is: a
sum that is not zero first, then the type by all its 8 bits. The operands of the row are log 10's, the terminator operand among
them, which is the byte just made; that it is summed and not stored is the spec's decision D21. -/
def Obligations.LastNibbleDispatchesTheRecord : Prop :=
  ∀ r ∈ hexRows, ∀ s : State, polls s.fsm = true → s.nibPhase = .low →
    s.offset.toNat = 4 + s.recLength.toNat →
    let b : Byte := (s.hiNib ++ r.2 : BitVec 8)
    let data := s.recData.toList.take s.recLength.toNat
    let u : State := { s with
      fsm := .accumulatingRecord, timerArmed := true, trace := s.trace ++ [.armTimeout], nibPhase := .high,
      sum := s.sum + b, offset := s.offset + 1 }
    (u.sum ≠ 0 → exec r.1 s = exec (.recBadsum s.recAddrHi s.recAddrLo s.recType data b) u) ∧
    (u.sum = 0 → s.recType = 0x01 → exec r.1 s = exec (.recEos s.recAddrHi s.recAddrLo data) u) ∧
    (u.sum = 0 → s.recType = 0x00 → exec r.1 s = exec (.recData s.recAddrHi s.recAddrLo data) u) ∧
    (u.sum = 0 → s.recType ≠ 0x01 → s.recType ≠ 0x00 →
      exec r.1 s = exec (.recNop s.recAddrHi s.recAddrLo s.recType data) u)

/-- R135, R161 (the spec's decisions D10, D14): a non-hex character restarts the line: no action, the timer as it was, buffer,
block and memory kept; at a line start it changes nothing at all. -/
def Obligations.NonhexRestartsTheLine : Prop :=
  (∀ (c : Byte) (s : State), polls s.fsm = true →
    exec (.chNonhex c) s = .next { freshLine s with fsm := .awaitingLine }) ∧
  (∀ (c : Byte) (s : State), s.fsm = .awaitingLine → AtLineStart s → exec (.chNonhex c) s = .next s)

/-! ### Timeouts and the terminal sequence -/

/-- R145, R164 (the spec's decision D9): a timeout in the middle of a record restarts the line silently and re-arms. That the
whole line group is zero is the spec's decision D14. -/
def Obligations.TimeoutMidRecordRestartsTheLine : Prop :=
  ∀ s : State, s.fsm = .accumulatingRecord →
    exec .timeoutMidrec s = .next { freshLine s with
      fsm := .awaitingLine, timerArmed := true, trace := s.trace ++ [.armTimeout] }

/-- R139, R144, R146, R117, R118 (the spec's decisions D12, D13, D19): an end-of-stream record, whatever its operands, and a
timeout at a line start, with the commit answered Ok, commit the buffer, send the progress character and the hand-off banner,
drain, hand over, and are `Finished`; no flow-control byte, no load; memory is then what the stream left. That the executable
list gains the block and loses none is log 16's reading, and that the timeout taken leaves the timer not armed log 15's. That
`Drain` always returns is the spec's decision D27. -/
def Obligations.FinishCommitsAndHandsOver : Prop :=
  ∀ s : State, Inv s → nextAnswer s = .ok →
    let done (s : State) (m : Memory) (ex : List Addr) : State := { s with
      fsm := .finished, nv := m, executable := ex, answers := s.answers.tail, answersTaken := s.answersTaken + 1,
      txQueue := [],
      trace := s.trace ++ [.commit s.currentBlock s.buf, .send s.params.progressChar] ++
        s.params.bannerHandoff.map Action.send ++ [.drain, .handoff s.params.entryPoint] }
    ∃ (m : Memory) (ex : List Addr),
      (∀ a : Addr, m.read a.toNat = logicalByte s a) ∧ Memory.wf m ∧
      (∀ b : Addr, b ∈ ex ↔ b = s.currentBlock ∨ b ∈ s.executable) ∧
      (polls s.fsm = true → ∀ hi lo data, exec (.recEos hi lo data) s = .next (done s m ex)) ∧
      (s.fsm = .awaitingLine → exec .timeoutIdle s = .next (done { s with timerArmed := false } m ex))

/-- R114, R165 (the spec's decision D15; free bytes: log 5): a final commit answered `WriteFault` ends the step there: nothing
is emitted after the `Commit`, the block is `WriteFaulted`, and no byte outside the faulted block changes; of the bytes inside
nothing is said. That the faulted block leaves the executable list is log 16's reading, and that the timeout taken leaves the
timer not armed log 15's. -/
def Obligations.WriteFaultInTheFinalFlush : Prop :=
  ∀ s : State, Inv s → nextAnswer s = .writeFault →
    let dead (s : State) (m : Memory) (ex : List Addr) (n : Nat) : State := { s with
      fsm := .writeFaulted, nv := m, executable := ex, freeCount := n, answers := s.answers.tail,
      answersTaken := s.answersTaken + 1,
      trace := s.trace ++ [.commit s.currentBlock s.buf] }
    ∃ (m : Memory) (ex : List Addr) (n : Nat),
      (∀ a : Addr, blockBase s.params a ≠ s.currentBlock → m.read a.toNat = s.nv.read a.toNat) ∧ Memory.wf m ∧
      (∀ b : Addr, b ∈ ex ↔ b ≠ s.currentBlock ∧ b ∈ s.executable) ∧
      (polls s.fsm = true → ∀ hi lo data, exec (.recEos hi lo data) s = .next (dead s m ex n)) ∧
      (s.fsm = .awaitingLine → exec .timeoutIdle s = .next (dead { s with timerArmed := false } m ex n))

/-- R115, R166 (the spec's decision D15; free bytes: log 5; the state the fault carries: log 22): a final commit that never answers
has no next state: the step is stuck in it, every action up to and including the `Commit` emitted and none after, no byte outside
the block changed. That the timeout taken leaves the timer not armed is log 15's reading. -/
def Obligations.HungFinalCommitIsStuck : Prop :=
  ∀ s : State, Inv s → nextAnswer s = .never →
    let inside (s : State) (m : Memory) (ex : List Addr) (n : Nat) : State := { s with
      nv := m, executable := ex, freeCount := n, answers := s.answers.tail, answersTaken := s.answersTaken + 1,
      trace := s.trace ++ [.commit s.currentBlock s.buf] }
    ∃ (m : Memory) (ex : List Addr) (n : Nat),
      (∀ a : Addr, blockBase s.params a ≠ s.currentBlock → m.read a.toNat = s.nv.read a.toNat) ∧
      (polls s.fsm = true → ∀ hi lo data, exec (.recEos hi lo data) s = .fault (.stuck (inside s m ex n))) ∧
      (s.fsm = .awaitingLine → exec .timeoutIdle s = .fault (.stuck (inside { s with timerArmed := false } m ex n)))

/-- R77, R90 and log 8 (the model's choice): a row that state selects is refused by name in a polling state that selects
another. -/
def Obligations.RowsAreSelectedByState : Prop :=
  (∀ s : State, s.fsm = .accumulatingRecord → exec .timeoutIdle s = .refused .notSelected) ∧
  (∀ s : State, s.fsm = .awaitingLine → exec .timeoutMidrec s = .refused .notSelected) ∧
  (∀ (b : Byte) (s : State), polls s.fsm = true →
    (s.offset.toNat ≠ 0 → exec (.byteLength b) s = .refused .notSelected) ∧
    (s.offset.toNat ≠ 1 → exec (.byteAddrHi b) s = .refused .notSelected) ∧
    (s.offset.toNat ≠ 2 → exec (.byteAddrLo b) s = .refused .notSelected) ∧
    (s.offset.toNat ≠ 3 → exec (.byteType b) s = .refused .notSelected) ∧
    (s.offset.toNat < 4 ∨ 4 + s.recLength.toNat ≤ s.offset.toNat → exec (.byteData b) s = .refused .notSelected) ∧
    (s.offset.toNat ≠ 4 + s.recLength.toNat → exec (.byteTerminator b) s = .refused .notSelected))

/-! ### Bytes -/

/-- R91 to R95 with the common part R90: a byte at its position sets its field and nothing else but the sum, which takes every
byte, and the offset. -/
def Obligations.ByteRowsFillTheRecord : Prop :=
  ∀ (b : Byte) (s : State), polls s.fsm = true →
    let fed : State := { s with sum := s.sum + b, offset := s.offset + 1 }
    (s.offset.toNat = 0 → exec (.byteLength b) s = .next { fed with recLength := b }) ∧
    (s.offset.toNat = 1 → exec (.byteAddrHi b) s = .next { fed with recAddrHi := b }) ∧
    (s.offset.toNat = 2 → exec (.byteAddrLo b) s = .next { fed with recAddrLo := b }) ∧
    (s.offset.toNat = 3 → exec (.byteType b) s = .next { fed with recType := b }) ∧
    (4 ≤ s.offset.toNat → s.offset.toNat < 4 + s.recLength.toNat →
      exec (.byteData b) s = .next { fed with recData := s.recData.setIfInBounds (s.offset.toNat - 4) b })

/-- R96 (the spec's decision D21: not stored): the terminator is summed, and nothing is stored. -/
def Obligations.TerminatorIsOnlySummed : Prop :=
  ∀ (b : Byte) (s : State), polls s.fsm = true → s.offset.toNat = 4 + s.recLength.toNat →
    exec (.byteTerminator b) s = .next { s with sum := s.sum + b, offset := s.offset + 1 }

/-- R97, R98: the record is complete exactly after its terminator, and valid exactly when the sum of all its bytes is zero. The
size of a record is the spec's decision D6. -/
def Obligations.CompletionAndValidity : Prop :=
  (∀ (b : Byte) (s t : State), polls s.fsm = true → exec (.byteTerminator b) s = .next t →
    recordEvent t = .recordComplete (decide (t.sum = 0))) ∧
  (∀ (i : Instr) (s t : State), polls s.fsm = true →
    (∃ b, i = .byteLength b ∨ i = .byteAddrHi b ∨ i = .byteAddrLo b ∨ i = .byteType b ∨ i = .byteData b) →
    exec i s = .next t → recordEvent t = .inProgress)

/-- R90, R97, R98 over a whole record, and the property the spec quotes as P1 (R102): fed from a line start, the 5 + length
bytes of any record leave the assembler complete, with the operands of the row they decode to, and valid exactly when they sum
to zero; changing any one byte but the length of a valid record leaves it complete and invalid. The size of a record is the
spec's decision D6; that the terminator is not stored is its D21, and the operand that stands for it is recomputed by log 10. -/
def Obligations.AssemblerReportsTheChecksum : Prop :=
  (∀ (s : State) (i : Instr) (bytes : List Byte), AtLineStart s → decode .record bytes = .ok (i, []) →
    completedRecord (feedAll bytes s) = i ∧
    recordEvent (feedAll bytes s) = .recordComplete (decide (byteSum bytes = 0))) ∧
  (∀ (s : State) (i : Instr) (bytes : List Byte) (k : Nat) (v : Byte), AtLineStart s →
    decode .record bytes = .ok (i, []) → byteSum bytes = 0 → 1 ≤ k → (h : k < bytes.length) → v ≠ bytes[k] →
    recordEvent (feedAll (bytes.set k v) s) = .recordComplete false)

/-! ### Records -/

/-- R143 (line reset: the spec's decision D14) and R137, R162 (D12, D23): a record of any other type changes nothing but the
line, whatever its operands; a record with a bad sum sends the one error character and is `Aborted`, whatever its type, with
the line group, the buffer and memory as they were. -/
def Obligations.NopAndBadsumRecords : Prop :=
  ∀ (hi lo type : Byte) (data : List Byte) (s : State), polls s.fsm = true →
    exec (.recNop hi lo type data) s = .next { freshLine s with fsm := .awaitingLine } ∧
    ∀ terminator : Byte, exec (.recBadsum hi lo type data terminator) s = .next { s with
      fsm := .aborted, trace := s.trace ++ [.send s.params.checksumErrChar],
      txQueue := s.txQueue ++ [s.params.checksumErrChar] }

/-- R100: a record of length 0 is accepted: its byte at offset 4 is the terminator, never payload, and completes it; a data record
without payload applies no byte and touches no block. -/
def Obligations.EmptyPayloadRecords : Prop :=
  (∀ (hi lo type terminator : Byte) (rest : List Byte),
    decode .record (0x00 :: hi :: lo :: type :: terminator :: rest) = .ok (classifyRecord hi lo type [] terminator, rest)) ∧
  decode .record [0x00, 0x00, 0x00, 0x01, 0xFF] = .ok (.recEos 0x00 0x00 [], []) ∧
  decode .record [0x00, 0x40, 0x00, 0x00, 0xC0] = .ok (.recData 0x40 0x00 [], []) ∧
  (∀ (b : Byte) (s : State), polls s.fsm = true → s.recLength = 0 →
    position s ≠ some .data ∧
    (s.offset.toNat = 4 → ∃ t ok, exec (.byteTerminator b) s = .next t ∧ recordEvent t = .recordComplete ok)) ∧
  (∀ (hi lo : Byte) (s : State), polls s.fsm = true →
    ∃ t, exec (.recData hi lo []) s = .next t ∧ t.fsm = .awaitingLine ∧ t.trace = s.trace ∧ t.nv = s.nv ∧
      t.buf = s.buf ∧ t.currentBlock = s.currentBlock)

/-- R110, R111, R140 to R142 (line reset: D14): a data record whose payload lies in the current block, a record without payload
among them (R100), writes its bytes to the buffer and nothing else: no action, no memory change, the line restarted. The address
is the record's by R99 (the spec's decision D5). That every address is applied is the spec's decision D22, and the wrap of the
addresses log 12. -/
def Obligations.DataRecordInsideTheBlock : Prop :=
  ∀ (hi lo : Byte) (data : List Byte) (s : State), polls s.fsm = true → BufferSized s → data.length ≤ 255 →
    (∀ a ∈ payloadAddrs (hi ++ lo : BitVec 16) data.length, blockBase s.params a = s.currentBlock) →
    ∃ buf : List Byte, buf.length = s.buf.length ∧
      exec (.recData hi lo data) s = .next { freshLine s with fsm := .awaitingLine, buf := buf } ∧
      (∀ (k : Nat) (h : k < data.length),
        buf[((hi ++ lo : BitVec 16) + BitVec.ofNat 16 k).toNat % blockSize s.params]? = some data[k]) ∧
      (∀ j : Nat, (∀ a ∈ payloadAddrs (hi ++ lo : BitVec 16) data.length, a.toNat % blockSize s.params ≠ j) →
        buf[j]? = s.buf[j]?)

/-- R112, R118 (order of the progress character: the spec's decision D12): a payload byte outside the current block, with the
commit answered Ok, pauses the sender, commits the buffer at the old block, reports it, loads the new block, resumes the sender,
and then writes the byte into the buffer just loaded (the address by D5, the line group by D14). That the executable list gains
the old block and loses none is log 16's reading. That `Load` is an operation that always answers is the spec's decision D16,
that every address is applied its D22. -/
def Obligations.CrossingSequence : Prop :=
  ∀ (hi lo v : Byte) (s : State), polls s.fsm = true → Inv s → nextAnswer s = .ok →
    let a : Addr := (hi ++ lo : BitVec 16)
    let new := blockBase s.params a
    new ≠ s.currentBlock →
    ∃ (m : Memory) (ex : List Addr),
      (∀ x : Addr, m.read x.toNat = logicalByte s x) ∧ Memory.wf m ∧
      (∀ b : Addr, b ∈ ex ↔ b = s.currentBlock ∨ b ∈ s.executable) ∧
      exec (.recData hi lo [v]) s = .next { freshLine s with
        fsm := .awaitingLine, nv := m, executable := ex, answers := s.answers.tail, answersTaken := s.answersTaken + 1,
        currentBlock := new,
        buf := (Memory.readBytes m new (blockSize s.params)).set (a.toNat % blockSize s.params) v,
        txQueue := s.txQueue ++ [s.params.xoffByte, s.params.progressChar, s.params.xonByte],
        trace := s.trace ++ [.send s.params.xoffByte, .commit s.currentBlock s.buf, .send s.params.progressChar,
          .load new, .send s.params.xonByte] }

/-- R114, R115, R141 inside a crossing, at any payload byte whose block is not the current one when its turn comes, the first
crossing of the record or a later one (the address by the spec's decision D5; D15; the line group: D14; free bytes: log 5; the
executable list: log 16; the state a hang is stuck in: log 22). `w` is what the record's bytes before it leave, their crossings
answered Ok: those bytes stay applied and those commits stay stored, the byte itself and the rest are not applied, and the XOFF
and the `Commit` of the crossing are the last actions. A fault ends in `WriteFaulted` with the sender paused, a hang is stuck.
That every address is applied is the spec's decision D22, and the wrap of the addresses log 12. -/
def Obligations.CommitFailsInACrossing : Prop :=
  ∀ (hi lo v : Byte) (pre post : List Byte) (s w : State), polls s.fsm = true → Inv s →
    (pre ++ v :: post).length ≤ 255 →
    exec (.recData hi lo pre) s = .next w → polls w.fsm = true →
    blockBase s.params ((hi ++ lo : BitVec 16) + BitVec.ofNat 16 pre.length) ≠ w.currentBlock →
    ∃ (m : Memory) (ex : List Addr) (n : Nat),
      (∀ a : Addr, blockBase s.params a ≠ w.currentBlock → m.read a.toNat = w.nv.read a.toNat) ∧ Memory.wf m ∧
      (∀ b : Addr, b ∈ ex ↔ b ≠ w.currentBlock ∧ b ∈ w.executable) ∧
      let cut : State := { w with
        fsm := s.fsm, nibPhase := s.nibPhase, hiNib := s.hiNib, offset := s.offset, sum := s.sum,
        recLength := s.recLength, recAddrHi := s.recAddrHi, recAddrLo := s.recAddrLo, recType := s.recType,
        recData := s.recData, nv := m, executable := ex, freeCount := n, answers := w.answers.tail,
        answersTaken := w.answersTaken + 1, senderPaused := true, txQueue := w.txQueue ++ [s.params.xoffByte],
        trace := w.trace ++ [.send s.params.xoffByte, .commit w.currentBlock w.buf] }
      (nextAnswer w = .writeFault →
        exec (.recData hi lo (pre ++ v :: post)) s = .next { cut with fsm := .writeFaulted }) ∧
      (nextAnswer w = .never → exec (.recData hi lo (pre ++ v :: post)) s = .fault (.stuck cut))

/-- The headline about data records (R110 to R113, R116, R119, R120, R140, R141; P4 and P5 of spec/95_test_vectors.md; the
address by D5, the line reset by D14): with its commits answered Ok, a data record completes, and what the stream has left at
each address, in the buffer or in memory, is the payload byte for it where it has one and what it was before everywhere else;
the address wraps at 16 bits. The buffer mirrors the block of the last payload byte, and memory changes only in the block left
and the blocks passed through. That `Load` is an operation that always answers is the spec's decision D16, that every address is
applied its D22, and the wrap of the addresses log 12. -/
def Obligations.DataRecordWritesExactlyItsPayload : Prop :=
  ∀ (hi lo : Byte) (data : List Byte) (s : State), polls s.fsm = true → Inv s → OkFor data.length s → data.length ≤ 255 →
    let addrs := payloadAddrs (hi ++ lo : BitVec 16) data.length
    ∃ t, exec (.recData hi lo data) s = .next t ∧
      (∀ (k : Nat) (h : k < data.length),
        logicalByte t ((hi ++ lo : BitVec 16) + BitVec.ofNat 16 k) = data[k]) ∧
      (∀ a : Addr, a ∉ addrs → logicalByte t a = logicalByte s a) ∧
      t.fsm = .awaitingLine ∧ t.currentBlock = lastBlock s.params s.currentBlock addrs ∧
      (∀ a : Addr, t.nv.read a.toNat ≠ s.nv.read a.toNat →
        blockBase s.params a = s.currentBlock ∨ ∃ x ∈ addrs, blockBase s.params x = blockBase s.params a) ∧
      commitCount (newActions s t) = blockChanges s.params s.currentBlock addrs ∧
      AtLineStart t ∧ t.params = s.params ∧ t.timerArmed = s.timerArmed ∧ t.senderPaused = false ∧
      t.inbox = s.inbox ∧ t.freeCount = s.freeCount ∧ t.interruptsEnabled = s.interruptsEnabled

/-- R25 (the buffer loaded at session entry: the spec's decision D4; the address of a record: D5; resets: D25, log 4): where the
buffer agreed with the block it mirrors except at the places of `dirty`, it agrees with the block it mirrors afterwards except
at those places, while the block is the same, and at the places of the payload applied since: after a data record with any
operands, and after every step that ends in a state that polls, whose record is the one in the record registers. After a step
that took an external reset it agrees everywhere. That `Load` is an operation that always answers is the spec's decision D16,
and the wrap of the addresses log 12. -/
def Obligations.BufferMirrorsItsBlock : Prop :=
  (∀ (hi lo : Byte) (data : List Byte) (s t : State) (dirty : List Addr), polls s.fsm = true → Inv s →
    MirrorsExcept dirty s → exec (.recData hi lo data) s = .next t → polls t.fsm = true →
    MirrorsExcept ((if t.currentBlock = s.currentBlock then dirty else []) ++
      payloadAddrs (hi ++ lo : BitVec 16) data.length) t) ∧
  (∀ (s t : State) (dirty : List Addr), Inv s → MirrorsExcept dirty s → step s = .next t → polls t.fsm = true →
    MirrorsExcept ((if t.currentBlock = s.currentBlock then dirty else []) ++ addressesDue s) t) ∧
  (∀ (s t : State), step s = .next t → polls t.fsm = true →
    polls s.fsm = false ∨ (∃ x rest, s.inbox = x :: rest ∧ ∀ e, x ≠ Input.event e) → MirrorsExcept [] t)

/-- The text of a record is the record (R63, R64, R75, R76, R134, R150): from a line start, the steps that take the 2 * (5 +
length) characters of a well-formed record come to `exec` of its row, on the state with those characters consumed, one
`ArmTimeout` for each, and only the line group and `fsm` otherwise touched. The size of a record is the spec's decision D6, the
codes of the characters are its general knowledge (log 11), the events to come are log 6's list, and the operands of the row are
log 10's. -/
def Obligations.RecordTextRunsAsItsRow : Prop :=
  ∀ (i : Instr) (s : State) (rest : List Input), WellFormed i = true → formatOf i = some .record →
    s.fsm = .awaitingLine → AtLineStart s → s.inbox = characters (textOf (encode s.params i)) ++ rest →
    ∃ (u : State) (n : Nat), n = 2 * (encode s.params i).length ∧
      Host.Core.run Sys2Proof.core n s = exec i u ∧
      u = { s with
        fsm := .accumulatingRecord, timerArmed := true, inbox := rest,
        trace := s.trace ++ List.replicate n .armTimeout,
        nibPhase := .high, hiNib := u.hiNib, offset := u.offset, sum := u.sum, recLength := u.recLength,
        recAddrHi := u.recAddrHi, recAddrLo := u.recAddrLo, recType := u.recType, recData := u.recData }

/-! ### Outputs -/

/-- R73: each OUT row is the `Send` of its parameter's byte or bytes in order, with the sender's flow-control state that R36
gives the two flow-control bytes (log 13); nothing else changes. That `Send` never fails is the spec's decision D27, and the
transmit queue is log 14's. -/
def Obligations.OutRowsSendTheirBytes : Prop :=
  ∀ s : State, polls s.fsm = true →
    let sent (bs : List Byte) : State := { s with trace := s.trace ++ bs.map Action.send, txQueue := s.txQueue ++ bs }
    exec .outBannerStart s = .next (sent s.params.bannerStart) ∧
    exec .outXon s = .next { sent [s.params.xonByte] with senderPaused := false } ∧
    exec .outXoff s = .next { sent [s.params.xoffByte] with senderPaused := true } ∧
    exec .outProgress s = .next (sent [s.params.progressChar]) ∧
    exec .outErr s = .next (sent [s.params.checksumErrChar]) ∧
    exec .outBannerHandoff s = .next (sent s.params.bannerHandoff)

/-! ### Memory -/

/-- R11, R110, R111: with `BLOCK_SIZE` a power of two, the masks are the multiple of `BLOCK_SIZE` at or below the address and
the remainder; `touch` reports a crossing exactly where that multiple is not `current_block`. -/
def Obligations.TouchComparesBlocks : Prop :=
  ∀ (s : State) (a : Addr),
    (blockBase s.params a).toNat = a.toNat / blockSize s.params * blockSize s.params ∧
    blockIndex s.params a = a.toNat % blockSize s.params ∧
    (blockBase s.params a = s.currentBlock → touch s a = .noTransition) ∧
    (blockBase s.params a ≠ s.currentBlock → touch s a = .crossing s.currentBlock (blockBase s.params a))

/-- R111: a payload byte inside the current block goes to its place in the buffer, every other place and everything else stay,
memory among it, and the last of two writes to one place wins. -/
def Obligations.BufWriteSetsOneByte : Prop :=
  ∀ (s : State) (a : Addr) (v : Byte), BufferSized s → blockBase s.params a = s.currentBlock →
    (∃ buf : List Byte, bufWrite a v s = { s with buf := buf } ∧ buf.length = s.buf.length ∧
      buf[a.toNat % blockSize s.params]? = some v ∧
      ∀ j, j ≠ a.toNat % blockSize s.params → buf[j]? = s.buf[j]?) ∧
    ∀ w : Byte, bufWrite a w (bufWrite a v s) = bufWrite a w s

/-- R113: a commit answered Ok leaves the buffer's byte `i` at `current_block + i`, every other byte as it was, and the block
executable; the committed block does not wrap, and a load of it reads the buffer back. -/
def Obligations.CommitStoresItsBlock : Prop :=
  ∀ s : State, BlockAligned s → BufferSized s → Memory.wf s.nv → nextAnswer s = .ok →
    s.currentBlock.toNat + blockSize s.params ≤ 65536 ∧
    ∃ t, commit s = .go t ∧
      (∀ (i : Nat) (h : i < s.buf.length), t.nv.read (s.currentBlock.toNat + i) = s.buf[i]) ∧
      (∀ x : Nat, x < s.currentBlock.toNat ∨ s.currentBlock.toNat + blockSize s.params ≤ x → x < 65536 →
        t.nv.read x = s.nv.read x) ∧
      s.currentBlock ∈ t.executable ∧ (load s.currentBlock t).buf = s.buf

/-- R50 and P3: after a commit the block's bytes are the buffer's and the block is executable; committing the same buffer at the
same block twice leaves the memory one commit leaves; committing a buffer that holds its block's contents leaves memory as it
was; a load changes no memory. -/
def Obligations.CommitIsIdempotent : Prop :=
  ∀ s : State, BufferSized s → Memory.wf s.nv → nextAnswer s = .ok →
    ∃ t, commit s = .go t ∧ Memory.block t.params t.nv t.currentBlock = s.buf ∧ t.currentBlock ∈ t.executable ∧
      (∀ as, ∃ u, commit { t with answers := .ok :: as } = .go u ∧ u.nv = t.nv) ∧
      (s.buf = Memory.block s.params s.nv s.currentBlock → t.nv = s.nv) ∧
      ∀ b : Addr, (load b t).nv = t.nv

/-- R41, R49, R53, R54 over every instruction (free bytes: log 5): a byte of memory changes only inside a block that this
instruction committed, and no action is ever taken back. -/
def Obligations.MemoryChangesOnlyInCommittedBlocks : Prop :=
  ∀ (i : Instr) (s t : State), Inv s → exec i s = .next t →
    s.trace <+: t.trace ∧
    ∀ a : Addr, t.nv.read a.toNat ≠ s.nv.read a.toNat →
      ∃ (b : Addr) (d : List Byte), Action.commit b d ∈ newActions s t ∧ blockBase s.params a = b

/-! ### The whole machine -/

/-- The invariant holds after reset. Block 0 is the spec's decision D3 and the zero line group its D14; that no byte of memory
is listed is log 2, that interrupts are off log 17, and that `State.reset` is the first state in which the block polls log 19.
-/
def Obligations.ResetMeetsTheInvariant : Prop := Inv State.reset

/-- R23: `current_block` is block-aligned after session entry, and every step keeps it so. -/
def Obligations.BlockStaysAligned : Prop :=
  (∀ s : State, BlockAligned (sessionEntry s)) ∧ BlockAligned State.reset ∧
  ∀ s t : State, BlockAligned s → step s = .next t → BlockAligned t

/-- Every step keeps the invariant (R23, R24, R29, R30, R101, R130; the sender running whenever the block polls: R112, R195).
Where `AwaitingLine` ends is the spec's decision D8 and the zero line group its D14; the resets a step can take are log 4, the
sender's state follows log 13, and the interrupt clause is log 17. -/
def Obligations.StepKeepsTheInvariant : Prop :=
  ∀ s t : State, Inv s → step s = .next t → Inv t

/-- R212 and R115: a step from a state that meets the invariant has a next state unless one of the next 256 commits, more than a
step can issue, hangs, and a step that has none is stuck in a commit with the `Commit` the last action emitted and no hand-off
made. That a commit may hang is the spec's decision D15, that `Send` and `Drain` always return its D27; the answers to come are
log 3, the state a hang is stuck in log 22, and the record's end, past which nothing is fed, log 9. -/
def Obligations.StepCompletesUnlessACommitHangs : Prop :=
  ∀ s : State, Inv s →
    ((∀ k, k < 256 → answerOf s k ≠ .never) → ∃ t, step s = .next t) ∧
    (∀ r, step s ≠ .refused r) ∧
    (∀ r, step s = .fault r → ∃ u, r = .stuck u ∧ polls u.fsm = true ∧
      ∃ acts, u.trace = s.trace ++ acts ++ [.commit u.currentBlock u.buf] ∧ ∀ e, Action.handoff e ∉ acts)

/-- R8, R146, R147, R179: a step hands over exactly when it ends in `Finished`, to the entry point, as its last action, right
after draining, and only with the last commit answered Ok and its progress character sent. The place of the progress character
is the spec's decision D12, and that `Drain` always returns its D27. -/
def Obligations.HandoffExactlyOnFinishing : Prop :=
  ∀ s t : State, polls s.fsm = true → step s = .next t →
    ((∃ e, Action.handoff e ∈ newActions s t) ↔ t.fsm = .finished) ∧
    (t.fsm = .finished → ∃ acts, newActions s t =
      acts ++ [.commit s.currentBlock s.buf, .send s.params.progressChar] ++ s.params.bannerHandoff.map Action.send ++
        [.drain, .handoff s.params.entryPoint] ∧ (∀ e, Action.handoff e ∉ acts) ∧ t.txQueue = [])

/-- R147, R57: in `Finished` every byte the stream left is in memory, whatever the last events were, and the last block is made
executable. The list of executable blocks is log 16's. -/
def Obligations.FinishedLeavesTheStreamInMemory : Prop :=
  ∀ s t : State, polls s.fsm = true → Inv s → step s = .next t → t.fsm = .finished →
    (∀ a : Addr, t.nv.read a.toNat = logicalByte s a) ∧ t.currentBlock ∈ t.executable

/-- R137, R148, R152(5), R160 (one error character: the spec's decision D12): a step ends in `Aborted` only by a hex character
that completes a record whose sum is not zero; it emits the re-arm and the one error character, and buffer, block and memory
stay as they were. That nothing more is sent is the spec's decision D23. -/
def Obligations.AbortedOnlyByABadSum : Prop :=
  ∀ s t : State, polls s.fsm = true → step s = .next t → t.fsm = .aborted →
    (∃ r ∈ hexRows, ∃ c rest, s.inbox = .event (.byteReceived c) :: rest ∧ decodeChar c = r.1) ∧
    s.nibPhase = .low ∧ s.offset.toNat = 4 + s.recLength.toNat ∧ t.sum ≠ 0 ∧
    newActions s t = [.armTimeout, .send s.params.checksumErrChar] ∧
    t.nv = s.nv ∧ t.buf = s.buf ∧ t.currentBlock = s.currentBlock

/-- R149, R165, R172 (the spec's decision D15): a step ends in `WriteFaulted` only by a commit answered `WriteFault`, its last
action, after commits answered Ok; and only then can it end with the sender paused. The sender's state follows log 13. -/
def Obligations.WriteFaultedOnlyByAnAnswer : Prop :=
  ∀ s t : State, polls s.fsm = true → Inv s → step s = .next t →
    (t.fsm = .writeFaulted → ∃ acts, newActions s t = acts ++ [.commit t.currentBlock t.buf] ∧
      OkFor (commitCount acts) s ∧ answerOf s (commitCount acts) = .writeFault) ∧
    (t.senderPaused = true → t.fsm = .writeFaulted)

/-- R177, R134, R135, R145 (the spec's decisions D9, D10): a step on an event arms the timeout once on a valid hex character and
once on a timeout in the middle of a record, and on nothing else. Which codes are hex characters is the spec's general knowledge
(log 11), and that lower case is not among them its decision D7. -/
def Obligations.TimeoutIsArmedOnHexCharacters : Prop :=
  ∀ (s t : State) (e : Event) (rest : List Input), polls s.fsm = true → Inv s → s.inbox = .event e :: rest →
    step s = .next t →
    (newActions s t).count .armTimeout =
      match e with
      | .byteReceived c => if isHexCode c then 1 else 0
      | .timedOut => if s.fsm = .accumulatingRecord then 1 else 0

/-- R118 (the spec's decision D12): where every commit of a step is answered Ok (256 are more than one issues), the action after
each `Commit` of a step on an event is the progress character. -/
def Obligations.EveryCommitIsReported : Prop :=
  ∀ (s t : State) (e : Event) (rest : List Input), polls s.fsm = true → Inv s → OkFor 256 s → s.inbox = .event e :: rest →
    step s = .next t →
    ∀ (k : Nat) (b : Addr) (d : List Byte), (newActions s t)[k]? = some (.commit b d) →
      (newActions s t)[k + 1]? = some (.send s.params.progressChar)

/-- R35, R168: no step, and no instruction, changes a parameter or enables interrupts; and an instruction consumes no event.
That the parameters are a field of the state is log 1, and the interrupt field log 17. -/
def Obligations.ParametersAreConstant : Prop :=
  (∀ s t : State, step s = .next t → t.params = s.params ∧ t.interruptsEnabled = s.interruptsEnabled) ∧
  (∀ (i : Instr) (s t : State), exec i s = .next t →
    t.params = s.params ∧ t.interruptsEnabled = s.interruptsEnabled ∧ t.inbox = s.inbox)

/-- R212, R207 (the spec's decision D9): if the sender falls silent, two timeouts end the session: from any state that polls,
with the one commit answered Ok, one or two steps that find a timeout reach `Finished`, and the partial record is not applied.
That `Drain` always returns is the spec's decision D27. -/
def Obligations.SilenceFinishesTheSession : Prop :=
  ∀ (s : State) (rest : List Input), polls s.fsm = true → Inv s → nextAnswer s = .ok →
    s.inbox = .event .timedOut :: .event .timedOut :: rest →
    ∃ (k : Nat) (t : State), 1 ≤ k ∧ k ≤ 2 ∧ Host.Core.run Sys2Proof.core k s = .next t ∧ t.fsm = .finished ∧
      ∀ a : Addr, t.nv.read a.toNat = logicalByte s a
end

