-- ==== Sys2Proof/Laws/Decode.lean ====
section
/-! SUPPORT. The laws of decoding and encoding: a nibble and its character, a byte and its two characters, the sum of joined
lists, a record's head. -/

namespace Sys2Proof

/-- The character of a nibble decodes to it. -/
theorem nib_hexCode : ∀ v : Nibble, nib (hexCode v) = .valid v := by decide

/-- A code that decodes to a nibble is that nibble's character. -/
theorem hexCode_of_nib (c : Byte) (v : Nibble) (h : nib c = .valid v) : hexCode v = c := by
  have key : ∀ c : Byte, ∀ v : Nibble, nib c = .valid v → hexCode v = c := by decide
  exact key c v h

theorem nib_invalid_iff : ∀ c : Byte, nib c = .invalid ↔ isHexCode c = false := by decide

theorem joinNibbles_halves : ∀ b : Byte, joinNibbles (b.extractLsb' 4 4) (b.extractLsb' 0 4) = b := by decide

/-- The sum of joined lists is the sum of their sums. -/
theorem byteSum_append (a b : List Byte) : byteSum (a ++ b) = byteSum a + byteSum b := by
  induction a with
  | nil => simp [byteSum]
  | cons x a ih => simp [byteSum, ih, BitVec.add_assoc]

/-- A head and a terminator decode to the record they are. -/
theorem decodeRecord_head (hi lo ty : Byte) (data rest : List Byte) (ck : Byte) (h : data.length ≤ 255) :
    decodeRecord (recordHead hi lo ty data ++ ck :: rest) = .ok (classifyRecord hi lo ty data ck, rest) := by
  have hl : (BitVec.ofNat 8 data.length).toNat = data.length := by simp; omega
  simp [recordHead, decodeRecord, hl]

/-- The rows of the 16 hex characters are the instructions of the 16 nibbles. -/
theorem hexRows_spec : ∀ r ∈ Machine.hexRows, r.1 = hexInstr r.2 := by decide

theorem mem_hexRows (v : Nibble) : (hexInstr v, v) ∈ Machine.hexRows := by
  revert v; decide

/-- The word of a hex row is its character. -/
theorem encode_hexRow (p : Params) : ∀ r ∈ Machine.hexRows, encode p r.1 = [hexCode r.2] := by
  simp only [Machine.hexRows, List.forall_mem_cons]
  exact ⟨rfl, rfl, rfl, rfl, rfl, rfl, rfl, rfl, rfl, rfl, rfl, rfl, rfl, rfl, rfl, rfl, by simp⟩

theorem encode_hexInstr (p : Params) (v : Nibble) : encode p (hexInstr v) = [hexCode v] :=
  encode_hexRow p _ (mem_hexRows v)

end Sys2Proof
end

