-- ==== Sys2Proof/Laws/Memory.lean ====
section
/-! SUPPORT. The laws of non-volatile memory: a read after a write, the canonical form every memory operation keeps, equal
reads make equal memories, and the same for runs of bytes at ascending 16-bit addresses. -/

namespace Sys2Proof.Machine

/-- The canonical form holds of empty memory. -/
theorem Memory.wf_nil : Memory.wf [] := by simp [Memory.wf]

theorem Memory.wf_cons {c : Host.Cell} {m : Memory} :
    Memory.wf (c :: m) ↔ (∀ d ∈ m, c.1 < d.1) ∧ (c.1 < 65536 ∧ c.2 ≠ Config.unlistedByte) ∧ Memory.wf m := by
  simp only [Memory.wf, List.pairwise_cons, List.forall_mem_cons]
  tauto

theorem Memory.mem_put {a : Nat} {v : Byte} {m : Memory} {c : Host.Cell} (h : c ∈ Memory.put a v m) :
    c = (a, v) ∨ c ∈ m := by
  unfold Memory.put at h
  split at h
  · exact .inr h
  · exact List.mem_cons.mp h

theorem Memory.mem_write {m : Memory} {a : Nat} {v : Byte} {c : Host.Cell} (h : c ∈ m.write a v) :
    c = (a, v) ∨ c ∈ m := by
  induction m with
  | nil => simpa using Memory.mem_put h
  | cons d m ih =>
    obtain ⟨a', v'⟩ := d
    unfold Memory.write at h
    split at h
    · exact Memory.mem_put h
    · split at h
      · exact (Memory.mem_put h).imp id (List.mem_cons_of_mem _)
      · rcases List.mem_cons.mp h with rfl | h
        · exact .inr List.mem_cons_self
        · exact (ih h).imp id (List.mem_cons_of_mem _)

theorem Memory.wf_put {a : Nat} {v : Byte} {m : Memory} (ha : a < 65536) (hm : Memory.wf m)
    (hlt : ∀ d ∈ m, a < d.1) : Memory.wf (Memory.put a v m) := by
  unfold Memory.put
  split
  · exact hm
  · exact Memory.wf_cons.mpr ⟨hlt, ⟨ha, by assumption⟩, hm⟩

/-- A write keeps the canonical form. -/
theorem Memory.wf_write {m : Memory} (hm : Memory.wf m) {a : Nat} (ha : a < 65536) (v : Byte) :
    Memory.wf (m.write a v) := by
  induction m with
  | nil => exact Memory.wf_put ha hm (by simp)
  | cons d m ih =>
    obtain ⟨a', v'⟩ := d
    obtain ⟨hlt, hd, hm'⟩ := Memory.wf_cons.mp hm
    unfold Memory.write
    split
    · rename_i hlt'
      refine Memory.wf_put ha hm fun c hc => ?_
      rcases List.mem_cons.mp hc with rfl | hc
      · exact hlt'
      · exact lt_trans hlt' (hlt c hc)
    · split
      · rename_i heq
        exact Memory.wf_put ha hm' fun c hc => heq ▸ hlt c hc
      · rename_i h1 h2
        refine Memory.wf_cons.mpr ⟨fun c hc => ?_, hd, ih hm'⟩
        rcases Memory.mem_write hc with rfl | hc
        · exact lt_of_le_of_ne (not_lt.mp h1) (Ne.symm h2)
        · exact hlt c hc

theorem Memory.read_of_lt {m : Memory} {a : Nat} (h : ∀ d ∈ m, a < d.1) : m.read a = Config.unlistedByte := by
  induction m with
  | nil => rfl
  | cons d m ih =>
    obtain ⟨a', v'⟩ := d
    have h' : a < a' := h _ List.mem_cons_self
    simp only [Memory.read, Nat.ne_of_gt h', if_false]
    exact ih fun c hc => h c (List.mem_cons_of_mem _ hc)

theorem Memory.read_put_self {a : Nat} {v : Byte} {m : Memory} (h : ∀ d ∈ m, a < d.1) :
    (Memory.put a v m).read a = v := by
  unfold Memory.put
  split
  · rename_i hv
    rw [Memory.read_of_lt h, hv]
  · simp [Memory.read]

theorem Memory.read_put_other {a b : Nat} {v : Byte} {m : Memory} (h : b ≠ a) :
    (Memory.put a v m).read b = m.read b := by
  unfold Memory.put
  split
  · rfl
  · simp [Memory.read, Ne.symm h]

/-- A read after a write to the same address gives the value written. -/
theorem Memory.read_write_self {m : Memory} (hm : Memory.wf m) (a : Nat) (v : Byte) : (m.write a v).read a = v := by
  induction m with
  | nil => exact Memory.read_put_self (by simp)
  | cons d m ih =>
    obtain ⟨a', v'⟩ := d
    obtain ⟨hlt, -, hm'⟩ := Memory.wf_cons.mp hm
    unfold Memory.write
    split
    · rename_i hlt'
      refine Memory.read_put_self fun c hc => ?_
      rcases List.mem_cons.mp hc with rfl | hc
      · exact hlt'
      · exact lt_trans hlt' (hlt c hc)
    · split
      · rename_i heq
        exact Memory.read_put_self fun c hc => heq ▸ hlt c hc
      · rename_i h
        simp [Memory.read, Ne.symm h, ih hm']

/-- A write leaves every other address as it was. -/
theorem Memory.read_write_other (m : Memory) {a b : Nat} (v : Byte) (h : b ≠ a) : (m.write a v).read b = m.read b := by
  induction m with
  | nil => exact Memory.read_put_other h
  | cons d m ih =>
    obtain ⟨a', v'⟩ := d
    unfold Memory.write
    split
    · exact Memory.read_put_other h
    · split
      · rename_i heq
        rw [Memory.read_put_other h]
        simp [Memory.read, ← heq, Ne.symm h]
      · simp only [Memory.read, ih]

/-- Canonical memories with the same reads are equal. -/
theorem Memory.eq_of_read {m n : Memory} (hm : Memory.wf m) (hn : Memory.wf n)
    (h : ∀ a, a < 65536 → m.read a = n.read a) : m = n := by
  have key : ∀ {a : Nat} {v : Byte} {p q : Memory}, Memory.wf ((a, v) :: p) → Memory.wf q → (∀ d ∈ q, a < d.1) →
      (∀ x, x < 65536 → Memory.read ((a, v) :: p) x = q.read x) → False := by
    intro a v p q hp _ hlt h
    obtain ⟨-, ⟨ha, hv⟩, -⟩ := Memory.wf_cons.mp hp
    have := h a ha
    rw [Memory.read_of_lt hlt] at this
    exact hv (by simpa [Memory.read] using this)
  induction m generalizing n with
  | nil =>
    cases n with
    | nil => rfl
    | cons d n => exact (key (a := d.1) (v := d.2) hn hm (by simp) fun a ha => (h a ha).symm).elim
  | cons c m ih =>
    cases n with
    | nil => exact (key (a := c.1) (v := c.2) hm hn (by simp) h).elim
    | cons d n =>
      obtain ⟨a, v⟩ := c
      obtain ⟨b, w⟩ := d
      obtain ⟨hlt, ⟨ha, -⟩, hm'⟩ := Memory.wf_cons.mp hm
      obtain ⟨hlt', ⟨hb, -⟩, hn'⟩ := Memory.wf_cons.mp hn
      rcases lt_trichotomy a b with hab | rfl | hab
      · refine (key hm hn (fun c hc => ?_) h).elim
        rcases List.mem_cons.mp hc with rfl | hc
        · exact hab
        · exact lt_trans hab (hlt' c hc)
      · have hv : v = w := by simpa [Memory.read] using h a ha
        subst hv
        congr 1
        refine ih hm' hn' fun x hx => ?_
        rcases eq_or_ne x a with rfl | hxa
        · rw [Memory.read_of_lt hlt, Memory.read_of_lt hlt']
        · simpa [Memory.read, Ne.symm hxa] using h x hx
      · refine (key hn hm (fun c hc => ?_) fun a ha => (h a ha).symm).elim
        rcases List.mem_cons.mp hc with rfl | hc
        · exact hab
        · exact lt_trans hab (hlt c hc)

/-! ### Runs of bytes -/

/-- The next address, then `k` more. -/
theorem addr_succ (a : Addr) (k : Nat) : a + BitVec.ofNat 16 (k + 1) = (a + 1) + BitVec.ofNat 16 k := by
  rw [Nat.add_comm k 1, BitVec.ofNat_add, ← BitVec.add_assoc]
  rfl

/-- No address within 65535 bytes after `a` is `a`. -/
theorem ne_addr_add (a : Addr) {k : Nat} (hk : k + 1 < 65536) : a ≠ (a + 1) + BitVec.ofNat 16 k := by
  intro e
  rw [← addr_succ] at e
  have := congrArg BitVec.toNat e
  simp only [BitVec.toNat_add, BitVec.toNat_ofNat] at this
  have := a.isLt
  omega

/-- A block write keeps the canonical form. -/
theorem Memory.wf_writeBytes {m : Memory} (hm : Memory.wf m) (a : Addr) (bs : List Byte) :
    Memory.wf (m.writeBytes a bs) := by
  induction bs generalizing m a with
  | nil => exact hm
  | cons b bs ih => exact ih (Memory.wf_write hm a.isLt b) _

/-- A block write leaves every address outside it as it was. -/
theorem Memory.read_writeBytes_other (m : Memory) (a : Addr) (bs : List Byte) {x : Addr}
    (h : ∀ k, k < bs.length → x ≠ a + BitVec.ofNat 16 k) : (m.writeBytes a bs).read x.toNat = m.read x.toNat := by
  induction bs generalizing m a with
  | nil => rfl
  | cons b bs ih =>
    have h0 : x ≠ a := by simpa using h 0 (by simp)
    rw [Memory.writeBytes, ih _ _ fun k hk => ?_, Memory.read_write_other]
    · exact fun e => h0 (BitVec.eq_of_toNat_eq e)
    · have := h (k + 1) (by simpa using hk)
      rwa [addr_succ] at this

/-- A block write reads back: byte `k` at the base plus `k`. -/
theorem Memory.read_writeBytes_self {m : Memory} (hm : Memory.wf m) (a : Addr) (bs : List Byte)
    (hlen : bs.length ≤ 65536) {k : Nat} (hk : k < bs.length) :
    (m.writeBytes a bs).read (a + BitVec.ofNat 16 k).toNat = bs[k] := by
  induction bs generalizing m a k with
  | nil => simp at hk
  | cons b bs ih =>
    have hwf := Memory.wf_write hm a.isLt b
    cases k with
    | zero =>
      have h0 : a + BitVec.ofNat 16 0 = a := by simp
      rw [h0, Memory.writeBytes, Memory.read_writeBytes_other, Memory.read_write_self hm]
      · rfl
      · intro j hj
        exact ne_addr_add a (by simp at hlen; omega)
    | succ k =>
      have hk' : k < bs.length := by simpa using hk
      rw [addr_succ, Memory.writeBytes, ih hwf _ (by simp at hlen; omega) hk']
      rfl

@[simp] theorem Memory.length_readBytes (m : Memory) (a : Addr) (n : Nat) : (m.readBytes a n).length = n := by
  induction n generalizing a with
  | zero => rfl
  | succ n ih => simp [Memory.readBytes, ih]

theorem Memory.getElem_readBytes (m : Memory) (a : Addr) (n k : Nat) (h : k < (m.readBytes a n).length) :
    (m.readBytes a n)[k] = m.read (a + BitVec.ofNat 16 k).toNat := by
  induction n generalizing a k with
  | zero => simp [Memory.readBytes] at h
  | succ n ih =>
    cases k with
    | zero => simp [Memory.readBytes]
    | succ k =>
      simp only [Memory.readBytes, List.getElem_cons_succ]
      rw [ih, addr_succ]

@[simp] theorem Memory.length_block (p : Params) (m : Memory) (b : Addr) : (Memory.block p m b).length = blockSize p :=
  Memory.length_readBytes ..

@[simp] theorem length_freeBytes (start n : Nat) : (freeBytes start n).length = n := by simp [freeBytes]

theorem blockSize_le (p : Params) : blockSize p ≤ 65536 :=
  (Nat.pow_le_pow_right (by decide) (Nat.le_of_lt_succ p.blockBits.isLt)).trans (by decide)

theorem blockSize_pos (p : Params) : 0 < blockSize p := Nat.two_pow_pos _

/-- What a block write leaves in its block is what was written. -/
theorem Memory.block_writeBytes {m : Memory} (hm : Memory.wf m) (p : Params) (b : Addr) (bs : List Byte)
    (h : bs.length = blockSize p) : Memory.block p (m.writeBytes b bs) b = bs := by
  refine List.ext_getElem (by simp [h]) fun k h1 h2 => ?_
  rw [← Memory.read_writeBytes_self hm b bs (h ▸ blockSize_le p) h2]
  exact Memory.getElem_readBytes _ _ _ _ _

/-- Writing a block's own contents back changes nothing. -/
theorem Memory.writeBytes_block {m : Memory} (hm : Memory.wf m) (p : Params) (b : Addr) :
    m.writeBytes b (Memory.block p m b) = m := by
  refine Memory.eq_of_read (Memory.wf_writeBytes hm _ _) hm fun x hx => ?_
  obtain ⟨y, rfl⟩ : ∃ y : Addr, x = y.toNat := ⟨BitVec.ofNat 16 x, by simp; omega⟩
  by_cases h : ∃ k, k < (Memory.block p m b).length ∧ y = b + BitVec.ofNat 16 k
  · obtain ⟨k, hk, rfl⟩ := h
    rw [Memory.read_writeBytes_self hm b _ (by simpa using blockSize_le p) hk]
    exact Memory.getElem_readBytes _ _ _ _ hk
  · exact Memory.read_writeBytes_other _ _ _ fun k hk e => h ⟨k, hk, e⟩

end Sys2Proof.Machine
end

