-- ==== Sys2Proof/Laws/State.lean ====
section
/-! SUPPORT. One lemma per field per update: what each named operation leaves in each field of State, true by rfl, so that no
proof unfolds a record update. `sessionEntry` and `feedAt` have theirs at the end. -/

namespace Sys2Proof.Machine

variable (s : State)

@[simp] theorem emit_params (a : Action) : (emit a s).params = s.params := rfl
@[simp] theorem emit_fsm (a : Action) : (emit a s).fsm = s.fsm := rfl
@[simp] theorem emit_currentBlock (a : Action) : (emit a s).currentBlock = s.currentBlock := rfl
@[simp] theorem emit_buf (a : Action) : (emit a s).buf = s.buf := rfl
@[simp] theorem emit_nibPhase (a : Action) : (emit a s).nibPhase = s.nibPhase := rfl
@[simp] theorem emit_hiNib (a : Action) : (emit a s).hiNib = s.hiNib := rfl
@[simp] theorem emit_offset (a : Action) : (emit a s).offset = s.offset := rfl
@[simp] theorem emit_sum (a : Action) : (emit a s).sum = s.sum := rfl
@[simp] theorem emit_recLength (a : Action) : (emit a s).recLength = s.recLength := rfl
@[simp] theorem emit_recAddrHi (a : Action) : (emit a s).recAddrHi = s.recAddrHi := rfl
@[simp] theorem emit_recAddrLo (a : Action) : (emit a s).recAddrLo = s.recAddrLo := rfl
@[simp] theorem emit_recType (a : Action) : (emit a s).recType = s.recType := rfl
@[simp] theorem emit_recData (a : Action) : (emit a s).recData = s.recData := rfl
@[simp] theorem emit_nv (a : Action) : (emit a s).nv = s.nv := rfl
@[simp] theorem emit_executable (a : Action) : (emit a s).executable = s.executable := rfl
@[simp] theorem emit_timerArmed (a : Action) : (emit a s).timerArmed = s.timerArmed := rfl
@[simp] theorem emit_senderPaused (a : Action) : (emit a s).senderPaused = s.senderPaused := rfl
@[simp] theorem emit_txQueue (a : Action) : (emit a s).txQueue = s.txQueue := rfl
@[simp] theorem emit_interruptsEnabled (a : Action) : (emit a s).interruptsEnabled = s.interruptsEnabled := rfl
@[simp] theorem emit_inbox (a : Action) : (emit a s).inbox = s.inbox := rfl
@[simp] theorem emit_answers (a : Action) : (emit a s).answers = s.answers := rfl
@[simp] theorem emit_answersTaken (a : Action) : (emit a s).answersTaken = s.answersTaken := rfl
@[simp] theorem emit_freeCount (a : Action) : (emit a s).freeCount = s.freeCount := rfl
@[simp] theorem emit_trace (a : Action) : (emit a s).trace = s.trace ++ [a] := rfl

@[simp] theorem send_params (b : Byte) : (send b s).params = s.params := rfl
@[simp] theorem send_fsm (b : Byte) : (send b s).fsm = s.fsm := rfl
@[simp] theorem send_currentBlock (b : Byte) : (send b s).currentBlock = s.currentBlock := rfl
@[simp] theorem send_buf (b : Byte) : (send b s).buf = s.buf := rfl
@[simp] theorem send_nibPhase (b : Byte) : (send b s).nibPhase = s.nibPhase := rfl
@[simp] theorem send_hiNib (b : Byte) : (send b s).hiNib = s.hiNib := rfl
@[simp] theorem send_offset (b : Byte) : (send b s).offset = s.offset := rfl
@[simp] theorem send_sum (b : Byte) : (send b s).sum = s.sum := rfl
@[simp] theorem send_recLength (b : Byte) : (send b s).recLength = s.recLength := rfl
@[simp] theorem send_recAddrHi (b : Byte) : (send b s).recAddrHi = s.recAddrHi := rfl
@[simp] theorem send_recAddrLo (b : Byte) : (send b s).recAddrLo = s.recAddrLo := rfl
@[simp] theorem send_recType (b : Byte) : (send b s).recType = s.recType := rfl
@[simp] theorem send_recData (b : Byte) : (send b s).recData = s.recData := rfl
@[simp] theorem send_nv (b : Byte) : (send b s).nv = s.nv := rfl
@[simp] theorem send_executable (b : Byte) : (send b s).executable = s.executable := rfl
@[simp] theorem send_timerArmed (b : Byte) : (send b s).timerArmed = s.timerArmed := rfl
@[simp] theorem send_senderPaused (b : Byte) : (send b s).senderPaused = s.senderPaused := rfl
@[simp] theorem send_txQueue (b : Byte) : (send b s).txQueue = s.txQueue ++ [b] := rfl
@[simp] theorem send_interruptsEnabled (b : Byte) : (send b s).interruptsEnabled = s.interruptsEnabled := rfl
@[simp] theorem send_inbox (b : Byte) : (send b s).inbox = s.inbox := rfl
@[simp] theorem send_answers (b : Byte) : (send b s).answers = s.answers := rfl
@[simp] theorem send_answersTaken (b : Byte) : (send b s).answersTaken = s.answersTaken := rfl
@[simp] theorem send_freeCount (b : Byte) : (send b s).freeCount = s.freeCount := rfl
@[simp] theorem send_trace (b : Byte) : (send b s).trace = s.trace ++ [.send b] := rfl

@[simp] theorem sendAll_params (bs : List Byte) : (sendAll bs s).params = s.params := rfl
@[simp] theorem sendAll_fsm (bs : List Byte) : (sendAll bs s).fsm = s.fsm := rfl
@[simp] theorem sendAll_currentBlock (bs : List Byte) : (sendAll bs s).currentBlock = s.currentBlock := rfl
@[simp] theorem sendAll_buf (bs : List Byte) : (sendAll bs s).buf = s.buf := rfl
@[simp] theorem sendAll_nibPhase (bs : List Byte) : (sendAll bs s).nibPhase = s.nibPhase := rfl
@[simp] theorem sendAll_hiNib (bs : List Byte) : (sendAll bs s).hiNib = s.hiNib := rfl
@[simp] theorem sendAll_offset (bs : List Byte) : (sendAll bs s).offset = s.offset := rfl
@[simp] theorem sendAll_sum (bs : List Byte) : (sendAll bs s).sum = s.sum := rfl
@[simp] theorem sendAll_recLength (bs : List Byte) : (sendAll bs s).recLength = s.recLength := rfl
@[simp] theorem sendAll_recAddrHi (bs : List Byte) : (sendAll bs s).recAddrHi = s.recAddrHi := rfl
@[simp] theorem sendAll_recAddrLo (bs : List Byte) : (sendAll bs s).recAddrLo = s.recAddrLo := rfl
@[simp] theorem sendAll_recType (bs : List Byte) : (sendAll bs s).recType = s.recType := rfl
@[simp] theorem sendAll_recData (bs : List Byte) : (sendAll bs s).recData = s.recData := rfl
@[simp] theorem sendAll_nv (bs : List Byte) : (sendAll bs s).nv = s.nv := rfl
@[simp] theorem sendAll_executable (bs : List Byte) : (sendAll bs s).executable = s.executable := rfl
@[simp] theorem sendAll_timerArmed (bs : List Byte) : (sendAll bs s).timerArmed = s.timerArmed := rfl
@[simp] theorem sendAll_senderPaused (bs : List Byte) : (sendAll bs s).senderPaused = s.senderPaused := rfl
@[simp] theorem sendAll_txQueue (bs : List Byte) : (sendAll bs s).txQueue = s.txQueue ++ bs := rfl
@[simp] theorem sendAll_interruptsEnabled (bs : List Byte) : (sendAll bs s).interruptsEnabled = s.interruptsEnabled := rfl
@[simp] theorem sendAll_inbox (bs : List Byte) : (sendAll bs s).inbox = s.inbox := rfl
@[simp] theorem sendAll_answers (bs : List Byte) : (sendAll bs s).answers = s.answers := rfl
@[simp] theorem sendAll_answersTaken (bs : List Byte) : (sendAll bs s).answersTaken = s.answersTaken := rfl
@[simp] theorem sendAll_freeCount (bs : List Byte) : (sendAll bs s).freeCount = s.freeCount := rfl
@[simp] theorem sendAll_trace (bs : List Byte) : (sendAll bs s).trace = s.trace ++ bs.map .send := rfl

@[simp] theorem armTimeout_params : (armTimeout s).params = s.params := rfl
@[simp] theorem armTimeout_fsm : (armTimeout s).fsm = s.fsm := rfl
@[simp] theorem armTimeout_currentBlock : (armTimeout s).currentBlock = s.currentBlock := rfl
@[simp] theorem armTimeout_buf : (armTimeout s).buf = s.buf := rfl
@[simp] theorem armTimeout_nibPhase : (armTimeout s).nibPhase = s.nibPhase := rfl
@[simp] theorem armTimeout_hiNib : (armTimeout s).hiNib = s.hiNib := rfl
@[simp] theorem armTimeout_offset : (armTimeout s).offset = s.offset := rfl
@[simp] theorem armTimeout_sum : (armTimeout s).sum = s.sum := rfl
@[simp] theorem armTimeout_recLength : (armTimeout s).recLength = s.recLength := rfl
@[simp] theorem armTimeout_recAddrHi : (armTimeout s).recAddrHi = s.recAddrHi := rfl
@[simp] theorem armTimeout_recAddrLo : (armTimeout s).recAddrLo = s.recAddrLo := rfl
@[simp] theorem armTimeout_recType : (armTimeout s).recType = s.recType := rfl
@[simp] theorem armTimeout_recData : (armTimeout s).recData = s.recData := rfl
@[simp] theorem armTimeout_nv : (armTimeout s).nv = s.nv := rfl
@[simp] theorem armTimeout_executable : (armTimeout s).executable = s.executable := rfl
@[simp] theorem armTimeout_timerArmed : (armTimeout s).timerArmed = true := rfl
@[simp] theorem armTimeout_senderPaused : (armTimeout s).senderPaused = s.senderPaused := rfl
@[simp] theorem armTimeout_txQueue : (armTimeout s).txQueue = s.txQueue := rfl
@[simp] theorem armTimeout_interruptsEnabled : (armTimeout s).interruptsEnabled = s.interruptsEnabled := rfl
@[simp] theorem armTimeout_inbox : (armTimeout s).inbox = s.inbox := rfl
@[simp] theorem armTimeout_answers : (armTimeout s).answers = s.answers := rfl
@[simp] theorem armTimeout_answersTaken : (armTimeout s).answersTaken = s.answersTaken := rfl
@[simp] theorem armTimeout_freeCount : (armTimeout s).freeCount = s.freeCount := rfl
@[simp] theorem armTimeout_trace : (armTimeout s).trace = s.trace ++ [.armTimeout] := rfl

@[simp] theorem sendXon_params : (sendXon s).params = s.params := rfl
@[simp] theorem sendXon_fsm : (sendXon s).fsm = s.fsm := rfl
@[simp] theorem sendXon_currentBlock : (sendXon s).currentBlock = s.currentBlock := rfl
@[simp] theorem sendXon_buf : (sendXon s).buf = s.buf := rfl
@[simp] theorem sendXon_nibPhase : (sendXon s).nibPhase = s.nibPhase := rfl
@[simp] theorem sendXon_hiNib : (sendXon s).hiNib = s.hiNib := rfl
@[simp] theorem sendXon_offset : (sendXon s).offset = s.offset := rfl
@[simp] theorem sendXon_sum : (sendXon s).sum = s.sum := rfl
@[simp] theorem sendXon_recLength : (sendXon s).recLength = s.recLength := rfl
@[simp] theorem sendXon_recAddrHi : (sendXon s).recAddrHi = s.recAddrHi := rfl
@[simp] theorem sendXon_recAddrLo : (sendXon s).recAddrLo = s.recAddrLo := rfl
@[simp] theorem sendXon_recType : (sendXon s).recType = s.recType := rfl
@[simp] theorem sendXon_recData : (sendXon s).recData = s.recData := rfl
@[simp] theorem sendXon_nv : (sendXon s).nv = s.nv := rfl
@[simp] theorem sendXon_executable : (sendXon s).executable = s.executable := rfl
@[simp] theorem sendXon_timerArmed : (sendXon s).timerArmed = s.timerArmed := rfl
@[simp] theorem sendXon_senderPaused : (sendXon s).senderPaused = false := rfl
@[simp] theorem sendXon_txQueue : (sendXon s).txQueue = s.txQueue ++ [s.params.xonByte] := rfl
@[simp] theorem sendXon_interruptsEnabled : (sendXon s).interruptsEnabled = s.interruptsEnabled := rfl
@[simp] theorem sendXon_inbox : (sendXon s).inbox = s.inbox := rfl
@[simp] theorem sendXon_answers : (sendXon s).answers = s.answers := rfl
@[simp] theorem sendXon_answersTaken : (sendXon s).answersTaken = s.answersTaken := rfl
@[simp] theorem sendXon_freeCount : (sendXon s).freeCount = s.freeCount := rfl
@[simp] theorem sendXon_trace : (sendXon s).trace = s.trace ++ [.send s.params.xonByte] := rfl

@[simp] theorem sendXoff_params : (sendXoff s).params = s.params := rfl
@[simp] theorem sendXoff_fsm : (sendXoff s).fsm = s.fsm := rfl
@[simp] theorem sendXoff_currentBlock : (sendXoff s).currentBlock = s.currentBlock := rfl
@[simp] theorem sendXoff_buf : (sendXoff s).buf = s.buf := rfl
@[simp] theorem sendXoff_nibPhase : (sendXoff s).nibPhase = s.nibPhase := rfl
@[simp] theorem sendXoff_hiNib : (sendXoff s).hiNib = s.hiNib := rfl
@[simp] theorem sendXoff_offset : (sendXoff s).offset = s.offset := rfl
@[simp] theorem sendXoff_sum : (sendXoff s).sum = s.sum := rfl
@[simp] theorem sendXoff_recLength : (sendXoff s).recLength = s.recLength := rfl
@[simp] theorem sendXoff_recAddrHi : (sendXoff s).recAddrHi = s.recAddrHi := rfl
@[simp] theorem sendXoff_recAddrLo : (sendXoff s).recAddrLo = s.recAddrLo := rfl
@[simp] theorem sendXoff_recType : (sendXoff s).recType = s.recType := rfl
@[simp] theorem sendXoff_recData : (sendXoff s).recData = s.recData := rfl
@[simp] theorem sendXoff_nv : (sendXoff s).nv = s.nv := rfl
@[simp] theorem sendXoff_executable : (sendXoff s).executable = s.executable := rfl
@[simp] theorem sendXoff_timerArmed : (sendXoff s).timerArmed = s.timerArmed := rfl
@[simp] theorem sendXoff_senderPaused : (sendXoff s).senderPaused = true := rfl
@[simp] theorem sendXoff_txQueue : (sendXoff s).txQueue = s.txQueue ++ [s.params.xoffByte] := rfl
@[simp] theorem sendXoff_interruptsEnabled : (sendXoff s).interruptsEnabled = s.interruptsEnabled := rfl
@[simp] theorem sendXoff_inbox : (sendXoff s).inbox = s.inbox := rfl
@[simp] theorem sendXoff_answers : (sendXoff s).answers = s.answers := rfl
@[simp] theorem sendXoff_answersTaken : (sendXoff s).answersTaken = s.answersTaken := rfl
@[simp] theorem sendXoff_freeCount : (sendXoff s).freeCount = s.freeCount := rfl
@[simp] theorem sendXoff_trace : (sendXoff s).trace = s.trace ++ [.send s.params.xoffByte] := rfl

@[simp] theorem sendProgress_params : (sendProgress s).params = s.params := rfl
@[simp] theorem sendProgress_fsm : (sendProgress s).fsm = s.fsm := rfl
@[simp] theorem sendProgress_currentBlock : (sendProgress s).currentBlock = s.currentBlock := rfl
@[simp] theorem sendProgress_buf : (sendProgress s).buf = s.buf := rfl
@[simp] theorem sendProgress_nibPhase : (sendProgress s).nibPhase = s.nibPhase := rfl
@[simp] theorem sendProgress_hiNib : (sendProgress s).hiNib = s.hiNib := rfl
@[simp] theorem sendProgress_offset : (sendProgress s).offset = s.offset := rfl
@[simp] theorem sendProgress_sum : (sendProgress s).sum = s.sum := rfl
@[simp] theorem sendProgress_recLength : (sendProgress s).recLength = s.recLength := rfl
@[simp] theorem sendProgress_recAddrHi : (sendProgress s).recAddrHi = s.recAddrHi := rfl
@[simp] theorem sendProgress_recAddrLo : (sendProgress s).recAddrLo = s.recAddrLo := rfl
@[simp] theorem sendProgress_recType : (sendProgress s).recType = s.recType := rfl
@[simp] theorem sendProgress_recData : (sendProgress s).recData = s.recData := rfl
@[simp] theorem sendProgress_nv : (sendProgress s).nv = s.nv := rfl
@[simp] theorem sendProgress_executable : (sendProgress s).executable = s.executable := rfl
@[simp] theorem sendProgress_timerArmed : (sendProgress s).timerArmed = s.timerArmed := rfl
@[simp] theorem sendProgress_senderPaused : (sendProgress s).senderPaused = s.senderPaused := rfl
@[simp] theorem sendProgress_txQueue : (sendProgress s).txQueue = s.txQueue ++ [s.params.progressChar] := rfl
@[simp] theorem sendProgress_interruptsEnabled : (sendProgress s).interruptsEnabled = s.interruptsEnabled := rfl
@[simp] theorem sendProgress_inbox : (sendProgress s).inbox = s.inbox := rfl
@[simp] theorem sendProgress_answers : (sendProgress s).answers = s.answers := rfl
@[simp] theorem sendProgress_answersTaken : (sendProgress s).answersTaken = s.answersTaken := rfl
@[simp] theorem sendProgress_freeCount : (sendProgress s).freeCount = s.freeCount := rfl
@[simp] theorem sendProgress_trace : (sendProgress s).trace = s.trace ++ [.send s.params.progressChar] := rfl

@[simp] theorem sendErr_params : (sendErr s).params = s.params := rfl
@[simp] theorem sendErr_fsm : (sendErr s).fsm = s.fsm := rfl
@[simp] theorem sendErr_currentBlock : (sendErr s).currentBlock = s.currentBlock := rfl
@[simp] theorem sendErr_buf : (sendErr s).buf = s.buf := rfl
@[simp] theorem sendErr_nibPhase : (sendErr s).nibPhase = s.nibPhase := rfl
@[simp] theorem sendErr_hiNib : (sendErr s).hiNib = s.hiNib := rfl
@[simp] theorem sendErr_offset : (sendErr s).offset = s.offset := rfl
@[simp] theorem sendErr_sum : (sendErr s).sum = s.sum := rfl
@[simp] theorem sendErr_recLength : (sendErr s).recLength = s.recLength := rfl
@[simp] theorem sendErr_recAddrHi : (sendErr s).recAddrHi = s.recAddrHi := rfl
@[simp] theorem sendErr_recAddrLo : (sendErr s).recAddrLo = s.recAddrLo := rfl
@[simp] theorem sendErr_recType : (sendErr s).recType = s.recType := rfl
@[simp] theorem sendErr_recData : (sendErr s).recData = s.recData := rfl
@[simp] theorem sendErr_nv : (sendErr s).nv = s.nv := rfl
@[simp] theorem sendErr_executable : (sendErr s).executable = s.executable := rfl
@[simp] theorem sendErr_timerArmed : (sendErr s).timerArmed = s.timerArmed := rfl
@[simp] theorem sendErr_senderPaused : (sendErr s).senderPaused = s.senderPaused := rfl
@[simp] theorem sendErr_txQueue : (sendErr s).txQueue = s.txQueue ++ [s.params.checksumErrChar] := rfl
@[simp] theorem sendErr_interruptsEnabled : (sendErr s).interruptsEnabled = s.interruptsEnabled := rfl
@[simp] theorem sendErr_inbox : (sendErr s).inbox = s.inbox := rfl
@[simp] theorem sendErr_answers : (sendErr s).answers = s.answers := rfl
@[simp] theorem sendErr_answersTaken : (sendErr s).answersTaken = s.answersTaken := rfl
@[simp] theorem sendErr_freeCount : (sendErr s).freeCount = s.freeCount := rfl
@[simp] theorem sendErr_trace : (sendErr s).trace = s.trace ++ [.send s.params.checksumErrChar] := rfl

@[simp] theorem sendBannerStart_params : (sendBannerStart s).params = s.params := rfl
@[simp] theorem sendBannerStart_fsm : (sendBannerStart s).fsm = s.fsm := rfl
@[simp] theorem sendBannerStart_currentBlock : (sendBannerStart s).currentBlock = s.currentBlock := rfl
@[simp] theorem sendBannerStart_buf : (sendBannerStart s).buf = s.buf := rfl
@[simp] theorem sendBannerStart_nibPhase : (sendBannerStart s).nibPhase = s.nibPhase := rfl
@[simp] theorem sendBannerStart_hiNib : (sendBannerStart s).hiNib = s.hiNib := rfl
@[simp] theorem sendBannerStart_offset : (sendBannerStart s).offset = s.offset := rfl
@[simp] theorem sendBannerStart_sum : (sendBannerStart s).sum = s.sum := rfl
@[simp] theorem sendBannerStart_recLength : (sendBannerStart s).recLength = s.recLength := rfl
@[simp] theorem sendBannerStart_recAddrHi : (sendBannerStart s).recAddrHi = s.recAddrHi := rfl
@[simp] theorem sendBannerStart_recAddrLo : (sendBannerStart s).recAddrLo = s.recAddrLo := rfl
@[simp] theorem sendBannerStart_recType : (sendBannerStart s).recType = s.recType := rfl
@[simp] theorem sendBannerStart_recData : (sendBannerStart s).recData = s.recData := rfl
@[simp] theorem sendBannerStart_nv : (sendBannerStart s).nv = s.nv := rfl
@[simp] theorem sendBannerStart_executable : (sendBannerStart s).executable = s.executable := rfl
@[simp] theorem sendBannerStart_timerArmed : (sendBannerStart s).timerArmed = s.timerArmed := rfl
@[simp] theorem sendBannerStart_senderPaused : (sendBannerStart s).senderPaused = s.senderPaused := rfl
@[simp] theorem sendBannerStart_txQueue : (sendBannerStart s).txQueue = s.txQueue ++ s.params.bannerStart := rfl
@[simp] theorem sendBannerStart_interruptsEnabled : (sendBannerStart s).interruptsEnabled = s.interruptsEnabled := rfl
@[simp] theorem sendBannerStart_inbox : (sendBannerStart s).inbox = s.inbox := rfl
@[simp] theorem sendBannerStart_answers : (sendBannerStart s).answers = s.answers := rfl
@[simp] theorem sendBannerStart_answersTaken : (sendBannerStart s).answersTaken = s.answersTaken := rfl
@[simp] theorem sendBannerStart_freeCount : (sendBannerStart s).freeCount = s.freeCount := rfl
@[simp] theorem sendBannerStart_trace : (sendBannerStart s).trace = s.trace ++ s.params.bannerStart.map .send := rfl

@[simp] theorem sendBannerHandoff_params : (sendBannerHandoff s).params = s.params := rfl
@[simp] theorem sendBannerHandoff_fsm : (sendBannerHandoff s).fsm = s.fsm := rfl
@[simp] theorem sendBannerHandoff_currentBlock : (sendBannerHandoff s).currentBlock = s.currentBlock := rfl
@[simp] theorem sendBannerHandoff_buf : (sendBannerHandoff s).buf = s.buf := rfl
@[simp] theorem sendBannerHandoff_nibPhase : (sendBannerHandoff s).nibPhase = s.nibPhase := rfl
@[simp] theorem sendBannerHandoff_hiNib : (sendBannerHandoff s).hiNib = s.hiNib := rfl
@[simp] theorem sendBannerHandoff_offset : (sendBannerHandoff s).offset = s.offset := rfl
@[simp] theorem sendBannerHandoff_sum : (sendBannerHandoff s).sum = s.sum := rfl
@[simp] theorem sendBannerHandoff_recLength : (sendBannerHandoff s).recLength = s.recLength := rfl
@[simp] theorem sendBannerHandoff_recAddrHi : (sendBannerHandoff s).recAddrHi = s.recAddrHi := rfl
@[simp] theorem sendBannerHandoff_recAddrLo : (sendBannerHandoff s).recAddrLo = s.recAddrLo := rfl
@[simp] theorem sendBannerHandoff_recType : (sendBannerHandoff s).recType = s.recType := rfl
@[simp] theorem sendBannerHandoff_recData : (sendBannerHandoff s).recData = s.recData := rfl
@[simp] theorem sendBannerHandoff_nv : (sendBannerHandoff s).nv = s.nv := rfl
@[simp] theorem sendBannerHandoff_executable : (sendBannerHandoff s).executable = s.executable := rfl
@[simp] theorem sendBannerHandoff_timerArmed : (sendBannerHandoff s).timerArmed = s.timerArmed := rfl
@[simp] theorem sendBannerHandoff_senderPaused : (sendBannerHandoff s).senderPaused = s.senderPaused := rfl
@[simp] theorem sendBannerHandoff_txQueue : (sendBannerHandoff s).txQueue = s.txQueue ++ s.params.bannerHandoff := rfl
@[simp] theorem sendBannerHandoff_interruptsEnabled : (sendBannerHandoff s).interruptsEnabled = s.interruptsEnabled := rfl
@[simp] theorem sendBannerHandoff_inbox : (sendBannerHandoff s).inbox = s.inbox := rfl
@[simp] theorem sendBannerHandoff_answers : (sendBannerHandoff s).answers = s.answers := rfl
@[simp] theorem sendBannerHandoff_answersTaken : (sendBannerHandoff s).answersTaken = s.answersTaken := rfl
@[simp] theorem sendBannerHandoff_freeCount : (sendBannerHandoff s).freeCount = s.freeCount := rfl
@[simp] theorem sendBannerHandoff_trace : (sendBannerHandoff s).trace = s.trace ++ s.params.bannerHandoff.map .send := rfl

@[simp] theorem drain_params : (drain s).params = s.params := rfl
@[simp] theorem drain_fsm : (drain s).fsm = s.fsm := rfl
@[simp] theorem drain_currentBlock : (drain s).currentBlock = s.currentBlock := rfl
@[simp] theorem drain_buf : (drain s).buf = s.buf := rfl
@[simp] theorem drain_nibPhase : (drain s).nibPhase = s.nibPhase := rfl
@[simp] theorem drain_hiNib : (drain s).hiNib = s.hiNib := rfl
@[simp] theorem drain_offset : (drain s).offset = s.offset := rfl
@[simp] theorem drain_sum : (drain s).sum = s.sum := rfl
@[simp] theorem drain_recLength : (drain s).recLength = s.recLength := rfl
@[simp] theorem drain_recAddrHi : (drain s).recAddrHi = s.recAddrHi := rfl
@[simp] theorem drain_recAddrLo : (drain s).recAddrLo = s.recAddrLo := rfl
@[simp] theorem drain_recType : (drain s).recType = s.recType := rfl
@[simp] theorem drain_recData : (drain s).recData = s.recData := rfl
@[simp] theorem drain_nv : (drain s).nv = s.nv := rfl
@[simp] theorem drain_executable : (drain s).executable = s.executable := rfl
@[simp] theorem drain_timerArmed : (drain s).timerArmed = s.timerArmed := rfl
@[simp] theorem drain_senderPaused : (drain s).senderPaused = s.senderPaused := rfl
@[simp] theorem drain_txQueue : (drain s).txQueue = [] := rfl
@[simp] theorem drain_interruptsEnabled : (drain s).interruptsEnabled = s.interruptsEnabled := rfl
@[simp] theorem drain_inbox : (drain s).inbox = s.inbox := rfl
@[simp] theorem drain_answers : (drain s).answers = s.answers := rfl
@[simp] theorem drain_answersTaken : (drain s).answersTaken = s.answersTaken := rfl
@[simp] theorem drain_freeCount : (drain s).freeCount = s.freeCount := rfl
@[simp] theorem drain_trace : (drain s).trace = s.trace ++ [.drain] := rfl

@[simp] theorem handoff_params : (handoff s).params = s.params := rfl
@[simp] theorem handoff_fsm : (handoff s).fsm = .finished := rfl
@[simp] theorem handoff_currentBlock : (handoff s).currentBlock = s.currentBlock := rfl
@[simp] theorem handoff_buf : (handoff s).buf = s.buf := rfl
@[simp] theorem handoff_nibPhase : (handoff s).nibPhase = s.nibPhase := rfl
@[simp] theorem handoff_hiNib : (handoff s).hiNib = s.hiNib := rfl
@[simp] theorem handoff_offset : (handoff s).offset = s.offset := rfl
@[simp] theorem handoff_sum : (handoff s).sum = s.sum := rfl
@[simp] theorem handoff_recLength : (handoff s).recLength = s.recLength := rfl
@[simp] theorem handoff_recAddrHi : (handoff s).recAddrHi = s.recAddrHi := rfl
@[simp] theorem handoff_recAddrLo : (handoff s).recAddrLo = s.recAddrLo := rfl
@[simp] theorem handoff_recType : (handoff s).recType = s.recType := rfl
@[simp] theorem handoff_recData : (handoff s).recData = s.recData := rfl
@[simp] theorem handoff_nv : (handoff s).nv = s.nv := rfl
@[simp] theorem handoff_executable : (handoff s).executable = s.executable := rfl
@[simp] theorem handoff_timerArmed : (handoff s).timerArmed = s.timerArmed := rfl
@[simp] theorem handoff_senderPaused : (handoff s).senderPaused = s.senderPaused := rfl
@[simp] theorem handoff_txQueue : (handoff s).txQueue = s.txQueue := rfl
@[simp] theorem handoff_interruptsEnabled : (handoff s).interruptsEnabled = s.interruptsEnabled := rfl
@[simp] theorem handoff_inbox : (handoff s).inbox = s.inbox := rfl
@[simp] theorem handoff_answers : (handoff s).answers = s.answers := rfl
@[simp] theorem handoff_answersTaken : (handoff s).answersTaken = s.answersTaken := rfl
@[simp] theorem handoff_freeCount : (handoff s).freeCount = s.freeCount := rfl
@[simp] theorem handoff_trace : (handoff s).trace = s.trace ++ [.handoff s.params.entryPoint] := rfl

@[simp] theorem lineReset_params : (lineReset s).params = s.params := rfl
@[simp] theorem lineReset_fsm : (lineReset s).fsm = s.fsm := rfl
@[simp] theorem lineReset_currentBlock : (lineReset s).currentBlock = s.currentBlock := rfl
@[simp] theorem lineReset_buf : (lineReset s).buf = s.buf := rfl
@[simp] theorem lineReset_nibPhase : (lineReset s).nibPhase = .high := rfl
@[simp] theorem lineReset_hiNib : (lineReset s).hiNib = 0 := rfl
@[simp] theorem lineReset_offset : (lineReset s).offset = 0 := rfl
@[simp] theorem lineReset_sum : (lineReset s).sum = 0 := rfl
@[simp] theorem lineReset_recLength : (lineReset s).recLength = 0 := rfl
@[simp] theorem lineReset_recAddrHi : (lineReset s).recAddrHi = 0 := rfl
@[simp] theorem lineReset_recAddrLo : (lineReset s).recAddrLo = 0 := rfl
@[simp] theorem lineReset_recType : (lineReset s).recType = 0 := rfl
@[simp] theorem lineReset_recData : (lineReset s).recData = noData := rfl
@[simp] theorem lineReset_nv : (lineReset s).nv = s.nv := rfl
@[simp] theorem lineReset_executable : (lineReset s).executable = s.executable := rfl
@[simp] theorem lineReset_timerArmed : (lineReset s).timerArmed = s.timerArmed := rfl
@[simp] theorem lineReset_senderPaused : (lineReset s).senderPaused = s.senderPaused := rfl
@[simp] theorem lineReset_txQueue : (lineReset s).txQueue = s.txQueue := rfl
@[simp] theorem lineReset_interruptsEnabled : (lineReset s).interruptsEnabled = s.interruptsEnabled := rfl
@[simp] theorem lineReset_inbox : (lineReset s).inbox = s.inbox := rfl
@[simp] theorem lineReset_answers : (lineReset s).answers = s.answers := rfl
@[simp] theorem lineReset_answersTaken : (lineReset s).answersTaken = s.answersTaken := rfl
@[simp] theorem lineReset_freeCount : (lineReset s).freeCount = s.freeCount := rfl
@[simp] theorem lineReset_trace : (lineReset s).trace = s.trace := rfl

@[simp] theorem lineRestart_params : (lineRestart s).params = s.params := rfl
@[simp] theorem lineRestart_fsm : (lineRestart s).fsm = .awaitingLine := rfl
@[simp] theorem lineRestart_currentBlock : (lineRestart s).currentBlock = s.currentBlock := rfl
@[simp] theorem lineRestart_buf : (lineRestart s).buf = s.buf := rfl
@[simp] theorem lineRestart_nibPhase : (lineRestart s).nibPhase = .high := rfl
@[simp] theorem lineRestart_hiNib : (lineRestart s).hiNib = 0 := rfl
@[simp] theorem lineRestart_offset : (lineRestart s).offset = 0 := rfl
@[simp] theorem lineRestart_sum : (lineRestart s).sum = 0 := rfl
@[simp] theorem lineRestart_recLength : (lineRestart s).recLength = 0 := rfl
@[simp] theorem lineRestart_recAddrHi : (lineRestart s).recAddrHi = 0 := rfl
@[simp] theorem lineRestart_recAddrLo : (lineRestart s).recAddrLo = 0 := rfl
@[simp] theorem lineRestart_recType : (lineRestart s).recType = 0 := rfl
@[simp] theorem lineRestart_recData : (lineRestart s).recData = noData := rfl
@[simp] theorem lineRestart_nv : (lineRestart s).nv = s.nv := rfl
@[simp] theorem lineRestart_executable : (lineRestart s).executable = s.executable := rfl
@[simp] theorem lineRestart_timerArmed : (lineRestart s).timerArmed = s.timerArmed := rfl
@[simp] theorem lineRestart_senderPaused : (lineRestart s).senderPaused = s.senderPaused := rfl
@[simp] theorem lineRestart_txQueue : (lineRestart s).txQueue = s.txQueue := rfl
@[simp] theorem lineRestart_interruptsEnabled : (lineRestart s).interruptsEnabled = s.interruptsEnabled := rfl
@[simp] theorem lineRestart_inbox : (lineRestart s).inbox = s.inbox := rfl
@[simp] theorem lineRestart_answers : (lineRestart s).answers = s.answers := rfl
@[simp] theorem lineRestart_answersTaken : (lineRestart s).answersTaken = s.answersTaken := rfl
@[simp] theorem lineRestart_freeCount : (lineRestart s).freeCount = s.freeCount := rfl
@[simp] theorem lineRestart_trace : (lineRestart s).trace = s.trace := rfl

@[simp] theorem raiseInvalidHexCharacter_params : (raiseInvalidHexCharacter s).params = s.params := rfl
@[simp] theorem raiseInvalidHexCharacter_fsm : (raiseInvalidHexCharacter s).fsm = .awaitingLine := rfl
@[simp] theorem raiseInvalidHexCharacter_currentBlock : (raiseInvalidHexCharacter s).currentBlock = s.currentBlock := rfl
@[simp] theorem raiseInvalidHexCharacter_buf : (raiseInvalidHexCharacter s).buf = s.buf := rfl
@[simp] theorem raiseInvalidHexCharacter_nibPhase : (raiseInvalidHexCharacter s).nibPhase = .high := rfl
@[simp] theorem raiseInvalidHexCharacter_hiNib : (raiseInvalidHexCharacter s).hiNib = 0 := rfl
@[simp] theorem raiseInvalidHexCharacter_offset : (raiseInvalidHexCharacter s).offset = 0 := rfl
@[simp] theorem raiseInvalidHexCharacter_sum : (raiseInvalidHexCharacter s).sum = 0 := rfl
@[simp] theorem raiseInvalidHexCharacter_recLength : (raiseInvalidHexCharacter s).recLength = 0 := rfl
@[simp] theorem raiseInvalidHexCharacter_recAddrHi : (raiseInvalidHexCharacter s).recAddrHi = 0 := rfl
@[simp] theorem raiseInvalidHexCharacter_recAddrLo : (raiseInvalidHexCharacter s).recAddrLo = 0 := rfl
@[simp] theorem raiseInvalidHexCharacter_recType : (raiseInvalidHexCharacter s).recType = 0 := rfl
@[simp] theorem raiseInvalidHexCharacter_recData : (raiseInvalidHexCharacter s).recData = noData := rfl
@[simp] theorem raiseInvalidHexCharacter_nv : (raiseInvalidHexCharacter s).nv = s.nv := rfl
@[simp] theorem raiseInvalidHexCharacter_executable : (raiseInvalidHexCharacter s).executable = s.executable := rfl
@[simp] theorem raiseInvalidHexCharacter_timerArmed : (raiseInvalidHexCharacter s).timerArmed = s.timerArmed := rfl
@[simp] theorem raiseInvalidHexCharacter_senderPaused : (raiseInvalidHexCharacter s).senderPaused = s.senderPaused := rfl
@[simp] theorem raiseInvalidHexCharacter_txQueue : (raiseInvalidHexCharacter s).txQueue = s.txQueue := rfl
@[simp] theorem raiseInvalidHexCharacter_interruptsEnabled : (raiseInvalidHexCharacter s).interruptsEnabled = s.interruptsEnabled := rfl
@[simp] theorem raiseInvalidHexCharacter_inbox : (raiseInvalidHexCharacter s).inbox = s.inbox := rfl
@[simp] theorem raiseInvalidHexCharacter_answers : (raiseInvalidHexCharacter s).answers = s.answers := rfl
@[simp] theorem raiseInvalidHexCharacter_answersTaken : (raiseInvalidHexCharacter s).answersTaken = s.answersTaken := rfl
@[simp] theorem raiseInvalidHexCharacter_freeCount : (raiseInvalidHexCharacter s).freeCount = s.freeCount := rfl
@[simp] theorem raiseInvalidHexCharacter_trace : (raiseInvalidHexCharacter s).trace = s.trace := rfl

@[simp] theorem raiseChecksumMismatch_params : (raiseChecksumMismatch s).params = s.params := rfl
@[simp] theorem raiseChecksumMismatch_fsm : (raiseChecksumMismatch s).fsm = .aborted := rfl
@[simp] theorem raiseChecksumMismatch_currentBlock : (raiseChecksumMismatch s).currentBlock = s.currentBlock := rfl
@[simp] theorem raiseChecksumMismatch_buf : (raiseChecksumMismatch s).buf = s.buf := rfl
@[simp] theorem raiseChecksumMismatch_nibPhase : (raiseChecksumMismatch s).nibPhase = s.nibPhase := rfl
@[simp] theorem raiseChecksumMismatch_hiNib : (raiseChecksumMismatch s).hiNib = s.hiNib := rfl
@[simp] theorem raiseChecksumMismatch_offset : (raiseChecksumMismatch s).offset = s.offset := rfl
@[simp] theorem raiseChecksumMismatch_sum : (raiseChecksumMismatch s).sum = s.sum := rfl
@[simp] theorem raiseChecksumMismatch_recLength : (raiseChecksumMismatch s).recLength = s.recLength := rfl
@[simp] theorem raiseChecksumMismatch_recAddrHi : (raiseChecksumMismatch s).recAddrHi = s.recAddrHi := rfl
@[simp] theorem raiseChecksumMismatch_recAddrLo : (raiseChecksumMismatch s).recAddrLo = s.recAddrLo := rfl
@[simp] theorem raiseChecksumMismatch_recType : (raiseChecksumMismatch s).recType = s.recType := rfl
@[simp] theorem raiseChecksumMismatch_recData : (raiseChecksumMismatch s).recData = s.recData := rfl
@[simp] theorem raiseChecksumMismatch_nv : (raiseChecksumMismatch s).nv = s.nv := rfl
@[simp] theorem raiseChecksumMismatch_executable : (raiseChecksumMismatch s).executable = s.executable := rfl
@[simp] theorem raiseChecksumMismatch_timerArmed : (raiseChecksumMismatch s).timerArmed = s.timerArmed := rfl
@[simp] theorem raiseChecksumMismatch_senderPaused : (raiseChecksumMismatch s).senderPaused = s.senderPaused := rfl
@[simp] theorem raiseChecksumMismatch_txQueue : (raiseChecksumMismatch s).txQueue = s.txQueue ++ [s.params.checksumErrChar] := rfl
@[simp] theorem raiseChecksumMismatch_interruptsEnabled : (raiseChecksumMismatch s).interruptsEnabled = s.interruptsEnabled := rfl
@[simp] theorem raiseChecksumMismatch_inbox : (raiseChecksumMismatch s).inbox = s.inbox := rfl
@[simp] theorem raiseChecksumMismatch_answers : (raiseChecksumMismatch s).answers = s.answers := rfl
@[simp] theorem raiseChecksumMismatch_answersTaken : (raiseChecksumMismatch s).answersTaken = s.answersTaken := rfl
@[simp] theorem raiseChecksumMismatch_freeCount : (raiseChecksumMismatch s).freeCount = s.freeCount := rfl
@[simp] theorem raiseChecksumMismatch_trace : (raiseChecksumMismatch s).trace = s.trace ++ [.send s.params.checksumErrChar] := rfl

@[simp] theorem raiseTimeoutMidRecord_params : (raiseTimeoutMidRecord s).params = s.params := rfl
@[simp] theorem raiseTimeoutMidRecord_fsm : (raiseTimeoutMidRecord s).fsm = .awaitingLine := rfl
@[simp] theorem raiseTimeoutMidRecord_currentBlock : (raiseTimeoutMidRecord s).currentBlock = s.currentBlock := rfl
@[simp] theorem raiseTimeoutMidRecord_buf : (raiseTimeoutMidRecord s).buf = s.buf := rfl
@[simp] theorem raiseTimeoutMidRecord_nibPhase : (raiseTimeoutMidRecord s).nibPhase = .high := rfl
@[simp] theorem raiseTimeoutMidRecord_hiNib : (raiseTimeoutMidRecord s).hiNib = 0 := rfl
@[simp] theorem raiseTimeoutMidRecord_offset : (raiseTimeoutMidRecord s).offset = 0 := rfl
@[simp] theorem raiseTimeoutMidRecord_sum : (raiseTimeoutMidRecord s).sum = 0 := rfl
@[simp] theorem raiseTimeoutMidRecord_recLength : (raiseTimeoutMidRecord s).recLength = 0 := rfl
@[simp] theorem raiseTimeoutMidRecord_recAddrHi : (raiseTimeoutMidRecord s).recAddrHi = 0 := rfl
@[simp] theorem raiseTimeoutMidRecord_recAddrLo : (raiseTimeoutMidRecord s).recAddrLo = 0 := rfl
@[simp] theorem raiseTimeoutMidRecord_recType : (raiseTimeoutMidRecord s).recType = 0 := rfl
@[simp] theorem raiseTimeoutMidRecord_recData : (raiseTimeoutMidRecord s).recData = noData := rfl
@[simp] theorem raiseTimeoutMidRecord_nv : (raiseTimeoutMidRecord s).nv = s.nv := rfl
@[simp] theorem raiseTimeoutMidRecord_executable : (raiseTimeoutMidRecord s).executable = s.executable := rfl
@[simp] theorem raiseTimeoutMidRecord_timerArmed : (raiseTimeoutMidRecord s).timerArmed = true := rfl
@[simp] theorem raiseTimeoutMidRecord_senderPaused : (raiseTimeoutMidRecord s).senderPaused = s.senderPaused := rfl
@[simp] theorem raiseTimeoutMidRecord_txQueue : (raiseTimeoutMidRecord s).txQueue = s.txQueue := rfl
@[simp] theorem raiseTimeoutMidRecord_interruptsEnabled : (raiseTimeoutMidRecord s).interruptsEnabled = s.interruptsEnabled := rfl
@[simp] theorem raiseTimeoutMidRecord_inbox : (raiseTimeoutMidRecord s).inbox = s.inbox := rfl
@[simp] theorem raiseTimeoutMidRecord_answers : (raiseTimeoutMidRecord s).answers = s.answers := rfl
@[simp] theorem raiseTimeoutMidRecord_answersTaken : (raiseTimeoutMidRecord s).answersTaken = s.answersTaken := rfl
@[simp] theorem raiseTimeoutMidRecord_freeCount : (raiseTimeoutMidRecord s).freeCount = s.freeCount := rfl
@[simp] theorem raiseTimeoutMidRecord_trace : (raiseTimeoutMidRecord s).trace = s.trace ++ [.armTimeout] := rfl

@[simp] theorem raiseWriteFault_params : (raiseWriteFault s).params = s.params := rfl
@[simp] theorem raiseWriteFault_fsm : (raiseWriteFault s).fsm = .writeFaulted := rfl
@[simp] theorem raiseWriteFault_currentBlock : (raiseWriteFault s).currentBlock = s.currentBlock := rfl
@[simp] theorem raiseWriteFault_buf : (raiseWriteFault s).buf = s.buf := rfl
@[simp] theorem raiseWriteFault_nibPhase : (raiseWriteFault s).nibPhase = s.nibPhase := rfl
@[simp] theorem raiseWriteFault_hiNib : (raiseWriteFault s).hiNib = s.hiNib := rfl
@[simp] theorem raiseWriteFault_offset : (raiseWriteFault s).offset = s.offset := rfl
@[simp] theorem raiseWriteFault_sum : (raiseWriteFault s).sum = s.sum := rfl
@[simp] theorem raiseWriteFault_recLength : (raiseWriteFault s).recLength = s.recLength := rfl
@[simp] theorem raiseWriteFault_recAddrHi : (raiseWriteFault s).recAddrHi = s.recAddrHi := rfl
@[simp] theorem raiseWriteFault_recAddrLo : (raiseWriteFault s).recAddrLo = s.recAddrLo := rfl
@[simp] theorem raiseWriteFault_recType : (raiseWriteFault s).recType = s.recType := rfl
@[simp] theorem raiseWriteFault_recData : (raiseWriteFault s).recData = s.recData := rfl
@[simp] theorem raiseWriteFault_nv : (raiseWriteFault s).nv = s.nv := rfl
@[simp] theorem raiseWriteFault_executable : (raiseWriteFault s).executable = s.executable := rfl
@[simp] theorem raiseWriteFault_timerArmed : (raiseWriteFault s).timerArmed = s.timerArmed := rfl
@[simp] theorem raiseWriteFault_senderPaused : (raiseWriteFault s).senderPaused = s.senderPaused := rfl
@[simp] theorem raiseWriteFault_txQueue : (raiseWriteFault s).txQueue = s.txQueue := rfl
@[simp] theorem raiseWriteFault_interruptsEnabled : (raiseWriteFault s).interruptsEnabled = s.interruptsEnabled := rfl
@[simp] theorem raiseWriteFault_inbox : (raiseWriteFault s).inbox = s.inbox := rfl
@[simp] theorem raiseWriteFault_answers : (raiseWriteFault s).answers = s.answers := rfl
@[simp] theorem raiseWriteFault_answersTaken : (raiseWriteFault s).answersTaken = s.answersTaken := rfl
@[simp] theorem raiseWriteFault_freeCount : (raiseWriteFault s).freeCount = s.freeCount := rfl
@[simp] theorem raiseWriteFault_trace : (raiseWriteFault s).trace = s.trace := rfl

@[simp] theorem load_params (b : Addr) : (load b s).params = s.params := rfl
@[simp] theorem load_fsm (b : Addr) : (load b s).fsm = s.fsm := rfl
@[simp] theorem load_currentBlock (b : Addr) : (load b s).currentBlock = b := rfl
@[simp] theorem load_buf (b : Addr) : (load b s).buf = Memory.block s.params s.nv b := rfl
@[simp] theorem load_nibPhase (b : Addr) : (load b s).nibPhase = s.nibPhase := rfl
@[simp] theorem load_hiNib (b : Addr) : (load b s).hiNib = s.hiNib := rfl
@[simp] theorem load_offset (b : Addr) : (load b s).offset = s.offset := rfl
@[simp] theorem load_sum (b : Addr) : (load b s).sum = s.sum := rfl
@[simp] theorem load_recLength (b : Addr) : (load b s).recLength = s.recLength := rfl
@[simp] theorem load_recAddrHi (b : Addr) : (load b s).recAddrHi = s.recAddrHi := rfl
@[simp] theorem load_recAddrLo (b : Addr) : (load b s).recAddrLo = s.recAddrLo := rfl
@[simp] theorem load_recType (b : Addr) : (load b s).recType = s.recType := rfl
@[simp] theorem load_recData (b : Addr) : (load b s).recData = s.recData := rfl
@[simp] theorem load_nv (b : Addr) : (load b s).nv = s.nv := rfl
@[simp] theorem load_executable (b : Addr) : (load b s).executable = s.executable := rfl
@[simp] theorem load_timerArmed (b : Addr) : (load b s).timerArmed = s.timerArmed := rfl
@[simp] theorem load_senderPaused (b : Addr) : (load b s).senderPaused = s.senderPaused := rfl
@[simp] theorem load_txQueue (b : Addr) : (load b s).txQueue = s.txQueue := rfl
@[simp] theorem load_interruptsEnabled (b : Addr) : (load b s).interruptsEnabled = s.interruptsEnabled := rfl
@[simp] theorem load_inbox (b : Addr) : (load b s).inbox = s.inbox := rfl
@[simp] theorem load_answers (b : Addr) : (load b s).answers = s.answers := rfl
@[simp] theorem load_answersTaken (b : Addr) : (load b s).answersTaken = s.answersTaken := rfl
@[simp] theorem load_freeCount (b : Addr) : (load b s).freeCount = s.freeCount := rfl
@[simp] theorem load_trace (b : Addr) : (load b s).trace = s.trace ++ [.load b] := rfl

@[simp] theorem forgetSession_params : (forgetSession s).params = s.params := rfl
@[simp] theorem forgetSession_fsm : (forgetSession s).fsm = s.fsm := rfl
@[simp] theorem forgetSession_currentBlock : (forgetSession s).currentBlock = s.currentBlock := rfl
@[simp] theorem forgetSession_buf : (forgetSession s).buf = s.buf := rfl
@[simp] theorem forgetSession_nibPhase : (forgetSession s).nibPhase = s.nibPhase := rfl
@[simp] theorem forgetSession_hiNib : (forgetSession s).hiNib = s.hiNib := rfl
@[simp] theorem forgetSession_offset : (forgetSession s).offset = s.offset := rfl
@[simp] theorem forgetSession_sum : (forgetSession s).sum = s.sum := rfl
@[simp] theorem forgetSession_recLength : (forgetSession s).recLength = s.recLength := rfl
@[simp] theorem forgetSession_recAddrHi : (forgetSession s).recAddrHi = s.recAddrHi := rfl
@[simp] theorem forgetSession_recAddrLo : (forgetSession s).recAddrLo = s.recAddrLo := rfl
@[simp] theorem forgetSession_recType : (forgetSession s).recType = s.recType := rfl
@[simp] theorem forgetSession_recData : (forgetSession s).recData = s.recData := rfl
@[simp] theorem forgetSession_nv : (forgetSession s).nv = s.nv := rfl
@[simp] theorem forgetSession_executable : (forgetSession s).executable = [] := rfl
@[simp] theorem forgetSession_timerArmed : (forgetSession s).timerArmed = s.timerArmed := rfl
@[simp] theorem forgetSession_senderPaused : (forgetSession s).senderPaused = s.senderPaused := rfl
@[simp] theorem forgetSession_txQueue : (forgetSession s).txQueue = [] := rfl
@[simp] theorem forgetSession_interruptsEnabled : (forgetSession s).interruptsEnabled = s.interruptsEnabled := rfl
@[simp] theorem forgetSession_inbox : (forgetSession s).inbox = s.inbox := rfl
@[simp] theorem forgetSession_answers : (forgetSession s).answers = s.answers := rfl
@[simp] theorem forgetSession_answersTaken : (forgetSession s).answersTaken = s.answersTaken := rfl
@[simp] theorem forgetSession_freeCount : (forgetSession s).freeCount = s.freeCount := rfl
@[simp] theorem forgetSession_trace : (forgetSession s).trace = s.trace := rfl

@[simp] theorem spoilBlock_params : (spoilBlock s).params = s.params := rfl
@[simp] theorem spoilBlock_fsm : (spoilBlock s).fsm = s.fsm := rfl
@[simp] theorem spoilBlock_currentBlock : (spoilBlock s).currentBlock = s.currentBlock := rfl
@[simp] theorem spoilBlock_buf : (spoilBlock s).buf = s.buf := rfl
@[simp] theorem spoilBlock_nibPhase : (spoilBlock s).nibPhase = s.nibPhase := rfl
@[simp] theorem spoilBlock_hiNib : (spoilBlock s).hiNib = s.hiNib := rfl
@[simp] theorem spoilBlock_offset : (spoilBlock s).offset = s.offset := rfl
@[simp] theorem spoilBlock_sum : (spoilBlock s).sum = s.sum := rfl
@[simp] theorem spoilBlock_recLength : (spoilBlock s).recLength = s.recLength := rfl
@[simp] theorem spoilBlock_recAddrHi : (spoilBlock s).recAddrHi = s.recAddrHi := rfl
@[simp] theorem spoilBlock_recAddrLo : (spoilBlock s).recAddrLo = s.recAddrLo := rfl
@[simp] theorem spoilBlock_recType : (spoilBlock s).recType = s.recType := rfl
@[simp] theorem spoilBlock_recData : (spoilBlock s).recData = s.recData := rfl
@[simp] theorem spoilBlock_nv : (spoilBlock s).nv = Memory.writeBytes s.nv s.currentBlock (freeBytes s.freeCount (blockSize s.params)) := rfl
@[simp] theorem spoilBlock_executable : (spoilBlock s).executable = removeBlock s.currentBlock s.executable := rfl
@[simp] theorem spoilBlock_timerArmed : (spoilBlock s).timerArmed = s.timerArmed := rfl
@[simp] theorem spoilBlock_senderPaused : (spoilBlock s).senderPaused = s.senderPaused := rfl
@[simp] theorem spoilBlock_txQueue : (spoilBlock s).txQueue = s.txQueue := rfl
@[simp] theorem spoilBlock_interruptsEnabled : (spoilBlock s).interruptsEnabled = s.interruptsEnabled := rfl
@[simp] theorem spoilBlock_inbox : (spoilBlock s).inbox = s.inbox := rfl
@[simp] theorem spoilBlock_answers : (spoilBlock s).answers = s.answers := rfl
@[simp] theorem spoilBlock_answersTaken : (spoilBlock s).answersTaken = s.answersTaken := rfl
@[simp] theorem spoilBlock_freeCount : (spoilBlock s).freeCount = s.freeCount + blockSize s.params := rfl
@[simp] theorem spoilBlock_trace : (spoilBlock s).trace = s.trace := rfl

@[simp] theorem storeBlock_params : (storeBlock s).params = s.params := rfl
@[simp] theorem storeBlock_fsm : (storeBlock s).fsm = s.fsm := rfl
@[simp] theorem storeBlock_currentBlock : (storeBlock s).currentBlock = s.currentBlock := rfl
@[simp] theorem storeBlock_buf : (storeBlock s).buf = s.buf := rfl
@[simp] theorem storeBlock_nibPhase : (storeBlock s).nibPhase = s.nibPhase := rfl
@[simp] theorem storeBlock_hiNib : (storeBlock s).hiNib = s.hiNib := rfl
@[simp] theorem storeBlock_offset : (storeBlock s).offset = s.offset := rfl
@[simp] theorem storeBlock_sum : (storeBlock s).sum = s.sum := rfl
@[simp] theorem storeBlock_recLength : (storeBlock s).recLength = s.recLength := rfl
@[simp] theorem storeBlock_recAddrHi : (storeBlock s).recAddrHi = s.recAddrHi := rfl
@[simp] theorem storeBlock_recAddrLo : (storeBlock s).recAddrLo = s.recAddrLo := rfl
@[simp] theorem storeBlock_recType : (storeBlock s).recType = s.recType := rfl
@[simp] theorem storeBlock_recData : (storeBlock s).recData = s.recData := rfl
@[simp] theorem storeBlock_nv : (storeBlock s).nv = Memory.writeBytes s.nv s.currentBlock s.buf := rfl
@[simp] theorem storeBlock_executable : (storeBlock s).executable = insertBlock s.currentBlock s.executable := rfl
@[simp] theorem storeBlock_timerArmed : (storeBlock s).timerArmed = s.timerArmed := rfl
@[simp] theorem storeBlock_senderPaused : (storeBlock s).senderPaused = s.senderPaused := rfl
@[simp] theorem storeBlock_txQueue : (storeBlock s).txQueue = s.txQueue := rfl
@[simp] theorem storeBlock_interruptsEnabled : (storeBlock s).interruptsEnabled = s.interruptsEnabled := rfl
@[simp] theorem storeBlock_inbox : (storeBlock s).inbox = s.inbox := rfl
@[simp] theorem storeBlock_answers : (storeBlock s).answers = s.answers := rfl
@[simp] theorem storeBlock_answersTaken : (storeBlock s).answersTaken = s.answersTaken := rfl
@[simp] theorem storeBlock_freeCount : (storeBlock s).freeCount = s.freeCount := rfl
@[simp] theorem storeBlock_trace : (storeBlock s).trace = s.trace := rfl

@[simp] theorem issueCommit_params : (issueCommit s).params = s.params := rfl
@[simp] theorem issueCommit_fsm : (issueCommit s).fsm = s.fsm := rfl
@[simp] theorem issueCommit_currentBlock : (issueCommit s).currentBlock = s.currentBlock := rfl
@[simp] theorem issueCommit_buf : (issueCommit s).buf = s.buf := rfl
@[simp] theorem issueCommit_nibPhase : (issueCommit s).nibPhase = s.nibPhase := rfl
@[simp] theorem issueCommit_hiNib : (issueCommit s).hiNib = s.hiNib := rfl
@[simp] theorem issueCommit_offset : (issueCommit s).offset = s.offset := rfl
@[simp] theorem issueCommit_sum : (issueCommit s).sum = s.sum := rfl
@[simp] theorem issueCommit_recLength : (issueCommit s).recLength = s.recLength := rfl
@[simp] theorem issueCommit_recAddrHi : (issueCommit s).recAddrHi = s.recAddrHi := rfl
@[simp] theorem issueCommit_recAddrLo : (issueCommit s).recAddrLo = s.recAddrLo := rfl
@[simp] theorem issueCommit_recType : (issueCommit s).recType = s.recType := rfl
@[simp] theorem issueCommit_recData : (issueCommit s).recData = s.recData := rfl
@[simp] theorem issueCommit_nv : (issueCommit s).nv = s.nv := rfl
@[simp] theorem issueCommit_executable : (issueCommit s).executable = s.executable := rfl
@[simp] theorem issueCommit_timerArmed : (issueCommit s).timerArmed = s.timerArmed := rfl
@[simp] theorem issueCommit_senderPaused : (issueCommit s).senderPaused = s.senderPaused := rfl
@[simp] theorem issueCommit_txQueue : (issueCommit s).txQueue = s.txQueue := rfl
@[simp] theorem issueCommit_interruptsEnabled : (issueCommit s).interruptsEnabled = s.interruptsEnabled := rfl
@[simp] theorem issueCommit_inbox : (issueCommit s).inbox = s.inbox := rfl
@[simp] theorem issueCommit_answers : (issueCommit s).answers = s.answers.tail := rfl
@[simp] theorem issueCommit_answersTaken : (issueCommit s).answersTaken = s.answersTaken + 1 := rfl
@[simp] theorem issueCommit_freeCount : (issueCommit s).freeCount = s.freeCount := rfl
@[simp] theorem issueCommit_trace : (issueCommit s).trace = s.trace ++ [.commit s.currentBlock s.buf] := rfl

@[simp] theorem bufWrite_params (a : Addr) (v : Byte) : (bufWrite a v s).params = s.params := rfl
@[simp] theorem bufWrite_fsm (a : Addr) (v : Byte) : (bufWrite a v s).fsm = s.fsm := rfl
@[simp] theorem bufWrite_currentBlock (a : Addr) (v : Byte) : (bufWrite a v s).currentBlock = s.currentBlock := rfl
@[simp] theorem bufWrite_buf (a : Addr) (v : Byte) : (bufWrite a v s).buf = s.buf.set (blockIndex s.params a) v := rfl
@[simp] theorem bufWrite_nibPhase (a : Addr) (v : Byte) : (bufWrite a v s).nibPhase = s.nibPhase := rfl
@[simp] theorem bufWrite_hiNib (a : Addr) (v : Byte) : (bufWrite a v s).hiNib = s.hiNib := rfl
@[simp] theorem bufWrite_offset (a : Addr) (v : Byte) : (bufWrite a v s).offset = s.offset := rfl
@[simp] theorem bufWrite_sum (a : Addr) (v : Byte) : (bufWrite a v s).sum = s.sum := rfl
@[simp] theorem bufWrite_recLength (a : Addr) (v : Byte) : (bufWrite a v s).recLength = s.recLength := rfl
@[simp] theorem bufWrite_recAddrHi (a : Addr) (v : Byte) : (bufWrite a v s).recAddrHi = s.recAddrHi := rfl
@[simp] theorem bufWrite_recAddrLo (a : Addr) (v : Byte) : (bufWrite a v s).recAddrLo = s.recAddrLo := rfl
@[simp] theorem bufWrite_recType (a : Addr) (v : Byte) : (bufWrite a v s).recType = s.recType := rfl
@[simp] theorem bufWrite_recData (a : Addr) (v : Byte) : (bufWrite a v s).recData = s.recData := rfl
@[simp] theorem bufWrite_nv (a : Addr) (v : Byte) : (bufWrite a v s).nv = s.nv := rfl
@[simp] theorem bufWrite_executable (a : Addr) (v : Byte) : (bufWrite a v s).executable = s.executable := rfl
@[simp] theorem bufWrite_timerArmed (a : Addr) (v : Byte) : (bufWrite a v s).timerArmed = s.timerArmed := rfl
@[simp] theorem bufWrite_senderPaused (a : Addr) (v : Byte) : (bufWrite a v s).senderPaused = s.senderPaused := rfl
@[simp] theorem bufWrite_txQueue (a : Addr) (v : Byte) : (bufWrite a v s).txQueue = s.txQueue := rfl
@[simp] theorem bufWrite_interruptsEnabled (a : Addr) (v : Byte) : (bufWrite a v s).interruptsEnabled = s.interruptsEnabled := rfl
@[simp] theorem bufWrite_inbox (a : Addr) (v : Byte) : (bufWrite a v s).inbox = s.inbox := rfl
@[simp] theorem bufWrite_answers (a : Addr) (v : Byte) : (bufWrite a v s).answers = s.answers := rfl
@[simp] theorem bufWrite_answersTaken (a : Addr) (v : Byte) : (bufWrite a v s).answersTaken = s.answersTaken := rfl
@[simp] theorem bufWrite_freeCount (a : Addr) (v : Byte) : (bufWrite a v s).freeCount = s.freeCount := rfl
@[simp] theorem bufWrite_trace (a : Addr) (v : Byte) : (bufWrite a v s).trace = s.trace := rfl

@[simp] theorem pairHi_params (v : Nibble) : (pairHi v s).params = s.params := rfl
@[simp] theorem pairHi_fsm (v : Nibble) : (pairHi v s).fsm = s.fsm := rfl
@[simp] theorem pairHi_currentBlock (v : Nibble) : (pairHi v s).currentBlock = s.currentBlock := rfl
@[simp] theorem pairHi_buf (v : Nibble) : (pairHi v s).buf = s.buf := rfl
@[simp] theorem pairHi_nibPhase (v : Nibble) : (pairHi v s).nibPhase = .low := rfl
@[simp] theorem pairHi_hiNib (v : Nibble) : (pairHi v s).hiNib = v := rfl
@[simp] theorem pairHi_offset (v : Nibble) : (pairHi v s).offset = s.offset := rfl
@[simp] theorem pairHi_sum (v : Nibble) : (pairHi v s).sum = s.sum := rfl
@[simp] theorem pairHi_recLength (v : Nibble) : (pairHi v s).recLength = s.recLength := rfl
@[simp] theorem pairHi_recAddrHi (v : Nibble) : (pairHi v s).recAddrHi = s.recAddrHi := rfl
@[simp] theorem pairHi_recAddrLo (v : Nibble) : (pairHi v s).recAddrLo = s.recAddrLo := rfl
@[simp] theorem pairHi_recType (v : Nibble) : (pairHi v s).recType = s.recType := rfl
@[simp] theorem pairHi_recData (v : Nibble) : (pairHi v s).recData = s.recData := rfl
@[simp] theorem pairHi_nv (v : Nibble) : (pairHi v s).nv = s.nv := rfl
@[simp] theorem pairHi_executable (v : Nibble) : (pairHi v s).executable = s.executable := rfl
@[simp] theorem pairHi_timerArmed (v : Nibble) : (pairHi v s).timerArmed = s.timerArmed := rfl
@[simp] theorem pairHi_senderPaused (v : Nibble) : (pairHi v s).senderPaused = s.senderPaused := rfl
@[simp] theorem pairHi_txQueue (v : Nibble) : (pairHi v s).txQueue = s.txQueue := rfl
@[simp] theorem pairHi_interruptsEnabled (v : Nibble) : (pairHi v s).interruptsEnabled = s.interruptsEnabled := rfl
@[simp] theorem pairHi_inbox (v : Nibble) : (pairHi v s).inbox = s.inbox := rfl
@[simp] theorem pairHi_answers (v : Nibble) : (pairHi v s).answers = s.answers := rfl
@[simp] theorem pairHi_answersTaken (v : Nibble) : (pairHi v s).answersTaken = s.answersTaken := rfl
@[simp] theorem pairHi_freeCount (v : Nibble) : (pairHi v s).freeCount = s.freeCount := rfl
@[simp] theorem pairHi_trace (v : Nibble) : (pairHi v s).trace = s.trace := rfl

@[simp] theorem pairLo_params : (pairLo s).params = s.params := rfl
@[simp] theorem pairLo_fsm : (pairLo s).fsm = s.fsm := rfl
@[simp] theorem pairLo_currentBlock : (pairLo s).currentBlock = s.currentBlock := rfl
@[simp] theorem pairLo_buf : (pairLo s).buf = s.buf := rfl
@[simp] theorem pairLo_nibPhase : (pairLo s).nibPhase = .high := rfl
@[simp] theorem pairLo_hiNib : (pairLo s).hiNib = s.hiNib := rfl
@[simp] theorem pairLo_offset : (pairLo s).offset = s.offset := rfl
@[simp] theorem pairLo_sum : (pairLo s).sum = s.sum := rfl
@[simp] theorem pairLo_recLength : (pairLo s).recLength = s.recLength := rfl
@[simp] theorem pairLo_recAddrHi : (pairLo s).recAddrHi = s.recAddrHi := rfl
@[simp] theorem pairLo_recAddrLo : (pairLo s).recAddrLo = s.recAddrLo := rfl
@[simp] theorem pairLo_recType : (pairLo s).recType = s.recType := rfl
@[simp] theorem pairLo_recData : (pairLo s).recData = s.recData := rfl
@[simp] theorem pairLo_nv : (pairLo s).nv = s.nv := rfl
@[simp] theorem pairLo_executable : (pairLo s).executable = s.executable := rfl
@[simp] theorem pairLo_timerArmed : (pairLo s).timerArmed = s.timerArmed := rfl
@[simp] theorem pairLo_senderPaused : (pairLo s).senderPaused = s.senderPaused := rfl
@[simp] theorem pairLo_txQueue : (pairLo s).txQueue = s.txQueue := rfl
@[simp] theorem pairLo_interruptsEnabled : (pairLo s).interruptsEnabled = s.interruptsEnabled := rfl
@[simp] theorem pairLo_inbox : (pairLo s).inbox = s.inbox := rfl
@[simp] theorem pairLo_answers : (pairLo s).answers = s.answers := rfl
@[simp] theorem pairLo_answersTaken : (pairLo s).answersTaken = s.answersTaken := rfl
@[simp] theorem pairLo_freeCount : (pairLo s).freeCount = s.freeCount := rfl
@[simp] theorem pairLo_trace : (pairLo s).trace = s.trace := rfl

@[simp] theorem sessionEntry_params : (sessionEntry s).params = s.params := by simp [sessionEntry]
@[simp] theorem sessionEntry_fsm : (sessionEntry s).fsm = .awaitingLine := rfl
@[simp] theorem sessionEntry_currentBlock : (sessionEntry s).currentBlock = Config.initialBlock := rfl
@[simp] theorem sessionEntry_buf : (sessionEntry s).buf = Memory.block s.params s.nv Config.initialBlock := by simp [sessionEntry]
@[simp] theorem sessionEntry_nibPhase : (sessionEntry s).nibPhase = .high := rfl
@[simp] theorem sessionEntry_hiNib : (sessionEntry s).hiNib = 0 := rfl
@[simp] theorem sessionEntry_offset : (sessionEntry s).offset = 0 := rfl
@[simp] theorem sessionEntry_sum : (sessionEntry s).sum = 0 := rfl
@[simp] theorem sessionEntry_recLength : (sessionEntry s).recLength = 0 := rfl
@[simp] theorem sessionEntry_recAddrHi : (sessionEntry s).recAddrHi = 0 := rfl
@[simp] theorem sessionEntry_recAddrLo : (sessionEntry s).recAddrLo = 0 := rfl
@[simp] theorem sessionEntry_recType : (sessionEntry s).recType = 0 := rfl
@[simp] theorem sessionEntry_recData : (sessionEntry s).recData = noData := rfl
@[simp] theorem sessionEntry_nv : (sessionEntry s).nv = s.nv := by simp [sessionEntry]
@[simp] theorem sessionEntry_executable : (sessionEntry s).executable = [] := by simp [sessionEntry]
@[simp] theorem sessionEntry_timerArmed : (sessionEntry s).timerArmed = true := rfl
@[simp] theorem sessionEntry_senderPaused : (sessionEntry s).senderPaused = false := rfl
@[simp] theorem sessionEntry_txQueue : (sessionEntry s).txQueue = s.params.bannerStart ++ [s.params.xonByte] := by simp [sessionEntry]
@[simp] theorem sessionEntry_interruptsEnabled : (sessionEntry s).interruptsEnabled = s.interruptsEnabled := by simp [sessionEntry]
@[simp] theorem sessionEntry_inbox : (sessionEntry s).inbox = s.inbox := by simp [sessionEntry]
@[simp] theorem sessionEntry_answers : (sessionEntry s).answers = s.answers := by simp [sessionEntry]
@[simp] theorem sessionEntry_answersTaken : (sessionEntry s).answersTaken = s.answersTaken := by simp [sessionEntry]
@[simp] theorem sessionEntry_freeCount : (sessionEntry s).freeCount = s.freeCount := by simp [sessionEntry]
@[simp] theorem sessionEntry_trace : (sessionEntry s).trace = s.trace ++ (s.params.bannerStart.map .send ++
    [.load Config.initialBlock, .send s.params.xonByte, .armTimeout]) := by
  simp [sessionEntry]

variable (p : Position) (b : Byte)

@[simp] theorem feedAt_params : (feedAt p b s).params = s.params := by cases p <;> rfl
@[simp] theorem feedAt_fsm : (feedAt p b s).fsm = s.fsm := by cases p <;> rfl
@[simp] theorem feedAt_currentBlock : (feedAt p b s).currentBlock = s.currentBlock := by cases p <;> rfl
@[simp] theorem feedAt_buf : (feedAt p b s).buf = s.buf := by cases p <;> rfl
@[simp] theorem feedAt_nibPhase : (feedAt p b s).nibPhase = s.nibPhase := by cases p <;> rfl
@[simp] theorem feedAt_hiNib : (feedAt p b s).hiNib = s.hiNib := by cases p <;> rfl
@[simp] theorem feedAt_offset : (feedAt p b s).offset = s.offset + 1 := by cases p <;> rfl
@[simp] theorem feedAt_sum : (feedAt p b s).sum = s.sum + b := by cases p <;> rfl
@[simp] theorem feedAt_nv : (feedAt p b s).nv = s.nv := by cases p <;> rfl
@[simp] theorem feedAt_executable : (feedAt p b s).executable = s.executable := by cases p <;> rfl
@[simp] theorem feedAt_timerArmed : (feedAt p b s).timerArmed = s.timerArmed := by cases p <;> rfl
@[simp] theorem feedAt_senderPaused : (feedAt p b s).senderPaused = s.senderPaused := by cases p <;> rfl
@[simp] theorem feedAt_txQueue : (feedAt p b s).txQueue = s.txQueue := by cases p <;> rfl
@[simp] theorem feedAt_interruptsEnabled : (feedAt p b s).interruptsEnabled = s.interruptsEnabled := by cases p <;> rfl
@[simp] theorem feedAt_inbox : (feedAt p b s).inbox = s.inbox := by cases p <;> rfl
@[simp] theorem feedAt_answers : (feedAt p b s).answers = s.answers := by cases p <;> rfl
@[simp] theorem feedAt_answersTaken : (feedAt p b s).answersTaken = s.answersTaken := by cases p <;> rfl
@[simp] theorem feedAt_freeCount : (feedAt p b s).freeCount = s.freeCount := by cases p <;> rfl
@[simp] theorem feedAt_trace : (feedAt p b s).trace = s.trace := by cases p <;> rfl
theorem feedAt_recLength : (feedAt p b s).recLength = if p = .length then b else s.recLength := by cases p <;> rfl
theorem feedAt_recAddrHi : (feedAt p b s).recAddrHi = if p = .addrHi then b else s.recAddrHi := by cases p <;> rfl
theorem feedAt_recAddrLo : (feedAt p b s).recAddrLo = if p = .addrLo then b else s.recAddrLo := by cases p <;> rfl
theorem feedAt_recType : (feedAt p b s).recType = if p = .type then b else s.recType := by cases p <;> rfl
theorem feedAt_recData : (feedAt p b s).recData = if p = .data then s.recData.setIfInBounds (s.offset.toNat - 4) b else s.recData := by cases p <;> rfl

end Sys2Proof.Machine
end

