-- ==== Sys2Proof/Laws/Ops.lean ====
section
/-! SUPPORT. What the shared operations can do, said once: the flow of a step, the commit and its four answers, the feeding of a
byte, and the outcome of a character, so that a proof cites these and does not unfold the operations. -/

namespace Sys2Proof.Machine

/-! ### Flow -/

/-- What holds of the state a flow carries, by how far the step has come. -/
def Flow.Sat (f : Flow) (goes ends sticks : State → Prop) : Prop :=
  match f with
  | .go s => goes s
  | .ends s => ends s
  | .stuck s => sticks s

@[simp] theorem Flow.sat_go (s : State) (P Q R : State → Prop) : (Flow.go s).Sat P Q R ↔ P s := Iff.rfl
@[simp] theorem Flow.sat_ends (s : State) (P Q R : State → Prop) : (Flow.ends s).Sat P Q R ↔ Q s := Iff.rfl
@[simp] theorem Flow.sat_stuck (s : State) (P Q R : State → Prop) : (Flow.stuck s).Sat P Q R ↔ R s := Iff.rfl
@[simp] theorem Flow.go_andThen (s : State) (k : State → Flow) : (Flow.go s).andThen k = k s := rfl
@[simp] theorem Flow.ends_andThen (s : State) (k : State → Flow) : (Flow.ends s).andThen k = .ends s := rfl
@[simp] theorem Flow.stuck_andThen (s : State) (k : State → Flow) : (Flow.stuck s).andThen k = .stuck s := rfl
@[simp] theorem Flow.toOutcome_go (s : State) : (Flow.go s).toOutcome = .next s := rfl
@[simp] theorem Flow.toOutcome_ends (s : State) : (Flow.ends s).toOutcome = .next s := rfl
@[simp] theorem Flow.toOutcome_stuck (s : State) : (Flow.stuck s).toOutcome = .fault (.stuck s) := rfl

/-- Sequencing, for what holds of the states: the second flow starts where the first goes on. -/
theorem Flow.Sat.andThen {f : Flow} {k : State → Flow} {P P' Q R : State → Prop} (h : f.Sat P Q R)
    (hk : ∀ s, P s → (k s).Sat P' Q R) : (f.andThen k).Sat P' Q R := by
  cases f with
  | go s => exact hk s h
  | ends s => exact h
  | stuck s => exact h

theorem Flow.Sat.imp {f : Flow} {P P' Q Q' R R' : State → Prop} (h : f.Sat P Q R) (hP : ∀ s, P s → P' s)
    (hQ : ∀ s, Q s → Q' s) (hR : ∀ s, R s → R' s) : f.Sat P' Q' R' := by
  cases f with
  | go s => exact hP s h
  | ends s => exact hQ s h
  | stuck s => exact hR s h

theorem Flow.Sat.and {f : Flow} {P P' Q Q' R R' : State → Prop} (h : f.Sat P Q R) (h' : f.Sat P' Q' R') :
    f.Sat (fun s => P s ∧ P' s) (fun s => Q s ∧ Q' s) (fun s => R s ∧ R' s) := by
  cases f <;> exact ⟨h, h'⟩

theorem Flow.andThen_assoc (f : Flow) (k l : State → Flow) :
    (f.andThen k).andThen l = f.andThen fun s => (k s).andThen l := by
  cases f <;> rfl

/-- A flow that answers a next state went on or ended. -/
theorem Flow.Sat.of_next {f : Flow} {P Q R : State → Prop} (h : f.Sat P Q R) {t : State}
    (e : f.toOutcome = .next t) : P t ∨ Q t := by
  cases f with
  | go s => cases e; exact .inl h
  | ends s => cases e; exact .inr h
  | stuck s => cases e

/-- A flow that faults is stuck. -/
theorem Flow.Sat.of_fault {f : Flow} {P Q R : State → Prop} (h : f.Sat P Q R) {r : Fault}
    (e : f.toOutcome = .fault r) : ∃ u, r = .stuck u ∧ R u := by
  cases f with
  | go s => cases e
  | ends s => cases e
  | stuck s => cases e; exact ⟨s, rfl, h⟩

theorem Flow.toOutcome_ne_refused (f : Flow) (r : Refusal) : f.toOutcome ≠ .refused r := by
  cases f <;> simp [Flow.toOutcome]

/-! ### Commit -/

theorem commit_ok {s : State} (h : nextAnswer s = .ok) : commit s = .go (storeBlock (issueCommit s)) := by
  simp [commit, h]

theorem commit_writeFault {s : State} (h : nextAnswer s = .writeFault) :
    commit s = .ends (raiseWriteFault (spoilBlock (issueCommit s))) := by
  simp [commit, h]

theorem commit_never {s : State} (h : nextAnswer s = .never) : commit s = .stuck (spoilBlock (issueCommit s)) := by
  simp [commit, h]

/-- Everything a commit can do, by its answer. -/
theorem commit_sat (s : State) :
    (commit s).Sat (fun t => nextAnswer s = .ok ∧ t = storeBlock (issueCommit s))
      (fun t => nextAnswer s = .writeFault ∧ t = raiseWriteFault (spoilBlock (issueCommit s)))
      (fun t => nextAnswer s = .never ∧ t = spoilBlock (issueCommit s)) := by
  cases h : nextAnswer s <;> simp [commit, h]

/-- Everything `finish()` can do, by the answer of its commit (R146). -/
theorem finish_sat (s : State) :
    (finish s).Sat
      (fun t => nextAnswer s = .ok ∧
        t = handoff (drain (sendBannerHandoff (sendProgress (storeBlock (issueCommit s))))))
      (fun t => nextAnswer s = .writeFault ∧ t = raiseWriteFault (spoilBlock (issueCommit s)))
      (fun t => nextAnswer s = .never ∧ t = spoilBlock (issueCommit s)) := by
  cases h : nextAnswer s <;> simp [finish, finalFlush, commitAndReport, commit, h]

/-- The answers shift by the commits issued: after `n` of them the next is the one `n` places on. -/
theorem answerOf_shift {s t : State} {n : Nat} (h : t.answers = s.answers.drop n)
    (h' : t.answersTaken = s.answersTaken + n) (k : Nat) : answerOf t k = answerOf s (n + k) := by
  simp [answerOf, h, h', List.getD_eq_getElem?_getD, Nat.add_assoc]

/-- Answers depend on the list and the count only. -/
theorem answerOf_congr {s t : State} (h : t.answers = s.answers) (h' : t.answersTaken = s.answersTaken) (k : Nat) :
    answerOf t k = answerOf s k := by
  simp [answerOf, h, h']

theorem nextAnswer_congr {s t : State} (h : t.answers = s.answers) (h' : t.answersTaken = s.answersTaken) :
    nextAnswer t = nextAnswer s :=
  answerOf_congr h h' 0

theorem answerOf_issueCommit (s : State) (k : Nat) : answerOf (issueCommit s) k = answerOf s (k + 1) := by
  rw [answerOf_shift (s := s) (n := 1) (by simp) rfl, Nat.add_comm]

/-- A listed answer comes before any free one. -/
theorem answerOf_listed {s : State} {k : Nat} {a : CommitAnswer} (h : s.answers[k]? = some a) : answerOf s k = a := by
  simp [answerOf, List.getD_eq_getElem?_getD, h]

theorem OkFor.next {n : Nat} {s : State} (h : OkFor n s) (hn : 0 < n) : nextAnswer s = .ok := h 0 hn

theorem OkFor.mono {m n : Nat} {s : State} (h : OkFor n s) (hm : m ≤ n) : OkFor m s := fun k hk =>
  h k (Nat.lt_of_lt_of_le hk hm)

/-- After a commit one answer fewer is to come. -/
theorem OkFor.tail {n : Nat} {s t : State} (h : OkFor (n + 1) s) (e : t.answers = s.answers.tail)
    (e' : t.answersTaken = s.answersTaken + 1) : OkFor n t := fun k hk => by
  rw [answerOf_shift (n := 1) (by simpa using e) e', Nat.add_comm]
  exact h (k + 1) (Nat.succ_lt_succ hk)

theorem mem_insertBlock {b c : Addr} {l : List Addr} : c ∈ insertBlock b l ↔ c = b ∨ c ∈ l := by
  induction l with
  | nil => simp [insertBlock]
  | cons d l ih =>
    unfold insertBlock
    split
    · simp
    · split
      · rename_i h; subst h; simp
      · simp only [List.mem_cons, ih]; tauto

theorem mem_removeBlock {b c : Addr} {l : List Addr} : c ∈ removeBlock b l ↔ c ≠ b ∧ c ∈ l := by
  induction l with
  | nil => simp [removeBlock]
  | cons d l ih =>
    unfold removeBlock
    split
    · rename_i h; subst h; rw [ih, List.mem_cons]; tauto
    · rename_i h
      simp only [List.mem_cons, ih]
      constructor
      · rintro (rfl | h')
        · exact ⟨h, .inl rfl⟩
        · exact ⟨h'.1, .inr h'.2⟩
      · rintro ⟨h1, h2 | h2⟩
        · exact .inl h2
        · exact .inr ⟨h1, h2⟩

/-! ### Positions and feeding -/

theorem position_eq_length {s : State} : position s = some .length ↔ s.offset.toNat = 0 := by
  unfold position; split <;> (try split) <;> (try split) <;> simp_all

theorem position_eq_addrHi {s : State} : position s = some .addrHi ↔ s.offset.toNat = 1 := by
  unfold position; split <;> (try split) <;> (try split) <;> simp_all

theorem position_eq_addrLo {s : State} : position s = some .addrLo ↔ s.offset.toNat = 2 := by
  unfold position; split <;> (try split) <;> (try split) <;> simp_all

theorem position_eq_type {s : State} : position s = some .type ↔ s.offset.toNat = 3 := by
  unfold position; split <;> (try split) <;> (try split) <;> simp_all

theorem position_eq_data {s : State} :
    position s = some .data ↔ 4 ≤ s.offset.toNat ∧ s.offset.toNat < 4 + s.recLength.toNat := by
  unfold position; split <;> (try split) <;> (try split) <;> simp_all; omega

theorem position_eq_terminator {s : State} :
    position s = some .terminator ↔ s.offset.toNat = 4 + s.recLength.toNat := by
  unfold position; split <;> (try split) <;> (try split) <;> simp_all <;> omega

theorem position_eq_none {s : State} :
    position s = none ↔ 4 + s.recLength.toNat < s.offset.toNat ∧ 4 ≤ s.offset.toNat := by
  unfold position; split <;> (try split) <;> (try split) <;> simp_all <;> omega

/-- A position depends on the offset and the length only. -/
theorem position_congr {s t : State} (h : t.offset = s.offset) (h' : t.recLength = s.recLength) :
    position t = position s := by
  simp [position, h, h']

theorem feedWhenAt_of {p : Position} {s : State} (b : Byte) (h : polls s.fsm = true) (hp : position s = some p) :
    feedWhenAt p b s = .next (feedAt p b s) := by
  simp [feedWhenAt, whilePolling, h, hp]

theorem feedWhenAt_not {p : Position} {s : State} (b : Byte) (h : polls s.fsm = true) (hp : position s ≠ some p) :
    feedWhenAt p b s = .refused .notSelected := by
  simp [feedWhenAt, whilePolling, h, hp]

/-- The byte a polling state is fed goes to the position its offset selects. -/
theorem feedByte_of {p : Position} {s : State} (b : Byte) (h : polls s.fsm = true) (hp : position s = some p) :
    feedByte b s = .next (feedAt p b s) := by
  unfold feedByte
  cases p <;> simp only [hp] <;> exact feedWhenAt_of b h hp

theorem feedByte_none {s : State} (b : Byte) (hp : position s = none) : feedByte b s = .fault .feedPastRecordEnd := by
  simp [feedByte, hp]

/-- The record is complete exactly after its terminator (R97). -/
theorem recordEvent_feedAt {p : Position} {s : State} (b : Byte) (hp : position s = some p) :
    recordEvent (feedAt p b s) = if p = .terminator then .recordComplete (s.sum + b == 0) else .inProgress := by
  have hl := s.recLength.isLt
  have hb := b.isLt
  unfold recordEvent
  simp only [feedAt_offset, feedAt_recLength, checksumOk, feedAt_sum, BitVec.toNat_add]
  cases p <;> simp only [reduceCtorEq, if_true, if_false]
  · rw [position_eq_length.mp hp]; split
    · rename_i h; simp at h; omega
    · rfl
  · rw [position_eq_addrHi.mp hp]; split
    · rename_i h; simp at h; omega
    · rfl
  · rw [position_eq_addrLo.mp hp]; split
    · rename_i h; simp at h; omega
    · rfl
  · rw [position_eq_type.mp hp]; split
    · rename_i h; simp at h; omega
    · rfl
  · have := position_eq_data.mp hp; split
    · rename_i h; simp at h; omega
    · rfl
  · have := position_eq_terminator.mp hp; split
    · rfl
    · rename_i h; simp at h; omega

/-- A byte fed before the terminator joins the bytes consumed (R28, R31). -/
theorem consumed_feedAt {p : Position} {b : Byte} {s : State} (h : position s = some p)
    (hp : p ≠ .terminator) : consumed (feedAt p b s) = consumed s ++ [b] := by
  have hl := s.recLength.isLt
  unfold consumed
  cases p with
  | terminator => exact absurd rfl hp
  | length =>
    rw [position_eq_length] at h
    simp [feedAt, storeField, h]
  | addrHi =>
    rw [position_eq_addrHi] at h
    simp [feedAt, storeField, h]
  | addrLo =>
    rw [position_eq_addrLo] at h
    simp [feedAt, storeField, h]
  | type =>
    rw [position_eq_type] at h
    simp [feedAt, storeField, h]
  | data =>
    rw [position_eq_data] at h
    obtain ⟨k, hk⟩ : ∃ k, s.offset.toNat = k + 4 := ⟨s.offset.toNat - 4, by omega⟩
    have : (s.offset + 1).toNat = (k+1) + 4 := by rw [BitVec.toNat_add, hk]; simp; omega
    have hk' : k < 256 := by omega
    have h2 : (feedAt .data b s).offset.toNat = k + 5 := by rw [feedAt_offset, this]
    rw [h2, hk]
    simp [feedAt, storeField, hk]
    rw [List.take_succ_eq_append_getElem (by simpa using hk')]
    simp only [List.getElem_set_self, List.append_cancel_right_eq]
    rw [List.take_set, List.set_eq_of_length_le (by simp)]

/-! ### Characters -/

/-- The state a hex character makes before its nibble counts (R134). -/
def hexArmed (s : State) : State := { armTimeout s with fsm := .accumulatingRecord }

@[simp] theorem hexArmed_fsm (s : State) : (hexArmed s).fsm = .accumulatingRecord := rfl

/-- The state in which a second nibble's byte is fed: armed, the phase back at high. -/
def hexPaired (s : State) : State := pairLo (hexArmed s)

/-- Everything a hex character can do in a state that polls. -/
theorem hexChar_high {s : State} (v : Nibble) (h : polls s.fsm = true) (hp : s.nibPhase = .high) :
    hexChar v s = .next (pairHi v (hexArmed s)) := by
  simp [hexChar, whilePolling, h, hp, hexArmed]

theorem hexChar_low {s : State} (v : Nibble) (h : polls s.fsm = true) (hp : s.nibPhase = .low) :
    hexChar v s = thenRun (feedByte (joinNibbles s.hiNib v) (hexPaired s)) afterFeed := by
  simp [hexChar, whilePolling, h, hp, hexArmed, hexPaired, pairedByte, armTimeout, emit]

theorem position_hexPaired (s : State) : position (hexPaired s) = position s := rfl

theorem hexChar_low_none {s : State} (v : Nibble) (h : polls s.fsm = true) (hp : s.nibPhase = .low)
    (hn : position s = none) : hexChar v s = .fault .feedPastRecordEnd := by
  rw [hexChar_low v h hp, feedByte_none _ (by rw [position_hexPaired, hn])]
  rfl

theorem hexChar_low_inProgress {s : State} (v : Nibble) {p : Position} (h : polls s.fsm = true)
    (hp : s.nibPhase = .low) (hs : position s = some p) (hne : p ≠ .terminator) :
    hexChar v s = .next (feedAt p (joinNibbles s.hiNib v) (hexPaired s)) := by
  have hs' : position (hexPaired s) = some p := by rw [position_hexPaired, hs]
  rw [hexChar_low v h hp, feedByte_of _ rfl hs']
  simp [thenRun, afterFeed, recordEvent_feedAt _ hs', hne]

theorem hexChar_low_complete {s : State} (v : Nibble) (h : polls s.fsm = true) (hp : s.nibPhase = .low)
    (hs : position s = some .terminator) :
    hexChar v s = completeRecord (feedAt .terminator (joinNibbles s.hiNib v) (hexPaired s)) := by
  have hs' : position (hexPaired s) = some .terminator := by rw [position_hexPaired, hs]
  rw [hexChar_low v h hp, feedByte_of _ rfl hs']
  simp [thenRun, afterFeed, recordEvent_feedAt _ hs']

/-- A completed record runs as the row it is. -/
theorem completeRecord_eq (s : State) : completeRecord s = exec (completedRecord s) s := by
  unfold completeRecord completedRecord
  split
  · split
    · rfl
    · split <;> rfl
  · rfl

/-- Everything a completed record can do in a state that polls. -/
theorem completeRecord_cases {s : State} (h : polls s.fsm = true) :
    (s.sum ≠ 0 ∧ completeRecord s = .next (raiseChecksumMismatch s)) ∨
    (s.sum = 0 ∧ s.recType = 0x01 ∧ completeRecord s = (finish s).toOutcome) ∨
    (s.sum = 0 ∧ s.recType = 0x00 ∧ completeRecord s = ((applyPayload (recordAddress s.recAddrHi s.recAddrLo) (payload s) s).andThen
      fun s => .go (lineRestart s)).toOutcome) ∨
    (s.sum = 0 ∧ s.recType ≠ 0x01 ∧ s.recType ≠ 0x00 ∧ completeRecord s = .next (lineRestart s)) := by
  have hw : ∀ o, whilePolling s o = o := fun o => by simp [whilePolling, h]
  by_cases hs : s.sum = 0
  · by_cases h1 : s.recType = 0x01
    · exact .inr (.inl ⟨hs, h1, by simp [completeRecord, checksumOk, hs, h1, execRecEos, hw]⟩)
    · by_cases h0 : s.recType = 0x00
      · exact .inr (.inr (.inl ⟨hs, h0, by simp [completeRecord, checksumOk, hs, h0, execRecData, hw]⟩))
      · refine .inr (.inr (.inr ⟨hs, h1, h0, ?_⟩))
        unfold completeRecord
        rw [if_pos (by simp [checksumOk, hs]), if_neg h1, if_neg h0, execRecNop, hw]
  · refine .inl ⟨hs, ?_⟩
    unfold completeRecord
    rw [if_neg (by simpa [checksumOk] using hs), execRecBadsum, hw]

/-! ### The rows of the 16 hex characters -/

/-- A hex row runs as a hex character of its nibble. -/
theorem exec_hexRow {r : Instr × Nibble} (hr : r ∈ hexRows) (s : State) : exec r.1 s = hexChar r.2 s := by
  revert r
  simp only [hexRows, List.forall_mem_cons]
  exact ⟨rfl, rfl, rfl, rfl, rfl, rfl, rfl, rfl, rfl, rfl, rfl, rfl, rfl, rfl, rfl, rfl, by simp⟩

theorem exec_hexInstr (v : Nibble) (s : State) : exec (hexInstr v) s = hexChar v s :=
  exec_hexRow (mem_hexRows v) s

/-! ### Polling -/

theorem whilePolling_of {s : State} (o : Host.Outcome State Fault Refusal) (h : polls s.fsm = true) :
    whilePolling s o = o := by
  simp [whilePolling, h]

theorem whilePolling_terminal {s : State} (o : Host.Outcome State Fault Refusal) (h : polls s.fsm = false) :
    whilePolling s o = .next s := by
  simp [whilePolling, h]

theorem exec_recData {s : State} (hi lo : Byte) (data : List Byte) (h : polls s.fsm = true) :
    exec (.recData hi lo data) s =
      ((applyPayload (recordAddress hi lo) data s).andThen fun s => .go (lineRestart s)).toOutcome :=
  whilePolling_of _ h

theorem exec_recEos {s : State} (hi lo : Byte) (data : List Byte) (h : polls s.fsm = true) :
    exec (.recEos hi lo data) s = (finish s).toOutcome :=
  whilePolling_of _ h

theorem exec_timeoutIdle {s : State} (h : s.fsm = .awaitingLine) :
    exec .timeoutIdle s = (finish { s with timerArmed := false }).toOutcome :=
  (whilePolling_of _ (by rw [h]; rfl)).trans (if_pos h)

theorem exec_timeoutMidrec {s : State} (h : s.fsm = .accumulatingRecord) :
    exec .timeoutMidrec s = .next (raiseTimeoutMidRecord { s with timerArmed := false }) :=
  (whilePolling_of _ (by rw [h]; rfl)).trans (if_pos h)

theorem step_event {s : State} {e : Event} {rest : List Input} (h : polls s.fsm = true)
    (hi : s.inbox = .event e :: rest) : step s = exec (selectInstr s e) { s with inbox := rest } := by
  simp [step, poll, h, hi]

theorem step_reset {s : State} {again : List Nat} {rest : List Input} (h : polls s.fsm = true)
    (hi : s.inbox = .externalReset again :: rest) : step s = .next (sessionEntries again { s with inbox := rest }) := by
  simp [step, poll, h, hi]

/-- A step cut by a reset. -/
theorem step_cut {s : State} {e : Event} {count : Nat} {inCommit : Bool} {again : List Nat} {rest : List Input}
    (h : polls s.fsm = true) (hi : s.inbox = .resetDuring e count inCommit again :: rest) :
    step s = .next (cutStep (exec (selectInstr s e) { s with inbox := rest }) count inCommit again
      { s with inbox := rest }) := by
  simp [step, poll, h, hi]

theorem step_idle {s : State} (h : polls s.fsm = true) (hi : s.inbox = []) : step s = .next s := by
  simp [step, poll, h, hi]

/-- A step on a hex character. -/
theorem step_hex {s : State} {c : Byte} {v : Nibble} {rest : List Input} (h : polls s.fsm = true)
    (hi : s.inbox = .event (.byteReceived c) :: rest) (hn : nib c = .valid v) :
    step s = hexChar v { s with inbox := rest } := by
  rw [step_event h hi, selectInstr, decodeChar, hn, exec_hexInstr]

/-- A step on a character of any other code. -/
theorem step_nonhex {s : State} {c : Byte} {rest : List Input} (h : polls s.fsm = true)
    (hi : s.inbox = .event (.byteReceived c) :: rest) (hn : nib c = .invalid) :
    step s = .next (lineRestart { s with inbox := rest }) := by
  rw [step_event h hi, selectInstr, decodeChar, hn]
  exact whilePolling_of _ h

/-- A step on a timeout at a line start. -/
theorem step_timeoutIdle {s : State} {rest : List Input} (h : s.fsm = .awaitingLine)
    (hi : s.inbox = .event .timedOut :: rest) :
    step s = (finish { s with inbox := rest, timerArmed := false }).toOutcome := by
  rw [step_event (by rw [h]; rfl) hi, selectInstr, if_pos h]
  exact exec_timeoutIdle h

/-- A step on a timeout in the middle of a record. -/
theorem step_timeoutMidrec {s : State} {rest : List Input} (h : s.fsm = .accumulatingRecord)
    (hi : s.inbox = .event .timedOut :: rest) :
    step s = .next (raiseTimeoutMidRecord { s with inbox := rest, timerArmed := false }) := by
  rw [step_event (by rw [h]; rfl) hi, selectInstr, if_neg (by rw [h]; decide)]
  exact exec_timeoutMidrec h

/-- A state that polls is at a line start or in the middle of a record. -/
theorem polls_cases {s : State} (h : polls s.fsm = true) : s.fsm = .awaitingLine ∨ s.fsm = .accumulatingRecord := by
  cases hf : s.fsm <;> simp_all [polls]

/-- Everything a hex character can do in a state that polls. -/
theorem hexChar_cases {s : State} (v : Nibble) (h : polls s.fsm = true) :
    (s.nibPhase = .high ∧ hexChar v s = .next (pairHi v (hexArmed s))) ∨
    (s.nibPhase = .low ∧ ∃ p, position s = some p ∧ p ≠ .terminator ∧
      hexChar v s = .next (feedAt p (joinNibbles s.hiNib v) (hexPaired s))) ∨
    (s.nibPhase = .low ∧ position s = none ∧ hexChar v s = .fault .feedPastRecordEnd) ∨
    (s.nibPhase = .low ∧ position s = some .terminator ∧
      ∃ u, u = feedAt .terminator (joinNibbles s.hiNib v) (hexPaired s) ∧
        ((u.sum ≠ 0 ∧ hexChar v s = .next (raiseChecksumMismatch u)) ∨
         (u.sum = 0 ∧ u.recType = 0x01 ∧ hexChar v s = (finish u).toOutcome) ∨
         (u.sum = 0 ∧ u.recType = 0x00 ∧ hexChar v s = ((applyPayload (recordAddress u.recAddrHi u.recAddrLo) (payload u) u).andThen
            fun s => .go (lineRestart s)).toOutcome) ∨
         (u.sum = 0 ∧ u.recType ≠ 0x01 ∧ u.recType ≠ 0x00 ∧ hexChar v s = .next (lineRestart u)))) := by
  cases hn : s.nibPhase with
  | high => exact .inl ⟨rfl, hexChar_high v h hn⟩
  | low =>
    cases hq : position s with
    | none => exact .inr (.inr (.inl ⟨rfl, rfl, hexChar_low_none v h hn hq⟩))
    | some p =>
      by_cases hp : p = .terminator
      · subst hp
        refine .inr (.inr (.inr ⟨rfl, rfl, _, rfl, ?_⟩))
        rw [hexChar_low_complete v h hn hq]
        exact completeRecord_cases rfl
      · exact .inr (.inl ⟨rfl, p, rfl, hp, hexChar_low_inProgress v h hn hq hp⟩)

/-- Everything a step can do in a state that polls. -/
theorem step_cases {s : State} (h : polls s.fsm = true) :
    (s.inbox = [] ∧ step s = .next s) ∨
    (∃ again rest, s.inbox = .externalReset again :: rest ∧
      step s = .next (sessionEntries again { s with inbox := rest })) ∨
    (∃ c v rest, s.inbox = .event (.byteReceived c) :: rest ∧ nib c = .valid v ∧
      step s = hexChar v { s with inbox := rest }) ∨
    (∃ c rest, s.inbox = .event (.byteReceived c) :: rest ∧ nib c = .invalid ∧
      step s = .next (lineRestart { s with inbox := rest })) ∨
    (∃ rest, s.inbox = .event .timedOut :: rest ∧ s.fsm = .awaitingLine ∧
      step s = (finish { s with inbox := rest, timerArmed := false }).toOutcome) ∨
    (∃ rest, s.inbox = .event .timedOut :: rest ∧ s.fsm = .accumulatingRecord ∧
      step s = .next (raiseTimeoutMidRecord { s with inbox := rest, timerArmed := false })) ∨
    (∃ e count inCommit again rest, s.inbox = .resetDuring e count inCommit again :: rest ∧
      step s = .next (cutStep (exec (selectInstr s e) { s with inbox := rest }) count inCommit again
        { s with inbox := rest })) := by
  match hi : s.inbox with
  | [] => exact .inl ⟨rfl, step_idle h hi⟩
  | .externalReset again :: rest => exact .inr (.inl ⟨again, rest, rfl, step_reset h hi⟩)
  | .event (.byteReceived c) :: rest =>
    cases hn : nib c with
    | valid v => exact .inr (.inr (.inl ⟨c, v, rest, rfl, hn, step_hex h hi hn⟩))
    | invalid => exact .inr (.inr (.inr (.inl ⟨c, rest, rfl, hn, step_nonhex h hi hn⟩)))
  | .event .timedOut :: rest =>
    rcases polls_cases h with hf | hf
    · exact .inr (.inr (.inr (.inr (.inl ⟨rest, rfl, hf, step_timeoutIdle hf hi⟩))))
    · exact .inr (.inr (.inr (.inr (.inr (.inl ⟨rest, rfl, hf, step_timeoutMidrec hf hi⟩)))))
  | .resetDuring e count inCommit again :: rest =>
    exact .inr (.inr (.inr (.inr (.inr (.inr ⟨e, count, inCommit, again, rest, rfl, step_cut h hi⟩)))))

/-- What the inputs do to a state that does not poll: nothing without a reset; with one, the session entries it starts. -/
theorem afterReset_cases (s : State) (is : List Input) :
    ((∀ x ∈ is, ∃ e, x = .event e) ∧ afterReset s is = .idle) ∨
    (∃ (es : List Event) (x : Input) (again : List Nat) (rest : List Input),
      is = es.map Input.event ++ x :: rest ∧
      (x = .externalReset again ∨ ∃ e count inCommit, x = .resetDuring e count inCommit again) ∧
      afterReset s is = .reset again { s with inbox := rest }) := by
  induction is with
  | nil => exact .inl ⟨by simp, rfl⟩
  | cons x is ih =>
    cases x with
    | externalReset again => exact .inr ⟨[], _, again, is, rfl, .inl rfl, rfl⟩
    | resetDuring e count inCommit again => exact .inr ⟨[], _, again, is, rfl, .inr ⟨e, count, inCommit, rfl⟩, rfl⟩
    | event e =>
      rcases ih with ⟨h, hi⟩ | ⟨es, x, again, rest, rfl, hx, hi⟩
      · exact .inl ⟨by simpa using h, hi⟩
      · exact .inr ⟨e :: es, x, again, rest, rfl, hx, hi⟩

/-- Everything a step can do in a state that does not poll. -/
theorem step_terminal_cases {s : State} (h : polls s.fsm = false) :
    ((∀ x ∈ s.inbox, ∃ e, x = .event e) ∧ step s = .next s) ∨
    (∃ (es : List Event) (x : Input) (again : List Nat) (rest : List Input),
      s.inbox = es.map Input.event ++ x :: rest ∧
      (x = .externalReset again ∨ ∃ e count inCommit, x = .resetDuring e count inCommit again) ∧
      step s = .next (sessionEntries again { s with inbox := rest })) := by
  rcases afterReset_cases s s.inbox with ⟨hi, hp⟩ | ⟨es, x, again, rest, hi, hx, hp⟩
  · exact .inl ⟨hi, by simp [step, poll, h, hp]⟩
  · exact .inr ⟨es, x, again, rest, hi, hx, by simp [step, poll, h, hp]⟩

end Sys2Proof.Machine
end

