-- ==== Sys2Proof/Laws/Block.lean ====
section
/-! SUPPORT. The arithmetic of blocks (R11, R110, R111): base and index of an address, what lies inside an aligned block, and what
a block write, a commit and a load leave in terms of them. -/

namespace Sys2Proof.Machine

theorem blockMask_toNat (p : Params) : (blockMask p).toNat = 2 ^ p.blockBits.val - 1 := by
  have := blockSize_le p
  have := blockSize_pos p
  unfold blockSize at *
  simp [blockMask]; omega

/-- The index is the remainder (R111). -/
theorem blockIndex_eq (p : Params) (a : Addr) : blockIndex p a = a.toNat % blockSize p := by
  unfold blockIndex blockSize
  rw [BitVec.toNat_and, blockMask_toNat, Nat.and_two_pow_sub_one_eq_mod]

/-- Base and index make the address. -/
theorem blockBase_add_index (p : Params) (a : Addr) : blockBase p a + (a &&& blockMask p) = a := by
  unfold blockBase
  rw [BitVec.add_eq_or_of_and_eq_zero]
  · ext i; simp; cases a[i] <;> cases (blockMask p)[i] <;> rfl
  · ext i; simp; tauto

theorem blockBase_toNat (p : Params) (a : Addr) : (blockBase p a).toNat + blockIndex p a = a.toNat := by
  have h := congrArg BitVec.toNat (blockBase_add_index p a)
  have h1 : (blockBase p a).toNat ≤ a.toNat := by unfold blockBase; rw [BitVec.toNat_and]; exact Nat.and_le_left
  have h2 : (a &&& blockMask p).toNat ≤ a.toNat := by rw [BitVec.toNat_and]; exact Nat.and_le_left
  rw [BitVec.toNat_add] at h
  have := a.isLt
  unfold blockIndex
  omega

/-- The base is the multiple of the block size at or below the address (R110). -/
theorem blockBase_eq (p : Params) (a : Addr) : (blockBase p a).toNat = a.toNat / blockSize p * blockSize p := by
  have h := blockBase_toNat p a
  rw [blockIndex_eq] at h
  have := Nat.div_add_mod a.toNat (blockSize p)
  rw [Nat.mul_comm] at this
  omega

theorem blockIndex_lt (p : Params) (a : Addr) : blockIndex p a < blockSize p := by
  rw [blockIndex_eq]; exact Nat.mod_lt _ (blockSize_pos p)

theorem addr_eq_base_add (p : Params) (a : Addr) : a = blockBase p a + BitVec.ofNat 16 (blockIndex p a) := by
  conv_lhs => rw [← blockBase_add_index p a]
  congr 1
  unfold blockIndex; simp

theorem base_base (p : Params) (a : Addr) : blockBase p (blockBase p a) = blockBase p a := by
  unfold blockBase; ext i; simp

theorem base_aligned (p : Params) (a : Addr) : blockBase p a &&& blockMask p = 0 := by
  unfold blockBase; ext i; simp

/-- An aligned block is its own base (R23). -/
theorem base_of_aligned {p : Params} {b : Addr} (h : b &&& blockMask p = 0) : blockBase p b = b := by
  have := blockBase_add_index p b
  rw [h] at this; simpa using this

theorem dvd_of_aligned {p : Params} {b : Addr} (h : b &&& blockMask p = 0) : b.toNat % blockSize p = 0 := by
  rw [← blockIndex_eq]; unfold blockIndex; rw [h]; rfl

/-- The bytes of an aligned block have it as base, and their place as index. -/
theorem block_inside {p : Params} {b : Addr} (h : b &&& blockMask p = 0) {k : Nat} (hk : k < blockSize p) :
    blockBase p (b + BitVec.ofNat 16 k) = b ∧ blockIndex p (b + BitVec.ofNat 16 k) = k := by
  have hd := dvd_of_aligned h
  have hle := blockSize_le p
  have hlt := b.isLt
  have hs : blockSize p ∣ 65536 := by
    unfold blockSize
    exact (Nat.pow_dvd_pow 2 (Nat.le_of_lt_succ p.blockBits.isLt))
  obtain ⟨q, hq⟩ := hs
  obtain ⟨c, hc⟩ := Nat.dvd_of_mod_eq_zero hd
  have hsum : (b + BitVec.ofNat 16 k).toNat = b.toNat + k := by
    rw [BitVec.toNat_add, BitVec.toNat_ofNat, Nat.mod_eq_of_lt (a := k) (by omega), Nat.mod_eq_of_lt]
    have : c < q := by
      have : blockSize p * c < blockSize p * q := by omega
      exact Nat.lt_of_mul_lt_mul_left this
    have : blockSize p * (c+1) ≤ blockSize p * q := Nat.mul_le_mul_left _ this
    rw [Nat.mul_add] at this
    omega
  refine ⟨?_, ?_⟩
  · apply BitVec.eq_of_toNat_eq
    rw [blockBase_eq, hsum, hc, Nat.mul_add_div (blockSize_pos p), Nat.div_eq_of_lt hk]
    rw [Nat.add_zero, Nat.mul_comm]
  · rw [blockIndex_eq, hsum, hc, Nat.mul_add_mod, Nat.mod_eq_of_lt hk]

/-- Base and index tell an address apart. -/
theorem eq_of_base_index {p : Params} {a b : Addr} (h : blockBase p a = blockBase p b)
    (h' : blockIndex p a = blockIndex p b) : a = b := by
  rw [addr_eq_base_add p a, addr_eq_base_add p b, h, h']

/-- A read after a block write. -/
theorem read_block_write {p : Params} {m : Memory} (hm : Memory.wf m) {b : Addr} (hb : b &&& blockMask p = 0)
    {d : List Byte} (hd : d.length = blockSize p) (a : Addr) :
    (m.writeBytes b d).read a.toNat =
      if blockBase p a = b then d.getD (blockIndex p a) Config.unlistedByte else m.read a.toNat := by
  split
  · rename_i h
    have hk := blockIndex_lt p a
    conv_lhs => rw [addr_eq_base_add p a, h]
    rw [Memory.read_writeBytes_self hm b d (hd ▸ blockSize_le p) (k := blockIndex p a) (by omega)]
    simp [List.getD_eq_getElem?_getD, List.getElem?_eq_getElem (show blockIndex p a < d.length by omega)]
  · rename_i h
    refine Memory.read_writeBytes_other _ _ _ fun k hk e => h ?_
    rw [e]; exact (block_inside hb (by omega)).1

/-- What a load of a block holds at an address of the block. -/
theorem block_getD {p : Params} {m : Memory} {b a : Addr} (h : blockBase p a = b) :
    (Memory.block p m b).getD (blockIndex p a) Config.unlistedByte = m.read a.toNat := by
  have hk := blockIndex_lt p a
  rw [List.getD_eq_getElem?_getD, List.getElem?_eq_getElem (by simpa using hk)]
  simp only [Option.getD_some]
  rw [show (Memory.block p m b)[blockIndex p a]'(by simpa using hk) =
    m.read (b + BitVec.ofNat 16 (blockIndex p a)).toNat from Memory.getElem_readBytes _ _ _ _ _]
  rw [← h, ← addr_eq_base_add]

/-- After a commit answered Ok, memory holds what the stream has left (R113). -/
theorem store_read {s : State} (h1 : BlockAligned s) (h2 : BufferSized s) (h3 : Memory.wf s.nv) (a : Addr) :
    (Memory.writeBytes s.nv s.currentBlock s.buf).read a.toNat = logicalByte s a := by
  rw [read_block_write h3 h1 h2]; rfl

/-- After a commit that did not succeed, memory outside the block is as it was (R114). -/
theorem spoil_read {s : State} (h1 : BlockAligned s) (h3 : Memory.wf s.nv) (a : Addr)
    (ha : blockBase s.params a ≠ s.currentBlock) :
    (Memory.writeBytes s.nv s.currentBlock (freeBytes s.freeCount (blockSize s.params))).read a.toNat =
      s.nv.read a.toNat := by
  rw [read_block_write h3 h1 (by simp), if_neg ha]

theorem commitAndReport_ok {s : State} (h : nextAnswer s = .ok) :
    commitAndReport s = .go (sendProgress (storeBlock (issueCommit s))) := by
  simp [commitAndReport, commit_ok h]

theorem finish_ok {s : State} (h : nextAnswer s = .ok) :
    finish s = .go (handoff (drain (sendBannerHandoff (sendProgress (storeBlock (issueCommit s)))))) := by
  simp [finish, finalFlush, commitAndReport_ok h]

/-- A commit keeps memory in canonical form, whatever its answer. -/
theorem wf_storeBlock {s : State} (h : Memory.wf s.nv) : Memory.wf (storeBlock s).nv := Memory.wf_writeBytes h _ _

theorem wf_spoilBlock {s : State} (h : Memory.wf s.nv) : Memory.wf (spoilBlock s).nv := Memory.wf_writeBytes h _ _

theorem wf_reset : Memory.wf State.reset.nv := Memory.wf_nil

end Sys2Proof.Machine
end

