-- ==== Sys2Proof/Laws/Apply.lean ====
section
/-! SUPPORT. What applying payload can do (R112, R119, R141): the inside write, the crossing by its commit's answer, and the
induction over a payload, packaged once. -/

namespace Sys2Proof.Machine

/-- The part of the invariant that applying payload needs and keeps. -/
abbrev Core (s : State) : Prop := BlockAligned s ∧ BufferSized s ∧ Memory.wf s.nv

/-- The state a crossing whose commit is answered Ok leaves (R112). -/
def crossed (new : Addr) (s : State) : State :=
  sendXon (load new (sendProgress (storeBlock (issueCommit (sendXoff s)))))

/-- The state inside a crossing whose commit did not succeed (R114, R115). -/
def cutInCrossing (s : State) : State := spoilBlock (issueCommit (sendXoff s))

theorem crossing_ok (new : Addr) {s : State} (h : nextAnswer s = .ok) : crossing new s = .go (crossed new s) := by
  have h' : nextAnswer (sendXoff s) = .ok := h
  simp [crossing, commitAndReport_ok h', crossed]

theorem crossing_writeFault (new : Addr) {s : State} (h : nextAnswer s = .writeFault) :
    crossing new s = .ends (raiseWriteFault (cutInCrossing s)) := by
  have h' : nextAnswer (sendXoff s) = .writeFault := h
  simp [crossing, commitAndReport, commit_writeFault h', cutInCrossing]

theorem crossing_never (new : Addr) {s : State} (h : nextAnswer s = .never) :
    crossing new s = .stuck (cutInCrossing s) := by
  have h' : nextAnswer (sendXoff s) = .never := h
  simp [crossing, commitAndReport, commit_never h', cutInCrossing]

theorem applyByte_inside {s : State} {a : Addr} (v : Byte) (h : blockBase s.params a = s.currentBlock) :
    applyByte a v s = .go (bufWrite a v s) := by
  simp [applyByte, touch, h]

theorem applyByte_outside {s : State} {a : Addr} (v : Byte) (h : blockBase s.params a ≠ s.currentBlock) :
    applyByte a v s = (crossing (blockBase s.params a) s).andThen fun s => .go (bufWrite a v s) := by
  simp [applyByte, touch, h]

theorem applyByte_crossed {s : State} {a : Addr} (v : Byte) (h : blockBase s.params a ≠ s.currentBlock)
    (hok : nextAnswer s = .ok) : applyByte a v s = .go (bufWrite a v (crossed (blockBase s.params a) s)) := by
  rw [applyByte_outside v h, crossing_ok _ hok, Flow.go_andThen]

theorem core_bufWrite {s : State} (h : Core s) (a : Addr) (v : Byte) : Core (bufWrite a v s) :=
  ⟨h.1, by simpa [BufferSized] using h.2.1, h.2.2⟩

@[simp] theorem crossed_params (new : Addr) (s : State) : (crossed new s).params = s.params := by simp [crossed]
@[simp] theorem crossed_fsm (new : Addr) (s : State) : (crossed new s).fsm = s.fsm := by simp [crossed]
@[simp] theorem crossed_currentBlock (new : Addr) (s : State) : (crossed new s).currentBlock = new := by simp [crossed]
@[simp] theorem crossed_buf (new : Addr) (s : State) :
    (crossed new s).buf = Memory.block s.params (Memory.writeBytes s.nv s.currentBlock s.buf) new := by simp [crossed]
@[simp] theorem crossed_nv (new : Addr) (s : State) :
    (crossed new s).nv = Memory.writeBytes s.nv s.currentBlock s.buf := by simp [crossed]
@[simp] theorem crossed_senderPaused (new : Addr) (s : State) : (crossed new s).senderPaused = false := by simp [crossed]
@[simp] theorem crossed_answers (new : Addr) (s : State) : (crossed new s).answers = s.answers.tail := by simp [crossed]
@[simp] theorem crossed_answersTaken (new : Addr) (s : State) :
    (crossed new s).answersTaken = s.answersTaken + 1 := by simp [crossed]
@[simp] theorem crossed_trace (new : Addr) (s : State) :
    (crossed new s).trace = s.trace ++ [.send s.params.xoffByte, .commit s.currentBlock s.buf,
      .send s.params.progressChar, .load new, .send s.params.xonByte] := by simp [crossed]

theorem core_crossed {s : State} (h : Core s) (a : Addr) : Core (crossed (blockBase s.params a) s) := by
  refine ⟨?_, ?_, ?_⟩
  · simpa [BlockAligned] using base_aligned s.params a
  · simp [BufferSized]
  · simpa using Memory.wf_writeBytes h.2.2 s.currentBlock s.buf

/-- A write into the buffer changes the stream's memory at its own address only. -/
theorem logicalByte_bufWrite {s : State} (h : BufferSized s) {a : Addr} (v : Byte)
    (ha : blockBase s.params a = s.currentBlock) (x : Addr) :
    logicalByte (bufWrite a v s) x = if x = a then v else logicalByte s x := by
  have hk := blockIndex_lt s.params a
  have hb : s.buf.length = blockSize s.params := h
  by_cases hxa : x = a
  · subst hxa
    simp [logicalByte, ha, List.getD_eq_getElem?_getD, hb, hk]
  · rw [if_neg hxa]
    by_cases hx : blockBase s.params x = s.currentBlock
    · have hne : blockIndex s.params a ≠ blockIndex s.params x := fun e =>
        hxa (eq_of_base_index (hx.trans ha.symm) e.symm)
      simp [logicalByte, hx, List.getD_eq_getElem?_getD, List.getElem?_set_ne hne]
    · simp [logicalByte, hx]

/-- A crossing leaves the stream's memory as it was. -/
theorem logicalByte_crossed {s : State} (h : Core s) (a x : Addr) :
    logicalByte (crossed (blockBase s.params a) s) x = logicalByte s x := by
  conv_lhs => unfold logicalByte
  simp only [crossed_params, crossed_currentBlock, crossed_buf, crossed_nv]
  split
  · rename_i hx
    rw [block_getD hx, store_read h.1 h.2.1 h.2.2]
  · exact store_read h.1 h.2.1 h.2.2 x

/-- The induction over a payload: what a write inside the block and a crossing answered Ok keep holds at the end, and where a
crossing does not go on, it holds just before it. -/
theorem applyPayload_sat {P : State → Prop}
    (hw : ∀ s a v, P s → blockBase s.params a = s.currentBlock → P (bufWrite a v s))
    (hx : ∀ s a, P s → nextAnswer s = .ok → P (crossed (blockBase s.params a) s))
    (a : Addr) (bs : List Byte) {s : State} (hs : P s) :
    (applyPayload a bs s).Sat P
      (fun t => ∃ u, P u ∧ nextAnswer u = .writeFault ∧ t = raiseWriteFault (cutInCrossing u))
      (fun t => ∃ u, P u ∧ nextAnswer u = .never ∧ t = cutInCrossing u) := by
  induction bs generalizing a s with
  | nil => exact hs
  | cons b bs ih =>
    refine Flow.Sat.andThen (P := P) ?_ fun t ht => ih _ ht
    by_cases h : blockBase s.params a = s.currentBlock
    · rw [applyByte_inside b h]; exact hw s a b hs h
    · rw [applyByte_outside b h]
      cases hn : nextAnswer s with
      | ok =>
        rw [crossing_ok _ hn]
        exact hw _ _ _ (hx s a hs hn) (by simp [crossed])
      | writeFault => rw [crossing_writeFault _ hn]; exact ⟨s, hs, hn, rfl⟩
      | never => rw [crossing_never _ hn]; exact ⟨s, hs, hn, rfl⟩

/-- How many answers a payload takes, and what they were: one for each crossing, no more than it has bytes; all Ok but the last
one of a payload that does not go on. -/
theorem applyPayload_answers (a : Addr) (bs : List Byte) (s : State) :
    (applyPayload a bs s).Sat
      (fun t => ∃ n, n ≤ bs.length ∧ OkFor n s ∧ t.answers = s.answers.drop n ∧ t.answersTaken = s.answersTaken + n)
      (fun _ => ∃ n, n < bs.length ∧ OkFor n s ∧ answerOf s n = .writeFault)
      (fun _ => ∃ n, n < bs.length ∧ OkFor n s ∧ answerOf s n = .never) := by
  induction bs generalizing a s with
  | nil => exact ⟨0, le_rfl, fun k hk => absurd hk (Nat.not_lt_zero k), rfl, rfl⟩
  | cons b bs ih =>
    rw [applyPayload]
    by_cases h : blockBase s.params a = s.currentBlock
    · rw [applyByte_inside b h, Flow.go_andThen]
      refine (ih (a + 1) (bufWrite a b s)).imp ?_ ?_ ?_
      · rintro t ⟨n, hn, h1, h2, h3⟩; exact ⟨n, Nat.le_succ_of_le hn, h1, h2, h3⟩
      · rintro t ⟨n, hn, h1, h2⟩; exact ⟨n, Nat.lt_succ_of_lt hn, h1, h2⟩
      · rintro t ⟨n, hn, h1, h2⟩; exact ⟨n, Nat.lt_succ_of_lt hn, h1, h2⟩
    · cases hn : nextAnswer s with
      | ok =>
        rw [applyByte_crossed b h hn, Flow.go_andThen]
        have hs : ∀ k, answerOf (bufWrite a b (crossed (blockBase s.params a) s)) k = answerOf s (k + 1) := fun k => by
          rw [answerOf_shift (s := s) (n := 1) (by simp) (by simp), Nat.add_comm]
        have hok : ∀ {n}, OkFor n (bufWrite a b (crossed (blockBase s.params a) s)) → OkFor (n + 1) s := by
          rintro n h1 (_ | k) hk
          · exact hn
          · rw [← hs]; exact h1 k (Nat.lt_of_succ_lt_succ hk)
        refine (ih (a + 1) (bufWrite a b (crossed (blockBase s.params a) s))).imp ?_ ?_ ?_
        · rintro t ⟨n, hn', h1, h2, h3⟩
          refine ⟨n + 1, Nat.succ_le_succ hn', hok h1, ?_, ?_⟩
          · rw [h2]; simp
          · rw [h3]; simp; omega
        · rintro t ⟨n, hn', h1, h2⟩; exact ⟨n + 1, Nat.succ_lt_succ hn', hok h1, (hs n).symm.trans h2⟩
        · rintro t ⟨n, hn', h1, h2⟩; exact ⟨n + 1, Nat.succ_lt_succ hn', hok h1, (hs n).symm.trans h2⟩
      | writeFault =>
        rw [applyByte_outside b h, crossing_writeFault _ hn]
        exact ⟨0, Nat.succ_pos _, fun k hk => absurd hk (Nat.not_lt_zero k), hn⟩
      | never =>
        rw [applyByte_outside b h, crossing_never _ hn]
        exact ⟨0, Nat.succ_pos _, fun k hk => absurd hk (Nat.not_lt_zero k), hn⟩

/-- A payload whose crossings are all answered Ok is applied to its end. -/
theorem applyPayload_of_okFor {a : Addr} {bs : List Byte} {s : State} (h : OkFor bs.length s) :
    ∃ t, applyPayload a bs s = .go t := by
  have hs := applyPayload_answers a bs s
  cases hf : applyPayload a bs s with
  | go t => exact ⟨t, rfl⟩
  | ends t =>
    rw [hf] at hs
    obtain ⟨n, hn, -, e⟩ := hs
    rw [h n hn] at e; cases e
  | stuck t =>
    rw [hf] at hs
    obtain ⟨n, hn, -, e⟩ := hs
    rw [h n hn] at e; cases e

/-- A joined payload is applied part by part. -/
theorem applyPayload_append (a : Addr) (bs cs : List Byte) (s : State) :
    applyPayload a (bs ++ cs) s =
      (applyPayload a bs s).andThen fun t => applyPayload (a + BitVec.ofNat 16 bs.length) cs t := by
  induction bs generalizing a s with
  | nil => simp [applyPayload]
  | cons b bs ih =>
    simp only [List.cons_append, applyPayload, Flow.andThen_assoc, List.length_cons]
    congr 1
    funext t
    rw [ih, addr_succ]

/-- The addresses of a payload, the first apart. -/
theorem payloadAddrs_cons (a : Addr) (n : Nat) : payloadAddrs a (n + 1) = a :: payloadAddrs (a + 1) n := by
  simp only [payloadAddrs, List.range_succ_eq_map, List.map_cons, List.map_map]
  congr 1
  · simp
  · exact List.map_congr_left fun k _ => addr_succ a k

theorem mem_payloadAddrs {a x : Addr} {n : Nat} : x ∈ payloadAddrs a n ↔ ∃ k, k < n ∧ x = a + BitVec.ofNat 16 k := by
  simp only [payloadAddrs, List.mem_map, List.mem_range, eq_comm]

theorem lastBlock_cons (p : Params) (block a : Addr) (as : List Addr) :
    lastBlock p block (a :: as) = lastBlock p (blockBase p a) as := by
  unfold lastBlock
  rw [List.getLast?_cons]
  cases as.getLast? <;> rfl

/-- What a payload byte that is applied leaves. -/
theorem applyByte_go {s t : State} {a : Addr} {v : Byte} (hc : Core s) (h : applyByte a v s = .go t) :
    Core t ∧ t.params = s.params ∧ t.currentBlock = blockBase s.params a ∧
    (∀ x, logicalByte t x = if x = a then v else logicalByte s x) := by
  by_cases hb : blockBase s.params a = s.currentBlock
  · rw [applyByte_inside v hb] at h
    injection h with h; subst h
    exact ⟨core_bufWrite hc a v, rfl, hb.symm, logicalByte_bufWrite hc.2.1 v hb⟩
  · cases hn : nextAnswer s with
    | ok =>
      rw [applyByte_crossed v hb hn] at h
      injection h with h; subst h
      refine ⟨core_bufWrite (core_crossed hc a) a v, by simp, by simp, fun x => ?_⟩
      rw [logicalByte_bufWrite (core_crossed hc a).2.1 v (by simp), logicalByte_crossed hc]
    | writeFault => rw [applyByte_outside v hb, crossing_writeFault _ hn] at h; simp at h
    | never => rw [applyByte_outside v hb, crossing_never _ hn] at h; simp at h

/-- What a payload that is applied to its end leaves: each byte at its own address, everything else as it was. -/
theorem applyPayload_go {s t : State} {a : Addr} {bs : List Byte} (hc : Core s) (hl : bs.length ≤ 65536)
    (h : applyPayload a bs s = .go t) :
    Core t ∧ t.params = s.params ∧ t.currentBlock = lastBlock s.params s.currentBlock (payloadAddrs a bs.length) ∧
    (∀ (k : Nat) (hk : k < bs.length), logicalByte t (a + BitVec.ofNat 16 k) = bs[k]) ∧
    (∀ x, x ∉ payloadAddrs a bs.length → logicalByte t x = logicalByte s x) := by
  induction bs generalizing s a with
  | nil =>
    injection h with h
    subst h
    exact ⟨hc, rfl, rfl, fun k hk => absurd hk (Nat.not_lt_zero k), fun x _ => rfl⟩
  | cons b bs ih =>
    rw [applyPayload] at h
    cases hu : applyByte a b s with
    | ends u => rw [hu] at h; cases h
    | stuck u => rw [hu] at h; cases h
    | go u =>
      rw [hu, Flow.go_andThen] at h
      have hl' : bs.length + 1 ≤ 65536 := hl
      obtain ⟨c1, c2, c3, c4⟩ := applyByte_go hc hu
      obtain ⟨d1, d2, d3, d4, d5⟩ := ih c1 (by omega) h
      refine ⟨d1, d2.trans c2, ?_, ?_, ?_⟩
      · rw [d3, List.length_cons, payloadAddrs_cons, lastBlock_cons, c2, c3]
      · rintro (_ | k) hk
        · have h0 : a + BitVec.ofNat 16 0 = a := by simp
          rw [h0, d5, c4, if_pos rfl]
          · rfl
          · rw [mem_payloadAddrs]
            rintro ⟨j, hj, e⟩
            exact ne_addr_add a (k := j) (by omega) e
        · rw [addr_succ, d4 k (Nat.lt_of_succ_lt_succ hk)]
          rfl
      · intro x hx
        rw [List.length_cons, payloadAddrs_cons, List.mem_cons, not_or] at hx
        rw [d5 x hx.2, c4, if_neg hx.1]

/-- A payload that lies in the current block changes the buffer only. -/
theorem applyPayload_inside {s : State} {a : Addr} {bs : List Byte}
    (h : ∀ x ∈ payloadAddrs a bs.length, blockBase s.params x = s.currentBlock) :
    ∃ buf, buf.length = s.buf.length ∧ applyPayload a bs s = .go { s with buf := buf } := by
  induction bs generalizing s a with
  | nil => exact ⟨s.buf, rfl, rfl⟩
  | cons b bs ih =>
    rw [List.length_cons, payloadAddrs_cons] at h
    obtain ⟨buf, hl, he⟩ := ih (s := bufWrite a b s) fun x hx => h x (List.mem_cons_of_mem _ hx)
    refine ⟨buf, by simpa using hl, ?_⟩
    rw [applyPayload, applyByte_inside b (h a List.mem_cons_self), Flow.go_andThen, he]
    rfl

end Sys2Proof.Machine
end

