-- ==== Sys2Proof/Laws/Cut.lean ====
section
/-! SUPPORT. What a reset in the middle of a step leaves (R190 to R193): what replaying actions keeps, and the state session entry
makes of it. -/

namespace Sys2Proof.Machine

/-- What replaying one action keeps, and the action it adds. -/
theorem replayAction_keeps (s : State) (a : Action) :
    (replayAction s a).params = s.params ∧ (replayAction s a).interruptsEnabled = s.interruptsEnabled ∧
    (replayAction s a).inbox = s.inbox ∧ (replayAction s a).trace = s.trace ++ [a] ∧
    (Memory.wf s.nv → Memory.wf (replayAction s a).nv) := by
  cases a with
  | commit b d =>
    cases h : nextAnswer s <;> simp only [replayAction, h] <;>
      exact ⟨rfl, rfl, rfl, rfl, fun hw => Memory.wf_writeBytes hw _ _⟩
  | send b => exact ⟨rfl, rfl, rfl, rfl, id⟩
  | armTimeout => exact ⟨rfl, rfl, rfl, rfl, id⟩
  | load b => exact ⟨rfl, rfl, rfl, rfl, id⟩
  | drain => exact ⟨rfl, rfl, rfl, rfl, id⟩
  | handoff e => exact ⟨rfl, rfl, rfl, rfl, id⟩

/-- What replaying actions keeps, and the actions it adds. -/
theorem replay_keeps (as : List Action) (s : State) :
    (replay as s).params = s.params ∧ (replay as s).interruptsEnabled = s.interruptsEnabled ∧
    (replay as s).inbox = s.inbox ∧ (replay as s).trace = s.trace ++ as ∧
    (Memory.wf s.nv → Memory.wf (replay as s).nv) := by
  induction as generalizing s with
  | nil => exact ⟨rfl, rfl, rfl, (List.append_nil _).symm, id⟩
  | cons a as ih =>
    obtain ⟨h1, h2, h3, h4, h5⟩ := replayAction_keeps s a
    obtain ⟨k1, k2, k3, k4, k5⟩ := ih (replayAction s a)
    refine ⟨k1.trans h1, k2.trans h2, k3.trans h3, ?_, fun hw => k5 (h5 hw)⟩
    exact k4.trans (by rw [h4, List.append_assoc]; rfl)

/-- What a cut keeps, and the actions before it. -/
theorem replayCut_keeps (inCommit : Bool) (as : List Action) (s : State) :
    (replayCut inCommit as s).params = s.params ∧ (replayCut inCommit as s).interruptsEnabled = s.interruptsEnabled ∧
    (replayCut inCommit as s).inbox = s.inbox ∧ (replayCut inCommit as s).trace = s.trace ++ as ∧
    (Memory.wf s.nv → Memory.wf (replayCut inCommit as s).nv) := by
  unfold replayCut
  split
  · rename_i b d hl
    split
    · obtain ⟨h1, h2, h3, h4, h5⟩ := replay_keeps as.dropLast s
      have hne : as ≠ [] := by rintro rfl; cases hl
      have hb : as = as.dropLast ++ [.commit b d] := by
        have := List.dropLast_append_getLast hne
        rw [List.getLast?_eq_some_getLast hne] at hl
        injection hl with hl
        rw [hl] at this
        exact this.symm
      refine ⟨h1, h2, h3, ?_, fun hw => Memory.wf_writeBytes (h5 hw) _ _⟩
      conv_rhs => rw [hb, ← List.append_assoc]
      simp [h4]
    · exact replay_keeps as s
  all_goals exact replay_keeps as s

/-! ### Session entries -/

/-- The actions of a session entry are those of its parameters (R191). -/
theorem newActions_sessionEntry (s : State) : newActions s (sessionEntry s) = entryActions s.params := by
  simp [newActions, entryActions, Config.initialBlock]

/-- What session entry keeps: parameters, memory, interrupts, inputs, answers, the model's counters; the rest it writes
whole (R5, R191, R192). -/
theorem sessionEntry_congr {s t : State} (h1 : t.params = s.params) (h2 : t.nv = s.nv)
    (h3 : t.interruptsEnabled = s.interruptsEnabled) (h4 : t.inbox = s.inbox) (h5 : t.answers = s.answers)
    (h6 : t.answersTaken = s.answersTaken) (h7 : t.freeCount = s.freeCount) :
    sessionEntry t = { sessionEntry s with trace := t.trace ++ entryActions s.params } := by
  obtain ⟨⟩ := s
  obtain ⟨⟩ := t
  subst h1 h2 h3 h4 h5 h6 h7
  simp [sessionEntry, entryActions, Config.initialBlock, forgetSession, sendBannerStart, sendAll, load, emit, lineReset, sendXon,
    send, armTimeout]

/-- Actions that commit nothing leave memory, answers and the model's counters as they are. -/
theorem replay_keeps_memory {as : List Action} (h : ∀ b d, Action.commit b d ∉ as) (s : State) :
    (replay as s).nv = s.nv ∧ (replay as s).answers = s.answers ∧ (replay as s).answersTaken = s.answersTaken ∧
    (replay as s).freeCount = s.freeCount := by
  induction as generalizing s with
  | nil => exact ⟨rfl, rfl, rfl, rfl⟩
  | cons a as ih =>
    have ih := ih (fun b d hm => h b d (List.mem_cons_of_mem _ hm)) (replayAction s a)
    cases a with
    | commit b d => exact absurd List.mem_cons_self (h b d)
    | send b => exact ih
    | armTimeout => exact ih
    | load b => exact ih
    | drain => exact ih
    | handoff e => exact ih

/-- No session entry commits (R191). -/
theorem no_commit_in_entry (p : Params) (k : Nat) (b : Addr) (d : List Byte) :
    Action.commit b d ∉ (entryActions p).take k := fun hm => by
  have := List.mem_of_mem_take hm
  simp [entryActions] at this

/-- What a run of session entries leaves (R190, R191): the state one leaves, with the actions of the cut ones before its own. -/
theorem sessionEntries_eq (again : List Nat) (s : State) :
    sessionEntries again s =
      { sessionEntry s with
        trace := s.trace ++ (again.map (fun k => (entryActions s.params).take k)).flatten ++ entryActions s.params } := by
  induction again generalizing s with
  | nil =>
    rw [sessionEntries, sessionEntry_congr (s := s) (t := s) rfl rfl rfl rfl rfl rfl rfl]
    simp
  | cons k again ih =>
    obtain ⟨h1, h2, h3, h4, -⟩ := replay_keeps ((entryActions s.params).take k) s
    obtain ⟨k1, k2, k3, k4⟩ := replay_keeps_memory (no_commit_in_entry s.params k) s
    rw [sessionEntries, newActions_sessionEntry, ih, h1, h4, sessionEntry_congr h1 k1 h2 h3 k2 k3 k4]
    simp

end Sys2Proof.Machine
end

