-- ==== Sys2Proof/Laws/Feed.lean ====
section
/-! SUPPORT. What feeding the bytes of a record leaves in the line group (R28 to R31, R90 to R98). -/

namespace Sys2Proof.Machine

/-- Past the record's end nothing is fed (R101). -/
theorem feedAll_stuck {s : State} (h : position s = none) (l) : feedAll l s = s := by
  cases l <;> simp [feedAll, h]

/-- Bytes are fed one after the other. -/
theorem feedAll_append (xs ys : List Byte) (s : State) : feedAll (xs ++ ys) s = feedAll ys (feedAll xs s) := by
  induction xs generalizing s with
  | nil => rfl
  | cons x xs ih =>
    simp only [List.cons_append, feedAll]
    cases h : position s with
    | none => rw [feedAll_stuck h]
    | some p => exact ih _

/-- What the line group holds after a prefix of a record, fed from the line start `s` (R28 to R31). -/
structure Fed (s u : State) (bs : List Byte) : Prop where
  cons : consumed u = bs
  off : u.offset.toNat = bs.length
  sum : u.sum = byteSum bs
  len : 0 < bs.length → bs.head? = some u.recLength
  frame : u = { s with
    offset := u.offset, sum := u.sum, recLength := u.recLength, recAddrHi := u.recAddrHi, recAddrLo := u.recAddrLo,
    recType := u.recType, recData := u.recData }

/-- One more byte before the terminator. -/
theorem fed_step {s u : State} {bs : List Byte} {b : Byte} (h : Fed s u bs)
    (hl : bs.length < 4 ∨ bs.length < 4 + u.recLength.toNat) :
    ∃ p, position u = some p ∧ p ≠ .terminator ∧ Fed s (feedAt p b u) (bs ++ [b]) := by
  have hlt := u.recLength.isLt
  obtain ⟨p, hp, hne⟩ : ∃ p, position u = some p ∧ p ≠ .terminator := by
    cases hq : position u with
    | none => rw [position_eq_none, h.off] at hq; omega
    | some p => exact ⟨p, rfl, by rintro rfl; rw [position_eq_terminator, h.off] at hq; omega⟩
  refine ⟨p, hp, hne, ?_, ?_, ?_, ?_, ?_⟩
  · rw [consumed_feedAt hp hne, h.cons]
  · rw [feedAt_offset, BitVec.toNat_add, h.off]; simp; omega
  · rw [feedAt_sum, h.sum, byteSum_append]; simp [byteSum]
  · intro _
    have h3 := h.len
    cases bs with
    | nil =>
      have : position u = some .length := by rw [position_eq_length, h.off]; rfl
      rw [this] at hp; injection hp with hp; subst hp; rfl
    | cons x xs =>
      have : p ≠ .length := by rintro rfl; rw [position_eq_length, h.off] at hp; simp at hp
      have h4 := h3 (by simp)
      cases p <;> first | exact absurd rfl this | simpa [feedAt, storeField] using h4
  · have := h.frame
    cases p <;> (unfold feedAt storeField; simp only; rw [this])

theorem fed_start {s : State} (h : AtLineStart s) : Fed s s [] := by
  obtain ⟨-, -, ho, hs, -⟩ := h
  exact ⟨by simp [consumed, ho], by simp [ho], by simp [hs, byteSum], by simp, rfl⟩

/-- Any prefix of a record that stops before its terminator. -/
theorem feedAll_prefix {s : State} (h : AtLineStart s) (bs : List Byte)
    (hb : ∀ x, bs.head? = some x → bs.length ≤ 4 + x.toNat) : Fed s (feedAll bs s) bs := by
  induction bs using List.reverseRecOn with
  | nil => exact fed_start h
  | append_singleton bs b ih =>
    have ih' := ih (fun x hx => by
      have := hb x (by cases bs <;> simp_all)
      simp at this; omega)
    rw [feedAll_append]
    obtain ⟨p, hp, -, hf⟩ := fed_step (b := b) ih' (by
      cases hbs : bs with
      | nil => left; simp
      | cons x xs =>
        right
        have h1 := ih'.len (by simp [hbs])
        have h2 : x = (feedAll bs s).recLength := by
          have : bs.head? = some x := by rw [hbs]; rfl
          rw [this] at h1; injection h1
        have := hb x (by simp [hbs])
        rw [← hbs, ← h2]
        simp at this; omega)
    simp only [feedAll, hp]
    exact hf

/-- What a whole record leaves in the line group: its fields, its sum, the offset past its end, its terminator (R90 to R97). -/
theorem feedAll_record {s : State} (h : AtLineStart s) {len hi lo ty ck : Byte} {data : List Byte}
    (hd : data.length = len.toNat) :
    ∃ u, feedAll (len :: hi :: lo :: ty :: data ++ [ck]) s = u ∧ u.recLength = len ∧ u.recAddrHi = hi ∧
      u.recAddrLo = lo ∧ u.recType = ty ∧ payload u = data ∧ u.sum = byteSum (len :: hi :: lo :: ty :: data ++ [ck]) ∧
      u.offset.toNat = 5 + len.toNat ∧ terminatorOf u = ck := by
  have hl := len.isLt
  have hf := feedAll_prefix h (len :: hi :: lo :: ty :: data) (by simp [hd]; omega)
  have e : (len :: hi :: lo :: ty :: data ++ [ck]) = (len :: hi :: lo :: ty :: data) ++ [ck] := rfl
  refine ⟨_, rfl, ?_⟩
  rw [e, feedAll_append]
  generalize feedAll (len :: hi :: lo :: ty :: data) s = u at *
  have h1 : len = u.recLength := by simpa using hf.len (by simp)
  have hoff : u.offset.toNat = 4 + u.recLength.toNat := by rw [hf.off, ← h1]; simp [hd]; omega
  have hp : position u = some .terminator := position_eq_terminator.mpr hoff
  have hc := hf.cons
  have hpay : payload u = data ∧ u.recAddrHi = hi ∧ u.recAddrLo = lo ∧ u.recType = ty := by
    unfold consumed at hc
    rw [hoff, Nat.add_comm] at hc
    simp at hc
    exact ⟨hc.2.2.2.2, hc.2.1, hc.2.2.1, hc.2.2.2.1⟩
  obtain ⟨p1, p2, p3, p4⟩ := hpay
  have hs : (feedAll [ck] u).sum = byteSum (len :: hi :: lo :: ty :: data) + ck := by
    simp only [feedAll, hp, feedAt_sum, hf.sum]
  have hu : feedAll [ck] u = feedAt .terminator ck u := by simp only [feedAll, hp]
  rw [byteSum_append]
  refine ⟨?_, ?_, ?_, ?_, ?_, ?_, ?_, ?_⟩
  · rw [hu]; exact h1.symm
  · rw [hu]; exact p2
  · rw [hu]; exact p3
  · rw [hu]; exact p4
  · rw [hu]; exact p1
  · rw [hs]; simp [byteSum]
  · rw [hu, feedAt_offset, BitVec.toNat_add, hoff, ← h1]; simp; omega
  · unfold terminatorOf
    rw [hs]
    have : byteSum ((feedAll [ck] u).recLength :: (feedAll [ck] u).recAddrHi :: (feedAll [ck] u).recAddrLo ::
        (feedAll [ck] u).recType :: payload (feedAll [ck] u)) = byteSum (len :: hi :: lo :: ty :: data) := by
      rw [hu]
      show byteSum (u.recLength :: u.recAddrHi :: u.recAddrLo :: u.recType :: payload u) = _
      rw [← h1, p1, p2, p3, p4]
    rw [this, BitVec.add_comm, BitVec.add_sub_cancel]

/-- The bytes a record is decoded from, and how it is classified. -/
theorem decode_record_inv {bytes : List Byte} {i : Instr} (h : decode .record bytes = .ok (i, [])) :
    ∃ len hi lo ty data ck, bytes = len :: hi :: lo :: ty :: data ++ [ck] ∧ data.length = len.toNat ∧
      i = classifyRecord hi lo ty data ck := by
  simp only [decode] at h
  match bytes with
  | [] | [_] | [_, _] | [_, _, _] => simp [decodeRecord] at h
  | len :: hi :: lo :: ty :: bs =>
    simp only [decodeRecord] at h
    split at h
    · simp at h
    · rename_i ck rest' hd
      simp only [Except.ok.injEq, Prod.mk.injEq] at h
      obtain ⟨rfl, rfl⟩ := h
      refine ⟨len, hi, lo, ty, bs.take len.toNat, ck, ?_, ?_, rfl⟩
      · simp [← hd]
      · have : len.toNat < bs.length := by
          by_contra hc
          rw [List.drop_eq_nil_of_le (by omega)] at hd; simp at hd
        simp; omega

end Sys2Proof.Machine
end

