-- ==== Sys2Proof/Laws/PerInstr.lean ====
section
/-! SUPPORT. The per-instruction families: one statement about an instruction as syntax, and one lemma for each constructor. -/

namespace Sys2Proof.Laws.EncodedSize

/-- How many words an instruction's encoding has: one for a character (R62), two for a byte (R63), 5 + length for a record
(R65), none for a timeout (R74), the parameter's bytes for an OUT row (R73). -/
def size (p : Params) : Instr → Nat
  | .ch0 | .ch1 | .ch2 | .ch3 | .ch4 | .ch5 | .ch6 | .ch7 | .ch8 | .ch9 => 1
  | .chA | .chB | .chC | .chD | .chE | .chF | .chNonhex _ => 1
  | .timeoutIdle | .timeoutMidrec => 0
  | .recData _ _ payload | .recEos _ _ payload | .recNop _ _ _ payload | .recBadsum _ _ _ payload _ =>
      5 + payload.length
  | .byteLength _ | .byteAddrHi _ | .byteAddrLo _ | .byteType _ | .byteData _ | .byteTerminator _ => 2
  | .outXon | .outXoff | .outProgress | .outErr => 1
  | .outBannerStart => p.bannerStart.length
  | .outBannerHandoff => p.bannerHandoff.length

/-- The encoding has the size the spec gives the instruction. -/
def Statement (i : Instr) : Prop := ∀ p : Params, (encode p i).length = size p i

/-- A record with its computed terminator has 5 + length bytes (R65). -/
theorem length_encodeGoodRecord (hi lo type : Byte) (payload : List Byte) :
    (encodeGoodRecord hi lo type payload).length = 5 + payload.length := by
  simp only [encodeGoodRecord, recordHead, List.length_append, List.length_cons, List.length_nil]
  omega

theorem ch0 : Statement .ch0 := fun _ => rfl
theorem ch1 : Statement .ch1 := fun _ => rfl
theorem ch2 : Statement .ch2 := fun _ => rfl
theorem ch3 : Statement .ch3 := fun _ => rfl
theorem ch4 : Statement .ch4 := fun _ => rfl
theorem ch5 : Statement .ch5 := fun _ => rfl
theorem ch6 : Statement .ch6 := fun _ => rfl
theorem ch7 : Statement .ch7 := fun _ => rfl
theorem ch8 : Statement .ch8 := fun _ => rfl
theorem ch9 : Statement .ch9 := fun _ => rfl
theorem chA : Statement .chA := fun _ => rfl
theorem chB : Statement .chB := fun _ => rfl
theorem chC : Statement .chC := fun _ => rfl
theorem chD : Statement .chD := fun _ => rfl
theorem chE : Statement .chE := fun _ => rfl
theorem chF : Statement .chF := fun _ => rfl
theorem chNonhex (c : Byte) : Statement (.chNonhex c) := fun _ => rfl
theorem timeoutIdle : Statement .timeoutIdle := fun _ => rfl
theorem timeoutMidrec : Statement .timeoutMidrec := fun _ => rfl
theorem recData (hi lo : Byte) (payload : List Byte) : Statement (.recData hi lo payload) :=
  fun _ => length_encodeGoodRecord ..
theorem recEos (hi lo : Byte) (payload : List Byte) : Statement (.recEos hi lo payload) :=
  fun _ => length_encodeGoodRecord ..
theorem recNop (hi lo type : Byte) (payload : List Byte) : Statement (.recNop hi lo type payload) :=
  fun _ => length_encodeGoodRecord ..
theorem recBadsum (hi lo type : Byte) (payload : List Byte) (terminator : Byte) :
    Statement (.recBadsum hi lo type payload terminator) := fun _ => by
  simp only [encode, size, recordHead, List.length_append, List.length_cons, List.length_nil]
  omega
theorem byteLength (b : Byte) : Statement (.byteLength b) := fun _ => rfl
theorem byteAddrHi (b : Byte) : Statement (.byteAddrHi b) := fun _ => rfl
theorem byteAddrLo (b : Byte) : Statement (.byteAddrLo b) := fun _ => rfl
theorem byteType (b : Byte) : Statement (.byteType b) := fun _ => rfl
theorem byteData (b : Byte) : Statement (.byteData b) := fun _ => rfl
theorem byteTerminator (b : Byte) : Statement (.byteTerminator b) := fun _ => rfl
theorem outBannerStart : Statement .outBannerStart := fun _ => rfl
theorem outXon : Statement .outXon := fun _ => rfl
theorem outXoff : Statement .outXoff := fun _ => rfl
theorem outProgress : Statement .outProgress := fun _ => rfl
theorem outErr : Statement .outErr := fun _ => rfl
theorem outBannerHandoff : Statement .outBannerHandoff := fun _ => rfl

end Sys2Proof.Laws.EncodedSize
end

