-- ==== Sys2Proof/Tests/Slice0.lean ====
section
/-! SUPPORT. The model's own tests: the operand checks refuse ill-formed terms; every constructor's decoding by words written out from
the spec's tables; one or two steps for each instruction, with results from the spec's rules and examples; and for every
obligation with hypotheses a concrete case that meets them all. -/

namespace Sys2Proof.Tests

open Sys2Proof Sys2Proof.Machine

/-! ### WellFormed refuses what each check is for -/

/-- R62: the code of a hex digit is no `CH_NONHEX`; its neighbours 0x2F and 0x3A are. -/
theorem test_wellformed_nonhex :
    WellFormed (.chNonhex 0x30) = false ∧ WellFormed (.chNonhex 0x39) = false ∧ WellFormed (.chNonhex 0x41) = false ∧
    WellFormed (.chNonhex 0x46) = false ∧ WellFormed (.chNonhex 0x2F) = true ∧ WellFormed (.chNonhex 0x3A) = true ∧
    WellFormed (.chNonhex 0x40) = true ∧ WellFormed (.chNonhex 0x47) = true := by decide

/-- R64: `length` is one byte, so 256 payload bytes are too many; 255 are not. -/
theorem test_wellformed_payload :
    payloadFits (List.replicate 256 0) = false ∧ payloadFits (List.replicate 255 0) = true := by
  simp only [payloadFits, List.length_replicate]
  decide

/-- The payload bound is a check of every RECORD row. -/
theorem test_wellformed_record_bound :
    WellFormed (.recData 0 0 (List.replicate 256 0)) = false ∧ WellFormed (.recEos 0 0 (List.replicate 256 0)) = false ∧
    WellFormed (.recNop 0 0 2 (List.replicate 256 0)) = false ∧
    WellFormed (.recBadsum 0 0 2 (List.replicate 256 0) 0) = false := by
  have h : payloadFits (List.replicate 256 0) = false := test_wellformed_payload.1
  simp only [WellFormed, h, Bool.false_and, and_self]

/-- R67: types 0x00 and 0x01 are not `REC_NOP`. -/
theorem test_wellformed_nop_type :
    WellFormed (.recNop 0 0 0x00 []) = false ∧ WellFormed (.recNop 0 0 0x01 []) = false ∧
    WellFormed (.recNop 0 0 0x02 []) = true ∧ WellFormed (.recNop 0 0 0xFF []) = true := by decide

/-- R98: a record whose bytes sum to zero is no `REC_BADSUM`; 04000000DEADBEEFC4 is good, with C5 it is bad. -/
theorem test_wellformed_badsum :
    WellFormed (.recBadsum 0 0 0 [0xDE, 0xAD, 0xBE, 0xEF] 0xC4) = false ∧
    WellFormed (.recBadsum 0 0 0 [0xDE, 0xAD, 0xBE, 0xEF] 0xC5) = true := by decide

/-! ### Decoding, by words written out from R61, R62, R63, R64 -/

/-- The 16 hex characters by their codes. -/
theorem test_decode_hex_digits :
    decodeTableWord 8 0x30 = some .ch0 ∧ decodeTableWord 8 0x31 = some .ch1 ∧ decodeTableWord 8 0x32 = some .ch2 ∧
    decodeTableWord 8 0x33 = some .ch3 ∧ decodeTableWord 8 0x34 = some .ch4 ∧ decodeTableWord 8 0x35 = some .ch5 ∧
    decodeTableWord 8 0x36 = some .ch6 ∧ decodeTableWord 8 0x37 = some .ch7 ∧ decodeTableWord 8 0x38 = some .ch8 ∧
    decodeTableWord 8 0x39 = some .ch9 := by decide

theorem test_decode_hex_letters :
    decodeTableWord 8 0x41 = some .chA ∧ decodeTableWord 8 0x42 = some .chB ∧ decodeTableWord 8 0x43 = some .chC ∧
    decodeTableWord 8 0x44 = some .chD ∧ decodeTableWord 8 0x45 = some .chE ∧
    decodeTableWord 8 0x46 = some .chF := by decide

/-- Line feed, `/`, `:`, `@`, `G`, `a` and 0xFF are `CH_NONHEX`. -/
theorem test_decode_nonhex :
    decodeTableWord 8 0x0A = some (.chNonhex 0x0A) ∧ decodeTableWord 8 0x2F = some (.chNonhex 0x2F) ∧
    decodeTableWord 8 0x3A = some (.chNonhex 0x3A) ∧ decodeTableWord 8 0x40 = some (.chNonhex 0x40) ∧
    decodeTableWord 8 0x47 = some (.chNonhex 0x47) ∧ decodeTableWord 8 0x61 = some (.chNonhex 0x61) ∧
    decodeTableWord 8 0xFF = some (.chNonhex 0xFF) := by decide

/-- `D` then `E` is the byte 0xDE, whose row its position chooses (R84, R91 to R96); `D` is the first word. -/
theorem test_decode_bytes :
    decode (.byte .length) [0x44, 0x45] = .ok (.byteLength 0xDE, []) ∧
    decode (.byte .addrHi) [0x44, 0x45] = .ok (.byteAddrHi 0xDE, []) ∧
    decode (.byte .addrLo) [0x44, 0x45] = .ok (.byteAddrLo 0xDE, []) ∧
    decode (.byte .type) [0x44, 0x45] = .ok (.byteType 0xDE, []) ∧
    decode (.byte .data) [0x44, 0x45] = .ok (.byteData 0xDE, []) ∧
    decode (.byte .terminator) [0x44, 0x45] = .ok (.byteTerminator 0xDE, []) ∧
    decodeTableWord 16 0x4544 = some (.byteLength 0xDE) := ⟨rfl, rfl, rfl, rfl, rfl, rfl, by decide⟩

/-- 04000000DEADBEEFC4, 00000001FF, 021234020909A4 and the first with C5, from the spec's examples. -/
theorem test_decode_records :
    decode .record [0x04, 0x00, 0x00, 0x00, 0xDE, 0xAD, 0xBE, 0xEF, 0xC4] =
      .ok (.recData 0x00 0x00 [0xDE, 0xAD, 0xBE, 0xEF], []) ∧
    decode .record [0x00, 0x00, 0x00, 0x01, 0xFF] = .ok (.recEos 0x00 0x00 [], []) ∧
    decode .record [0x02, 0x12, 0x34, 0x02, 0x09, 0x09, 0xA4] = .ok (.recNop 0x12 0x34 0x02 [0x09, 0x09], []) ∧
    decode .record [0x04, 0x00, 0x00, 0x00, 0xDE, 0xAD, 0xBE, 0xEF, 0xC5] =
      .ok (.recBadsum 0x00 0x00 0x00 [0xDE, 0xAD, 0xBE, 0xEF] 0xC5, []) := ⟨rfl, rfl, rfl, rfl⟩

/-- The same records as table words: the first byte lowest. -/
theorem test_decode_record_words :
    decodeTableWord 40 0xFF01000000 = some (.recEos 0x00 0x00 []) ∧
    decodeTableWord 40 0xFF02000000 = some (.recBadsum 0x00 0x00 0x02 [] 0xFF) ∧
    decodeTableWord 40 0xFE02000000 = some (.recNop 0x00 0x00 0x02 []) ∧
    decodeTableWord 40 0xC000004000 = some (.recData 0x40 0x00 []) := ⟨rfl, rfl, rfl, rfl⟩

/-- Too few characters, a character that is no hex digit, too few bytes: refused by name. -/
theorem test_decode_refuses :
    decode .char [] = .error .noCharacter ∧ decode (.byte .data) [0x44] = .error .halfByte ∧
    decode (.byte .data) [0x44, 0x67] = .error .nonHexInByte ∧
    decode .record [0x01, 0x00, 0x00, 0x00, 0xAA] = .error .truncatedRecord ∧ decodeTableWord 24 0 = none :=
  ⟨rfl, rfl, rfl, rfl, by decide⟩

/-- What the OUT rows and the timeouts encode to (R73, R74), and a record's text (R75). -/
theorem test_encode :
    encode Config.resetParams .outXon = [0x11] ∧ encode Config.resetParams .outXoff = [0x13] ∧
    encode Config.resetParams .timeoutIdle = [] ∧
    textOf (encode Config.resetParams (.recEos 0 0 [])) = [0x30, 0x30, 0x30, 0x30, 0x30, 0x30, 0x30, 0x31, 0x46, 0x46] := by
  decide

/-! ### A small machine: blocks of two bytes -/

/-- One field of the next state an outcome answers. -/
def after {α : Type} (o : Host.Outcome State Fault Refusal) (f : State → α) : Option α :=
  match o with
  | .next s => some (f s)
  | .fault _ => none
  | .refused _ => none

/-- A block at a line start, blocks of two bytes, block 0 in the buffer, commits answered Ok. -/
def st : State :=
  { State.reset with
    params := { blockBits := 1, xonByte := 0x11, xoffByte := 0x13, bannerStart := [0x42], checksumErrChar := 0x21,
                progressChar := 0x2E, bannerHandoff := [0x4A, 0x4B], entryPoint := 0x0100 }
    buf := [0xA0, 0xA1], nv := [(0, 0xA0), (1, 0xA1), (2, 0xB2), (5, 0xC5)], trace := [], txQueue := [],
    answers := List.replicate 256 .ok }

/-- The same block after the given bytes of a record. -/
def mid (bytes : List Byte) : State := { feedAll bytes st with fsm := .accumulatingRecord }

/-- After the given bytes and one more nibble. -/
def midNibble (bytes : List Byte) (v : Nibble) : State := pairHi v (mid bytes)

/-- With the given answers to come. -/
def answering (as : List CommitAnswer) (s : State) : State := { s with answers := as }

theorem inv_st : Inv st :=
  ⟨by decide, by decide, by decide, fun _ => ⟨rfl, rfl, rfl, rfl, rfl, rfl, rfl, rfl, rfl⟩, (fun h => by cases h),
    fun _ => rfl, rfl⟩

/-! ### CHAR rows -/

/-- R83, R134: a first nibble is kept and the timer re-armed. -/
theorem test_first_nibble_digit : after (exec .ch7 st) (fun s => (s.hiNib, s.nibPhase, s.fsm, s.trace)) =
    some (7, .low, .accumulatingRecord, [.armTimeout]) := by decide

theorem test_first_nibble_letter : after (exec .chD st) (fun s => (s.hiNib, s.nibPhase)) = some (13, .low) := by decide

/-- R84: `D` then `E` is 0xDE; at offset 0 it is the length. -/
theorem test_second_nibble : after (exec .chE (midNibble [] 13)) (fun s => (s.recLength, s.offset, s.sum, s.nibPhase)) =
    some (0xDE, 1, 0xDE, .high) := by decide

/-- The other rows' values, as the low nibble of a byte 0x0v. -/
theorem test_digit_values :
    after (exec .ch0 (midNibble [] 0)) (·.sum) = some 0x00 ∧ after (exec .ch1 (midNibble [] 0)) (·.sum) = some 0x01 ∧
    after (exec .ch2 (midNibble [] 0)) (·.sum) = some 0x02 ∧ after (exec .ch3 (midNibble [] 0)) (·.sum) = some 0x03 ∧
    after (exec .ch4 (midNibble [] 0)) (·.sum) = some 0x04 ∧ after (exec .ch5 (midNibble [] 0)) (·.sum) = some 0x05 ∧
    after (exec .ch6 (midNibble [] 0)) (·.sum) = some 0x06 ∧ after (exec .ch7 (midNibble [] 0)) (·.sum) = some 0x07 ∧
    after (exec .ch8 (midNibble [] 0)) (·.sum) = some 0x08 ∧ after (exec .ch9 (midNibble [] 0)) (·.sum) = some 0x09 := by
  decide

theorem test_letter_values :
    after (exec .chA (midNibble [] 15)) (·.sum) = some 0xFA ∧ after (exec .chB (midNibble [] 15)) (·.sum) = some 0xFB ∧
    after (exec .chC (midNibble [] 15)) (·.sum) = some 0xFC ∧ after (exec .chD (midNibble [] 15)) (·.sum) = some 0xFD ∧
    after (exec .chE (midNibble [] 15)) (·.sum) = some 0xFE ∧ after (exec .chF (midNibble [] 15)) (·.sum) = some 0xFF := by
  decide

/-- R135: a line feed in mid-record drops the line, arms nothing and keeps the buffer. -/
theorem test_nonhex :
    after (exec (.chNonhex 0x0A) (midNibble [2, 0] 3)) (fun s => (s.fsm, s.offset, s.sum, s.nibPhase)) =
      some (.awaitingLine, 0, 0, .high) ∧
    after (exec (.chNonhex 0x0A) (midNibble [2, 0] 3)) (fun s => (s.trace, s.buf)) = some ([], [0xA0, 0xA1]) := by decide

/-! ### EVENT rows -/

/-- R144's example: commit, progress, banner, drain, hand-off. -/
theorem test_timeout_idle : after (exec .timeoutIdle st) (fun s => (s.fsm, s.trace)) =
    some (.finished, [.commit 0 [0xA0, 0xA1], .send 0x2E, .send 0x4A, .send 0x4B, .drain, .handoff 0x0100]) := by decide

theorem test_timeout_midrec : after (exec .timeoutMidrec (mid [2, 0])) (fun s => (s.fsm, s.offset, s.trace, s.timerArmed)) =
    some (.awaitingLine, 0, [.armTimeout], true) := by decide

/-! ### BYTE rows (R91 to R96) -/

theorem test_byte_length : after (exec (.byteLength 0x10) st) (fun s => (s.recLength, s.offset, s.sum)) =
    some (0x10, 1, 0x10) := by decide

theorem test_byte_addr_hi : after (exec (.byteAddrHi 0x01) (mid [1])) (fun s => (s.recAddrHi, s.offset, s.sum)) =
    some (0x01, 2, 0x02) := by decide

theorem test_byte_addr_lo : after (exec (.byteAddrLo 0x80) (mid [1, 1])) (fun s => (s.recAddrLo, s.offset, s.sum)) =
    some (0x80, 3, 0x82) := by decide

theorem test_byte_type : after (exec (.byteType 0x01) (mid [0, 0, 0])) (fun s => (s.recType, s.offset, recordEvent s)) =
    some (0x01, 4, .inProgress) := by decide

set_option maxRecDepth 8000 in
/-- R95's example: `feed(0xBE)` at offset 6 sets `rec_data[2]`. -/
theorem test_byte_data : after (exec (.byteData 0xBE) (mid [4, 0, 0, 0, 0xDE, 0xAD]))
    (fun s => (s.recData.toList.take 4, s.offset)) = some ([0xDE, 0xAD, 0xBE, 0x00], 7) := by decide

/-- R96, R98: 0xC4 makes the sum zero, 0xC5 makes it one. -/
theorem test_byte_terminator :
    after (exec (.byteTerminator 0xC4) (mid [4, 0, 0, 0, 0xDE, 0xAD, 0xBE, 0xEF])) (fun s => (s.sum, recordEvent s)) =
      some (0x00, .recordComplete true) ∧
    after (exec (.byteTerminator 0xC5) (mid [4, 0, 0, 0, 0xDE, 0xAD, 0xBE, 0xEF])) (fun s => (s.sum, recordEvent s)) =
      some (0x01, .recordComplete false) := by decide

/-- What a byte past its position is refused as. -/
theorem test_byte_not_selected : exec (.byteAddrLo 0x80) st = .refused .notSelected := rfl

/-! ### RECORD rows -/

/-- R141's example with blocks of two bytes: the last byte of block 0, a crossing, then block 2 read through. -/
theorem test_rec_data :
    after (exec (.recData 0x00 0x01 [0x01, 0x02]) st) (fun s => (s.currentBlock, s.buf, s.nv)) =
      some (2, [0x02, 0x00], [(0, 0xA0), (1, 0x01), (2, 0xB2), (5, 0xC5)]) ∧
    after (exec (.recData 0x00 0x01 [0x01, 0x02]) st) (·.trace) =
      some [.send 0x13, .commit 0 [0xA0, 0x01], .send 0x2E, .load 2, .send 0x11] := by decide

/-- The address wraps from 0xFFFF to 0x0000: a crossing from the last block to block 0. -/
theorem test_rec_data_wraps : after (exec (.recData 0xFF 0xFF [0x07, 0x08]) st) (fun s => (s.currentBlock, s.buf, s.nv)) =
    some (0, [0x08, 0xA1], [(0, 0xA0), (1, 0xA1), (2, 0xB2), (5, 0xC5), (0xFFFF, 0x07)]) := by decide

theorem test_rec_eos : after (exec (.recEos 0x12 0x34 [0x99]) st) (fun s => (s.fsm, s.nv, s.executable, s.txQueue)) =
    some (.finished, [(0, 0xA0), (1, 0xA1), (2, 0xB2), (5, 0xC5)], [0], []) := by decide

/-- A final commit that faults: no hand-off (R114). -/
theorem test_rec_eos_write_fault : after (exec (.recEos 0 0 []) (answering [.writeFault] st)) (fun s => (s.fsm, s.trace)) =
    some (.writeFaulted, [.commit 0 [0xA0, 0xA1]]) := by decide

theorem test_rec_nop : after (exec (.recNop 0x12 0x34 0x02 [0x09, 0x09]) (mid [2, 0x12]))
    (fun s => (s.fsm, s.offset, s.buf, s.trace)) = some (.awaitingLine, 0, [0xA0, 0xA1], []) := by decide

theorem test_rec_badsum : after (exec (.recBadsum 0 0 1 [] 0xFE) st) (fun s => (s.fsm, s.trace)) =
    some (.aborted, [.send 0x21]) := by decide

set_option maxRecDepth 8000 in
/-- The operands a completed record is dispatched with, the terminator among them (log 10). -/
theorem test_completed_record :
    completedRecord (mid [1, 0x12, 0x34, 5, 0xAA, 0x10]) = .recBadsum 0x12 0x34 5 [0xAA] 0x10 ∧
    completedRecord (mid [0, 0, 0, 1, 0xFF]) = .recEos 0 0 [] := by decide

/-! ### OUT rows -/

theorem test_out_flow_control :
    after (exec .outXoff st) (fun s => (s.senderPaused, s.txQueue)) = some (true, [0x13]) ∧
    after (exec .outXon { st with senderPaused := true }) (fun s => (s.senderPaused, s.trace)) =
      some (false, [.send 0x11]) := by decide

theorem test_out_banners :
    after (exec .outBannerStart st) (·.trace) = some [.send 0x42] ∧
    after (exec .outBannerHandoff st) (·.txQueue) = some [0x4A, 0x4B] := by decide

theorem test_out_characters :
    after (exec .outProgress st) (·.trace) = some [.send 0x2E] ∧ after (exec .outErr st) (·.trace) = some [.send 0x21] := by
  decide

/-! ### The step -/

/-- The last nibble of 00000001FF finishes the session. -/
theorem test_step_last_nibble :
    after (step { midNibble [0, 0, 0, 1] 15 with inbox := [.event (.byteReceived 0x46)] }) (fun s => (s.fsm, s.trace)) =
    some (.finished, [.armTimeout, .commit 0 [0xA0, 0xA1], .send 0x2E, .send 0x4A, .send 0x4B, .drain, .handoff 0x0100]) := by
  decide

/-- An external reset runs session entry, from a terminal state too (R190, R191). -/
theorem test_step_reset :
    after (step { st with fsm := .aborted, inbox := [.event .timedOut, .externalReset []] })
      (fun s => (s.fsm, s.inbox, s.trace)) =
    some (.awaitingLine, [], [.send 0x42, .load 0, .send 0x11, .armTimeout]) := by decide

/-- No answer of a commit is fixed at reset (R7; log 3); a listed one comes first. -/
theorem test_answers :
    nextAnswer State.reset = Config.freeAnswer 0 ∧ answerOf (answering [.writeFault] State.reset) 0 = .writeFault ∧
    answerOf (answering [.writeFault] State.reset) 1 = Config.freeAnswer 1 := ⟨rfl, rfl, rfl⟩

/-- Placed words run as the first step after reset. -/
theorem test_with_fetch_word :
    after (step (State.reset.withFetchWord 8 0x44)) (·.hiNib) = some 13 ∧
    after (step (State.reset.withFetchWord 16 0x4544)) (·.recLength) = some 0xDE ∧
    after (step (answering [.ok] (State.reset.withFetchWord 40 0xFF01000000))) (·.fsm) = some .finished ∧
    after (step (State.reset.withFetchWord 40 0xFF02000000)) (·.fsm) = some .aborted := by decide

/-! ### Every obligation's hypotheses are met by a concrete case, each clause at a boundary value -/

theorem inv_mid : Inv (mid [2, 0]) :=
  ⟨by decide, by decide, by decide, (fun h => by cases h), fun _ => ⟨.inr (by decide), by decide, by decide⟩,
    fun _ => rfl, rfl⟩

/-- One nibble before the end of 00000001FF. -/
def atEnd : State := midNibble [0, 0, 0, 1] 15

theorem inv_atEnd : Inv atEnd :=
  ⟨by decide, by decide, by decide, (fun h => by cases h), fun _ => ⟨.inl rfl, by decide, by decide⟩, fun _ => rfl, rfl⟩

/-- One nibble before the end of 0100000007F8, a data record of the one byte 7 at address 0. -/
def lastData : State := midNibble [1, 0, 0, 0, 7] 15

/-- With the given inputs waiting. -/
def hearing (es : List Input) (s : State) : State := { s with inbox := es }

/-- Neither inputs nor answers play a part in the invariant. -/
theorem inv_hearing {s : State} (es : List Input) (h : Inv s) : Inv (hearing es s) := h

theorem inv_answering {s : State} (as : List CommitAnswer) (h : Inv s) : Inv (answering as s) := h

/-- Commits whose answers are listed as Ok are answered Ok. -/
theorem okFor_listed {n : Nat} {s : State} (h : s.answers = List.replicate n .ok) : OkFor n s := fun k hk => by
  simp [answerOf, h, List.getD_eq_getElem?_getD, hk]

/-- A character event. -/
def char (c : Byte) : Input := .event (.byteReceived c)

theorem witness_NibOfHexCodes :
    nib 0x30 = .valid 0 ∧ nib 0x39 = .valid 9 ∧ nib 0x41 = .valid 10 ∧ nib 0x46 = .valid 15 := by decide

theorem witness_NibRejectsEveryOtherCode :
    nib 0x00 = .invalid ∧ nib 0x2F = .invalid ∧ nib 0x3A = .invalid ∧ nib 0x40 = .invalid ∧ nib 0x47 = .invalid ∧
    nib 0xFF = .invalid := by decide

theorem witness_DecodeOfEncode :
    WellFormed (.recBadsum 1 2 3 [4] 5) = true ∧ formatOf (.recBadsum 1 2 3 [4] 5) = some .record ∧
    decode .record (encode st.params (.recBadsum 1 2 3 [4] 5) ++ [9]) = .ok (.recBadsum 1 2 3 [4] 5, [9]) :=
  ⟨rfl, rfl, rfl⟩

theorem witness_EncodeOfDecode :
    decode (.byte .data) [0x30, 0x46, 0x0A] = .ok (.byteData 0x0F, [0x0A]) ∧
    encode st.params (.byteData 0x0F) ++ [0x0A] = [0x30, 0x46, 0x0A] := ⟨rfl, rfl⟩

theorem witness_StepRunsTheDecodedInstruction :
    (polls (hearing [char 0x44] st).fsm = true ∧ decode .char [0x44] = .ok (.chD, []) ∧ WellFormed .chD = true ∧
      step (hearing [char 0x44] st) = exec .chD (hearing [] st)) ∧
    (st.fsm = .awaitingLine ∧ step (hearing [.event .timedOut] st) = exec .timeoutIdle (hearing [] st)) ∧
    ((mid [2]).fsm = .accumulatingRecord ∧
      step (hearing [.event .timedOut] (mid [2])) = exec .timeoutMidrec (hearing [] (mid [2]))) :=
  ⟨⟨rfl, rfl, rfl, rfl⟩, ⟨rfl, rfl⟩, ⟨rfl, rfl⟩⟩

/-- A terminal state with an event it never takes. -/
def dead : State := { st with fsm := .aborted, inbox := [char 0x30] }

theorem witness_TerminalStatesChangeNothing :
    st.inbox = [] ∧ step st = .next st ∧ polls dead.fsm = false ∧ dead.inbox = [.event (.byteReceived 0x30)] ∧
    step dead = .next dead ∧ exec .ch0 dead = .next dead := ⟨rfl, rfl, rfl, rfl, rfl, rfl⟩

theorem witness_ExternalResetRunsSessionEntry :
    polls (hearing [.externalReset []] (mid [2])).fsm = true ∧
    after (step (hearing [.externalReset []] { mid [2] with txQueue := [9], executable := [0] }))
      (fun s => (s.fsm, s.offset, s.txQueue, s.executable)) = some (.awaitingLine, 0, [0x42, 0x11], []) ∧
    polls (hearing ([Event.timedOut].map Input.event ++ [.externalReset []]) dead).fsm = false ∧
    after (step (hearing ([Event.timedOut].map Input.event ++ [.externalReset []]) dead)) (·.fsm) = some .awaitingLine := by
  decide

/-- Two blocks that differ in their own state, and in what R36 says of the queue, the sender and the timer, forget it. -/
theorem witness_ResetForgetsTheBlock :
    (hearing [.externalReset [1]] st).buf ≠ { hearing [.externalReset [1]] st with buf := [1, 2], sum := 7 }.buf ∧
    step (hearing [.externalReset [1]] st) =
      step { hearing [.externalReset [1]] st with
        buf := [1, 2], sum := 7, txQueue := [9], executable := [2], senderPaused := true, timerArmed := false } :=
  ⟨by decide, rfl⟩

/-- A reset in the middle of the step that would finish the session, after the commit, and one before its answer; the same with
a further reset after the first action of the session entry. -/
theorem witness_ResetInsideAStep :
    polls (hearing [.resetDuring (.byteReceived 0x46) 2 false []] atEnd).fsm = true ∧
    Inv (hearing [.resetDuring (.byteReceived 0x46) 2 false []] atEnd) ∧
    after (step (hearing [.resetDuring (.byteReceived 0x46) 2 false []] atEnd)) (newActions atEnd) =
      some [.armTimeout, .commit 0 [0xA0, 0xA1], .send 0x42, .load 0, .send 0x11, .armTimeout] ∧
    after (step (hearing [.resetDuring (.byteReceived 0x46) 2 true []] atEnd)) (fun s => (s.fsm, s.executable)) =
      some (.awaitingLine, []) ∧
    after (step (hearing [.resetDuring (.byteReceived 0x46) 1 false [1, 0]] atEnd)) (newActions atEnd) =
      some [.armTimeout, .send 0x42, .send 0x42, .load 0, .send 0x11, .armTimeout] :=
  ⟨rfl, inv_hearing _ inv_atEnd, by decide, by decide, by decide⟩

/-- The second clause: a session entry cut after two actions, from a state that polls; and a reset that names an event, in a
terminal state past an event it never takes. -/
theorem witness_ResetInsideAStep_entries :
    polls (hearing [.externalReset [2]] st).fsm = true ∧
    after (step (hearing [.externalReset [2]] st)) (fun s => (s.fsm, s.trace)) =
      some (.awaitingLine, [.send 0x42, .load 0, .send 0x42, .load 0, .send 0x11, .armTimeout]) ∧
    polls (hearing ([Event.timedOut].map Input.event ++ [.resetDuring .timedOut 3 false [0]]) dead).fsm = false ∧
    after (step (hearing ([Event.timedOut].map Input.event ++ [.resetDuring .timedOut 3 false [0]]) dead))
      (fun s => (s.fsm, s.inbox, s.trace)) =
      some (.awaitingLine, [], [.send 0x42, .load 0, .send 0x11, .armTimeout]) := by decide

theorem witness_CommittedBlocksSurviveAReset :
    polls (hearing [.resetDuring (.byteReceived 0x46) 2 false [1]] atEnd).fsm = true ∧
    Inv (hearing [.resetDuring (.byteReceived 0x46) 2 false [1]] atEnd) ∧
    OkFor 256 (hearing [.resetDuring (.byteReceived 0x46) 2 false [1]] atEnd) ∧
    (actionsOf atEnd (step (hearing [char 0x46] atEnd))).take 2 = [.armTimeout] ++ .commit 0 [0xA0, 0xA1] :: [] ∧
    after (step (hearing [.resetDuring (.byteReceived 0x46) 2 false [1]] atEnd)) (·.nv.read 1) = some 0xA1 :=
  ⟨rfl, inv_hearing _ inv_atEnd, okFor_listed rfl, by decide, by decide⟩

/-- A crossing: the replayed actions give the memory and the queue. -/
theorem witness_ReplayedActionsAreTheStep :
    after (exec (.recData 0x00 0x01 [7, 8]) st) (fun s => (s.nv.read 1, s.txQueue)) = some (7, [0x13, 0x2E, 0x11]) ∧
    after (exec (.recData 0x00 0x01 [7, 8]) st) (fun s => (replay (newActions st s) st).nv.read 1) = some 7 ∧
    after (exec (.recData 0x00 0x01 [7, 8]) st) (fun s => (replay (newActions st s) st).txQueue) =
      some [0x13, 0x2E, 0x11] := by decide

theorem witness_FirstNibbleIsKept :
    (Instr.chF, (15 : Nibble)) ∈ hexRows ∧ polls (mid [2, 0]).fsm = true ∧ (mid [2, 0]).nibPhase = .high ∧
    after (exec .chF (mid [2, 0])) (·.hiNib) = some 15 := by decide

/-- Offsets 0 to 3 before any length is known, and the first and last payload byte. -/
theorem witness_SecondNibbleFeedsTheByte :
    (Instr.ch5, (5 : Nibble)) ∈ hexRows ∧ (midNibble [] 0).nibPhase = .low ∧ (midNibble [] 0).offset.toNat = 0 ∧
    (midNibble [0, 0, 0] 0).offset.toNat = 3 ∧ (midNibble [2, 0, 0, 0] 0).offset.toNat = 4 ∧
    (midNibble [2, 0, 0, 0, 0] 0).offset.toNat < 4 + (midNibble [2, 0, 0, 0, 0] 0).recLength.toNat ∧
    polls (midNibble [2, 0, 0, 0, 0] 0).fsm = true := by decide

/-- The four endings: a bad sum, types 1, 0 and 2. -/
theorem witness_LastNibbleDispatchesTheRecord :
    (Instr.chF, (15 : Nibble)) ∈ hexRows ∧ polls atEnd.fsm = true ∧ atEnd.nibPhase = .low ∧
    atEnd.offset.toNat = 4 + atEnd.recLength.toNat ∧
    after (exec .chE atEnd) (·.fsm) = some .aborted ∧ after (exec .chF atEnd) (·.fsm) = some .finished ∧
    after (exec .ch0 (midNibble [0, 0x40, 0, 0] 12)) (fun s => (s.fsm, s.buf)) = some (.awaitingLine, [0xA0, 0xA1]) ∧
    after (exec .chE (midNibble [0, 0, 0, 2] 15)) (·.fsm) = some .awaitingLine := by decide

theorem witness_NonhexRestartsTheLine :
    polls (mid [2]).fsm = true ∧ st.fsm = .awaitingLine ∧ AtLineStart st ∧ exec (.chNonhex 0x0A) st = .next st :=
  ⟨rfl, rfl, ⟨rfl, rfl, rfl, rfl, rfl, rfl, rfl, rfl, rfl⟩, rfl⟩

theorem witness_TimeoutMidRecordRestartsTheLine :
    (mid [2]).fsm = .accumulatingRecord ∧ after (exec .timeoutMidrec (mid [2])) (·.fsm) = some .awaitingLine := by decide

theorem witness_FinishCommitsAndHandsOver :
    Inv st ∧ nextAnswer st = .ok ∧ st.fsm = .awaitingLine ∧ polls (mid [2, 0]).fsm = true ∧ Inv (mid [2, 0]) :=
  ⟨inv_st, rfl, rfl, rfl, inv_mid⟩

theorem witness_WriteFaultInTheFinalFlush :
    Inv (answering [.writeFault] st) ∧ nextAnswer (answering [.writeFault] st) = .writeFault ∧
    (answering [.writeFault] st).fsm = .awaitingLine := ⟨inv_answering _ inv_st, rfl, rfl⟩

theorem witness_HungFinalCommitIsStuck :
    Inv (answering [.never] st) ∧ nextAnswer (answering [.never] st) = .never ∧
    ∃ u, exec .timeoutIdle (answering [.never] st) = .fault (.stuck u) := ⟨inv_answering _ inv_st, rfl, _, rfl⟩

/-- Each clause where it starts: offset 0, 1, 2, 3, 4 and past the payload. -/
theorem witness_RowsAreSelectedByState :
    exec .timeoutIdle (mid [2]) = .refused .notSelected ∧ exec .timeoutMidrec st = .refused .notSelected ∧
    exec (.byteLength 0) (mid [1]) = .refused .notSelected ∧ exec (.byteAddrHi 0) st = .refused .notSelected ∧
    exec (.byteAddrLo 0) (mid [1]) = .refused .notSelected ∧ exec (.byteType 0) (mid [1, 0]) = .refused .notSelected ∧
    exec (.byteData 0) (mid [1, 0, 0]) = .refused .notSelected ∧
    exec (.byteData 0) (mid [1, 0, 0, 0, 0]) = .refused .notSelected ∧
    exec (.byteTerminator 0) (mid [1, 0, 0, 0]) = .refused .notSelected :=
  ⟨rfl, rfl, rfl, rfl, rfl, rfl, rfl, rfl, rfl⟩

theorem witness_ByteRowsFillTheRecord :
    polls st.fsm = true ∧ st.offset.toNat = 0 ∧ (mid [2]).offset.toNat = 1 ∧ (mid [2, 0]).offset.toNat = 2 ∧
    (mid [2, 0, 0]).offset.toNat = 3 ∧ (mid [2, 0, 0, 0]).offset.toNat = 4 ∧
    (mid [2, 0, 0, 0, 0]).offset.toNat < 4 + (mid [2, 0, 0, 0, 0]).recLength.toNat := by decide

theorem witness_TerminatorIsOnlySummed :
    polls (mid [1, 0, 0, 0, 9]).fsm = true ∧ (mid [1, 0, 0, 0, 9]).offset.toNat = 4 + (mid [1, 0, 0, 0, 9]).recLength.toNat :=
  by decide

theorem witness_CompletionAndValidity :
    after (exec (.byteTerminator 0xFF) (mid [0, 0, 0, 1])) recordEvent = some (.recordComplete true) ∧
    after (exec (.byteTerminator 0xFE) (mid [0, 0, 0, 1])) recordEvent = some (.recordComplete false) ∧
    after (exec (.byteType 1) (mid [0, 0, 0])) recordEvent = some .inProgress := by decide

theorem witness_AssemblerReportsTheChecksum :
    AtLineStart st ∧ decode .record [0, 0, 0, 1, 0xFF] = .ok (.recEos 0 0 [], []) ∧ byteSum [0, 0, 0, 1, 0xFF] = 0 ∧
    recordEvent (feedAll [0, 0, 0, 1, 0xFF] st) = .recordComplete true ∧
    recordEvent (feedAll ([0, 0, 0, 1, 0xFF].set 4 0xFE) st) = .recordComplete false :=
  ⟨⟨rfl, rfl, rfl, rfl, rfl, rfl, rfl, rfl, rfl⟩, rfl, rfl, rfl, rfl⟩

theorem witness_NopAndBadsumRecords :
    polls st.fsm = true ∧ after (exec (.recNop 0 0 2 []) st) (·.fsm) = some .awaitingLine ∧
    after (exec (.recBadsum 0 0 2 [] 0) st) (·.fsm) = some .aborted := by decide

theorem witness_EmptyPayloadRecords :
    polls (mid [0, 0, 0, 0]).fsm = true ∧ (mid [0, 0, 0, 0]).recLength = 0 ∧ (mid [0, 0, 0, 0]).offset.toNat = 4 ∧
    after (exec (.recData 0x40 0x00 []) st) (fun s => (s.fsm, s.trace)) = some (.awaitingLine, []) := by decide

theorem witness_DataRecordInsideTheBlock :
    polls st.fsm = true ∧ BufferSized st ∧
    payloadAddrs ((0x00 : Byte) ++ (0x00 : Byte) : BitVec 16) 2 = [0, 1] ∧
    [0, 1].all (fun a => blockBase st.params a = st.currentBlock) = true ∧
    after (exec (.recData 0x00 0x00 [7, 8]) st) (fun s => (s.buf, s.trace)) = some ([7, 8], []) := by decide

theorem witness_CrossingSequence :
    polls st.fsm = true ∧ Inv st ∧ nextAnswer st = .ok ∧
    blockBase st.params ((0x00 : Byte) ++ (0x02 : Byte) : BitVec 16) ≠ st.currentBlock :=
  ⟨rfl, inv_st, rfl, by decide⟩

/-- The second payload byte crosses, with the two answers that are not Ok; and the fourth byte of a record whose second byte
crossed with Ok: both blocks stay as said. -/
theorem witness_CommitFailsInACrossing :
    polls st.fsm = true ∧ Inv (answering [.writeFault] st) ∧ Inv (answering [.never] st) ∧
    after (exec (.recData 0x00 0x01 [7]) (answering [.writeFault] st)) (fun s => (polls s.fsm, s.currentBlock)) =
      some (true, 0) ∧
    blockBase st.params (((0x00 : Byte) ++ (0x01 : Byte) : BitVec 16) + BitVec.ofNat 16 1) ≠ 0 ∧
    after (exec (.recData 0x00 0x01 [7, 8, 9]) (answering [.writeFault] st)) (fun s => (s.fsm, s.trace)) =
      some (.writeFaulted, [.send 0x13, .commit 0 [0xA0, 7]]) :=
  ⟨rfl, inv_answering _ inv_st, inv_answering _ inv_st, by decide, by decide, by decide⟩

theorem witness_CommitFailsInACrossing_later :
    Inv (answering [.ok, .writeFault] st) ∧
    after (exec (.recData 0x00 0x01 [7, 8, 9]) (answering [.ok, .writeFault] st))
      (fun s => (polls s.fsm, s.currentBlock, nextAnswer s)) = some (true, 2, .writeFault) ∧
    blockBase st.params (((0x00 : Byte) ++ (0x01 : Byte) : BitVec 16) + BitVec.ofNat 16 3) ≠ 2 ∧
    after (exec (.recData 0x00 0x01 ([7, 8, 9] ++ 10 :: [11])) (answering [.ok, .writeFault] st))
      (fun s => (s.fsm, s.nv.read 1, s.trace.drop 5)) = some (.writeFaulted, 7, [.send 0x13, .commit 2 [8, 9]]) :=
  ⟨inv_answering _ inv_st, by decide, by decide, by decide⟩

theorem witness_DataRecordWritesExactlyItsPayload :
    polls st.fsm = true ∧ Inv st ∧ OkFor 2 st ∧ [(7 : Byte), 8].length ≤ 255 ∧
    after (exec (.recData 0x00 0x01 [7, 8]) st) (fun s => (logicalByte s 0, logicalByte s 1, logicalByte s 2)) =
      some (0xA0, 7, 8) := ⟨rfl, inv_st, (okFor_listed rfl).mono (by decide), by decide, by decide⟩

theorem witness_BufferMirrorsItsBlock :
    polls st.fsm = true ∧ Inv st ∧ logicalByte st 0 = st.nv.read 0 ∧ logicalByte st 1 = st.nv.read 1 ∧
    after (exec (.recData 0x00 0x04 [7]) st) (fun s => polls s.fsm) = some true ∧
    after (exec (.recData 0x00 0x04 [7]) st) (fun s => logicalByte s 5) = some 0xC5 ∧
    after (exec (.recData 0x00 0x04 [7]) st) (fun s => s.nv.read 5) = some 0xC5 :=
  ⟨rfl, inv_st, by decide, by decide, by decide, by decide, by decide⟩

theorem mirrors_st : MirrorsExcept [] st := by
  intro a ha _
  have h : a = 0 ∨ a = 1 := by
    have : a.toNat / 2 * 2 = 0 := (blockBase_eq st.params a).symm.trans (congrArg BitVec.toNat ha)
    have : a.toNat = 0 ∨ a.toNat = 1 := by omega
    rcases this with h | h
    · exact .inl (BitVec.eq_of_toNat_eq h)
    · exact .inr (BitVec.eq_of_toNat_eq h)
  rcases h with rfl | rfl <;> decide

set_option maxRecDepth 8000 in
/-- The clauses about steps: the last character of 0100000007F8, whose one byte goes to place 0, and a reset. -/
theorem witness_BufferMirrorsItsBlock_steps :
    Inv (hearing [char 0x38] lastData) ∧ MirrorsExcept [] (hearing [char 0x38] lastData) ∧
    addressesDue (hearing [char 0x38] lastData) = [0] ∧
    after (step (hearing [char 0x38] lastData)) (fun s => (polls s.fsm, s.buf, s.nv.read 0)) = some (true, [7, 0xA1], 0xA0) ∧
    after (step (hearing [.externalReset []] { lastData with buf := [1, 2] })) (fun s => (polls s.fsm, s.buf)) =
      some (true, [0xA0, 0xA1]) := by
  refine ⟨inv_hearing _ ⟨by decide, by decide, by decide, (fun h => by cases h),
    fun _ => ⟨.inl rfl, by decide, by decide⟩, fun _ => rfl, rfl⟩, mirrors_st, by decide, by decide, by decide⟩

theorem witness_RecordTextRunsAsItsRow :
    WellFormed (.recEos 0 0 []) = true ∧ formatOf (.recEos 0 0 []) = some .record ∧ st.fsm = .awaitingLine ∧
    AtLineStart st ∧
    after (Host.Core.run Sys2Proof.core 10 (hearing (characters (textOf (encode st.params (.recEos 0 0 [])))) st))
      (fun s => s.fsm) = some .finished :=
  ⟨rfl, rfl, rfl, ⟨rfl, rfl, rfl, rfl, rfl, rfl, rfl, rfl, rfl⟩, rfl⟩

theorem witness_OutRowsSendTheirBytes : polls st.fsm = true ∧ after (exec .outErr st) (·.txQueue) = some [0x21] := by decide

theorem witness_TouchComparesBlocks :
    touch st 1 = .noTransition ∧ touch st 2 = .crossing 0 2 ∧ touch st 0xFFFF = .crossing 0 0xFFFE := by decide

theorem witness_BufWriteSetsOneByte :
    BufferSized st ∧ blockBase st.params 1 = st.currentBlock ∧ (bufWrite 1 7 st).buf = [0xA0, 7] := by decide

theorem witness_CommitStoresItsBlock :
    BlockAligned st ∧ BufferSized st ∧ Memory.wf st.nv ∧ nextAnswer st = .ok ∧
    ∃ t, commit st = .go t ∧ t.nv.read 1 = 0xA1 := ⟨by decide, by decide, by decide, rfl, _, rfl, rfl⟩

theorem witness_CommitIsIdempotent :
    BufferSized st ∧ Memory.wf st.nv ∧ nextAnswer st = .ok ∧ st.buf = Memory.block st.params st.nv st.currentBlock :=
  ⟨by decide, by decide, rfl, by decide⟩

/-- An instruction that does change memory. -/
theorem witness_MemoryChangesOnlyInCommittedBlocks :
    Inv st ∧ after (exec (.recData 0x00 0x01 [7, 8]) st) (fun s => (s.nv.read 1, newActions st s)) =
      some (7, [.send 0x13, .commit 0 [0xA0, 7], .send 0x2E, .load 2, .send 0x11]) := ⟨inv_st, by decide⟩

theorem witness_BlockStaysAligned :
    BlockAligned (hearing [char 0x46] atEnd) ∧ after (step (hearing [char 0x46] atEnd)) (·.currentBlock) = some 0 := by decide

theorem witness_StepKeepsTheInvariant :
    Inv (hearing [char 0x46] atEnd) ∧ after (step (hearing [char 0x46] atEnd)) (·.fsm) = some .finished :=
  ⟨inv_hearing _ inv_atEnd, by decide⟩

/-- Both clauses: no commit hangs; one does. -/
theorem witness_StepCompletesUnlessACommitHangs :
    Inv (hearing [char 0x46] atEnd) ∧ OkFor 256 (hearing [char 0x46] atEnd) ∧
    Inv (answering [.never] (hearing [char 0x46] atEnd)) ∧
    ∃ u, step (answering [.never] (hearing [char 0x46] atEnd)) = .fault (.stuck u) :=
  ⟨inv_hearing _ inv_atEnd, okFor_listed rfl, inv_answering _ (inv_hearing _ inv_atEnd), _, rfl⟩

theorem witness_HandoffExactlyOnFinishing :
    polls (hearing [char 0x46] atEnd).fsm = true ∧
    after (step (hearing [char 0x46] atEnd)) (fun s => (s.fsm, newActions atEnd s)) =
      some (.finished, [.armTimeout, .commit 0 [0xA0, 0xA1], .send 0x2E, .send 0x4A, .send 0x4B, .drain, .handoff 0x0100]) :=
  by decide

theorem witness_FinishedLeavesTheStreamInMemory :
    polls (hearing [char 0x46] atEnd).fsm = true ∧ Inv (hearing [char 0x46] atEnd) ∧
    after (step (hearing [char 0x46] atEnd)) (fun s => (s.fsm, s.nv.read 1, s.executable)) = some (.finished, 0xA1, [0]) :=
  ⟨rfl, inv_hearing _ inv_atEnd, by decide⟩

theorem witness_AbortedOnlyByABadSum :
    polls (hearing [char 0x45] atEnd).fsm = true ∧
    after (step (hearing [char 0x45] atEnd)) (fun s => (s.fsm, newActions atEnd s)) =
      some (.aborted, [.armTimeout, .send 0x21]) := by decide

set_option maxRecDepth 8000 in
/-- A fault in the final commit, and one in a crossing, which leaves the sender paused. -/
theorem witness_WriteFaultedOnlyByAnAnswer :
    polls (hearing [char 0x46] atEnd).fsm = true ∧ Inv (answering [.writeFault] (hearing [char 0x46] atEnd)) ∧
    after (step (answering [.writeFault] (hearing [char 0x46] atEnd))) (fun s => (s.fsm, s.senderPaused)) =
      some (.writeFaulted, false) ∧
    after (step (answering [.writeFault] (hearing [char 0x36] (midNibble [1, 0, 2, 0, 7] 15))))
      (fun s => (s.fsm, s.senderPaused)) = some (.writeFaulted, true) :=
  ⟨rfl, inv_answering _ (inv_hearing _ inv_atEnd), by decide, by decide⟩

/-- The four cases: a hex character, another character, a timeout in the middle of a record, a timeout at a line start. -/
theorem witness_TimeoutIsArmedOnHexCharacters :
    Inv (hearing [char 0x30] st) ∧
    after (step (hearing [char 0x30] st)) (newActions st) = some [.armTimeout] ∧
    after (step (hearing [char 0x2F] st)) (newActions st) = some [] ∧
    after (step (hearing [.event .timedOut] (mid [2, 0]))) (newActions (mid [2, 0])) = some [.armTimeout] ∧
    after (step (hearing [.event .timedOut] st)) (fun s => (newActions st s).count .armTimeout) = some 0 :=
  ⟨inv_hearing _ inv_st, by decide, by decide, by decide, by decide⟩

theorem witness_EveryCommitIsReported :
    polls (hearing [char 0x46] atEnd).fsm = true ∧ Inv (hearing [char 0x46] atEnd) ∧ OkFor 256 (hearing [char 0x46] atEnd) ∧
    after (step (hearing [char 0x46] atEnd)) (fun s => ((newActions atEnd s)[1]?, (newActions atEnd s)[2]?)) =
      some (some (.commit 0 [0xA0, 0xA1]), some (.send 0x2E)) := ⟨rfl, inv_hearing _ inv_atEnd, okFor_listed rfl, by decide⟩

theorem witness_ParametersAreConstant :
    after (step (hearing [char 0x46] atEnd)) (·.params) = some st.params ∧
    after (exec .chF (hearing [char 0x30] atEnd)) (·.inbox) = some [char 0x30] := by decide

/-- From a line start one timeout, from the middle of a record two. -/
theorem witness_SilenceFinishesTheSession :
    polls (mid [2, 0]).fsm = true ∧ Inv (hearing [.event .timedOut, .event .timedOut] (mid [2, 0])) ∧
    nextAnswer (hearing [.event .timedOut, .event .timedOut] (mid [2, 0])) = .ok ∧
    after (Host.Core.run Sys2Proof.core 2 (hearing [.event .timedOut, .event .timedOut] (mid [2, 0]))) (fun s => s.fsm) =
      some .finished ∧
    after (Host.Core.run Sys2Proof.core 1 (hearing [.event .timedOut, .event .timedOut] st)) (fun s => s.fsm) =
      some .finished := ⟨rfl, inv_hearing _ inv_mid, rfl, rfl, rfl⟩

end Sys2Proof.Tests
end

section
/-! R23: the current block is aligned after session entry, and every step keeps it aligned. A step writes `current_block` in two
places only, session entry (the initial block) and a crossing (the base of an address). -/

namespace Sys2Proof.Machine

/-- Alignment speaks of the parameters and the current block only. -/
theorem BlockAligned.congr {s t : State} (hs : BlockAligned s) (hp : t.params = s.params)
    (hb : t.currentBlock = s.currentBlock) : BlockAligned t := by
  rwa [BlockAligned, hp, hb]

theorem blockAligned_sessionEntry (s : State) : BlockAligned (sessionEntry s) := by
  simp [BlockAligned, Config.initialBlock]

theorem blockAligned_sessionEntries (again : List Nat) (s : State) : BlockAligned (sessionEntries again s) := by
  rw [sessionEntries_eq]
  exact (blockAligned_sessionEntry s).congr rfl rfl

theorem blockAligned_crossed (s : State) (a : Addr) : BlockAligned (crossed (blockBase s.params a) s) := by
  simpa [BlockAligned] using base_aligned s.params a

/-- `finish()` leaves the current block where it is, whatever its commit answers. -/
theorem blockAligned_of_finish {s t : State} (hs : BlockAligned s) (h : (finish s).toOutcome = .next t) :
    BlockAligned t := by
  obtain ⟨-, rfl⟩ | ⟨-, rfl⟩ := (finish_sat s).of_next h
  · exact hs.congr (by simp) (by simp)
  · exact hs.congr (by simp) (by simp)

/-- A data record keeps alignment: a byte inside the block leaves the block, a crossing moves to the base of an address, and a
crossing whose commit faults has not moved yet. -/
theorem applyPayload_keeps_blockAligned (a : Addr) (bs : List Byte) {s : State} (hs : BlockAligned s) :
    (applyPayload a bs s).Sat BlockAligned BlockAligned fun _ => True := by
  have hwrite : ∀ s a v, BlockAligned s → blockBase s.params a = s.currentBlock → BlockAligned (bufWrite a v s) :=
    fun s a v hs _ => hs.congr rfl rfl
  have hcross : ∀ s a, BlockAligned s → nextAnswer s = .ok → BlockAligned (crossed (blockBase s.params a) s) :=
    fun s a _ _ => blockAligned_crossed s a
  refine (applyPayload_sat hwrite hcross a bs hs).imp (fun _ h => h) ?_ (fun _ _ => trivial)
  rintro _ ⟨u, hu, -, rfl⟩
  exact hu.congr (by simp [cutInCrossing]) (by simp [cutInCrossing])

theorem blockAligned_of_recData {a : Addr} {bs : List Byte} {s t : State} (hs : BlockAligned s)
    (h : ((applyPayload a bs s).andThen fun s => .go (lineRestart s)).toOutcome = .next t) : BlockAligned t := by
  have hsat := (applyPayload_keeps_blockAligned a bs hs).andThen (k := fun s => .go (lineRestart s)) (P' := BlockAligned)
    fun u hu => hu.congr (t := lineRestart u) rfl rfl
  exact (hsat.of_next h).elim id id

theorem blockAligned_of_hexChar {v : Nibble} {s t : State} (hpoll : polls s.fsm = true) (hs : BlockAligned s)
    (h : hexChar v s = .next t) : BlockAligned t := by
  have hfed : ∀ p, BlockAligned (feedAt p (joinNibbles s.hiNib v) (hexPaired s)) := fun p =>
    hs.congr (feedAt_params ..) (feedAt_currentBlock ..)
  obtain ⟨-, e⟩ | ⟨-, p, -, -, e⟩ | ⟨-, -, e⟩ | ⟨-, -, u, rfl, hcomplete⟩ := hexChar_cases v hpoll
  · cases e.symm.trans h
    exact hs.congr rfl rfl
  · cases e.symm.trans h
    exact hfed p
  · cases e.symm.trans h
  · obtain ⟨-, e⟩ | ⟨-, -, e⟩ | ⟨-, -, e⟩ | ⟨-, -, -, e⟩ := hcomplete
    · cases e.symm.trans h
      exact (hfed .terminator).congr rfl rfl
    · exact blockAligned_of_finish (hfed .terminator) (e.symm.trans h)
    · exact blockAligned_of_recData (hfed .terminator) (e.symm.trans h)
    · cases e.symm.trans h
      exact (hfed .terminator).congr rfl rfl

theorem blockAligned_of_polling_step {s t : State} (hpoll : polls s.fsm = true) (hs : BlockAligned s)
    (h : step s = .next t) : BlockAligned t := by
  obtain ⟨-, e⟩ | ⟨again, rest, -, e⟩ | ⟨c, v, rest, -, -, e⟩ | ⟨c, rest, -, -, e⟩ | ⟨rest, -, -, e⟩ | ⟨rest, -, -, e⟩ |
    ⟨ev, count, inCommit, again, rest, -, e⟩ := step_cases hpoll
  · cases e.symm.trans h
    exact hs
  · cases e.symm.trans h
    exact blockAligned_sessionEntries again _
  · exact blockAligned_of_hexChar (s := { s with inbox := rest }) hpoll hs (e.symm.trans h)
  · cases e.symm.trans h
    exact hs.congr rfl rfl
  · exact blockAligned_of_finish (s := { s with inbox := rest, timerArmed := false }) hs (e.symm.trans h)
  · cases e.symm.trans h
    exact hs.congr rfl rfl
  · cases e.symm.trans h
    exact blockAligned_sessionEntries again _

theorem blockAligned_of_terminal_step {s t : State} (hterm : polls s.fsm = false) (hs : BlockAligned s)
    (h : step s = .next t) : BlockAligned t := by
  obtain ⟨-, e⟩ | ⟨es, x, again, rest, -, -, e⟩ := step_terminal_cases hterm
  · cases e.symm.trans h
    exact hs
  · cases e.symm.trans h
    exact blockAligned_sessionEntries again _

/-- Settles O42: session entry loads the initial block, which is aligned for every block size; a step is taken by a polling
or by a terminal state, and each of its cases keeps alignment. -/
theorem blockStaysAligned : Obligations.BlockStaysAligned := by
  refine ⟨blockAligned_sessionEntry, by decide, fun s t hs h => ?_⟩
  cases hpoll : polls s.fsm with
  | true => exact blockAligned_of_polling_step hpoll hs h
  | false => exact blockAligned_of_terminal_step hpoll hs h

end Sys2Proof.Machine
end

section
/-! The idempotence of a commit (R50, P3): committing a buffer that already holds its block's contents changes no memory, and
after a commit answered Ok the buffer holds just those. -/

namespace Sys2Proof.Machine

/-- `buf` holds what memory holds of the current block. -/
abbrev BufferMirrorsBlock (s : State) : Prop := s.buf = Memory.block s.params s.nv s.currentBlock

/-- After a commit answered Ok, memory holds the buffer (R113). -/
theorem bufferMirrorsBlock_storeBlock {s : State} (hsize : BufferSized s) (hwf : Memory.wf s.nv) :
    BufferMirrorsBlock (storeBlock s) :=
  (Memory.block_writeBytes hwf s.params s.currentBlock s.buf hsize).symm

theorem storeBlock_nv_of_bufferMirrorsBlock {s : State} (hwf : Memory.wf s.nv) (hb : BufferMirrorsBlock s) :
    (storeBlock s).nv = s.nv := by
  rw [storeBlock_nv, hb]
  exact Memory.writeBytes_block hwf ..

theorem currentBlock_mem_executable_storeBlock (s : State) : s.currentBlock ∈ (storeBlock s).executable :=
  mem_insertBlock.mpr (.inl rfl)

/-- Committing a buffer that holds its block's contents changes no memory (P3). -/
theorem commit_nv_of_bufferMirrorsBlock {s : State} (hwf : Memory.wf s.nv) (hok : nextAnswer s = .ok)
    (hb : BufferMirrorsBlock s) : ∃ u, commit s = .go u ∧ u.nv = s.nv :=
  ⟨_, commit_ok hok, storeBlock_nv_of_bufferMirrorsBlock (s := issueCommit s) hwf hb⟩

/-- Settles O39: a commit answered Ok leaves the buffer mirroring its block, and from there a further commit of it changes no
memory. -/
theorem commitIsIdempotent : Obligations.CommitIsIdempotent := by
  intro s hsize hwf hok
  let t := storeBlock (issueCommit s)
  have hwf' : Memory.wf t.nv := wf_storeBlock (s := issueCommit s) hwf
  have hmirror : BufferMirrorsBlock t := bufferMirrorsBlock_storeBlock (s := issueCommit s) hsize hwf
  refine ⟨t, commit_ok hok, hmirror.symm, currentBlock_mem_executable_storeBlock _, fun as => ?secondCommit,
    fun hb => ?sameContents, load_nv t⟩
  case secondCommit =>
    exact commit_nv_of_bufferMirrorsBlock (s := { t with answers := .ok :: as }) hwf' (answerOf_listed rfl) hmirror
  case sameContents =>
    exact storeBlock_nv_of_bufferMirrorsBlock (s := issueCommit s) hwf hb

end Sys2Proof.Machine
end

section
/-! The first nibble of a byte (R83, R134): a hex character at nibble phase 0 keeps its nibble and feeds no byte; from there a
non-hex character (R135) or a timeout (R145) restarts the line, and every line restart leaves the line group of a line start
(R33). -/

namespace Sys2Proof.Machine

theorem atLineStart_lineReset (s : State) : AtLineStart (lineReset s) :=
  ⟨rfl, rfl, rfl, rfl, rfl, rfl, rfl, rfl, rfl⟩

/-- A line start is a matter of the line group alone, which `line_reset()` clears and the state change leaves as it is. -/
theorem atLineStart_lineRestart (s : State) : AtLineStart (lineRestart s) := atLineStart_lineReset s

theorem atLineStart_raiseTimeoutMidRecord (s : State) : AtLineStart (raiseTimeoutMidRecord s) := atLineStart_lineReset s

/-- Any non-hex character restarts the line, in every state that polls (R135, R161). -/
theorem exec_chNonhex {s : State} (c : Byte) (h : polls s.fsm = true) : exec (.chNonhex c) s = .next (lineRestart s) :=
  whilePolling_of _ h

/-- Settles O14: a hex row runs as a hex character of its nibble, which at phase 0 keeps the nibble; the state it leaves is
`AccumulatingRecord`, so it polls and selects the mid-record timeout, and both discards are line restarts. -/
theorem firstNibbleIsKept : Obligations.FirstNibbleIsKept := by
  intro r hr s hpoll hphase
  have hkept : exec r.1 s = .next (pairHi r.2 (hexArmed s)) := (exec_hexRow hr s).trans (hexChar_high r.2 hpoll hphase)
  have hfsm : (pairHi r.2 (hexArmed s)).fsm = .accumulatingRecord := rfl
  refine ⟨_, hkept, rfl, fun c => ?nonhex, ?timeout⟩
  case nonhex => exact ⟨_, exec_chNonhex c (by rw [hfsm]; rfl), atLineStart_lineRestart _⟩
  case timeout => exact ⟨_, exec_timeoutMidrec hfsm, atLineStart_raiseTimeoutMidRecord _⟩

end Sys2Proof.Machine
end

section
/-! The bytes of a record before its terminator (R91 to R95 with R90): each BYTE row is selected at its own offset, and feeds its
byte there. -/

namespace Sys2Proof.Machine

/-- Settles O23: the offset selects the row's position, where the byte is fed; at each position `feedAt` stores one field. -/
theorem byteRowsFillTheRecord : Obligations.ByteRowsFillTheRecord := by
  intro b s hpoll
  refine ⟨fun ho => ?length, fun ho => ?addrHi, fun ho => ?addrLo, fun ho => ?type, fun hlo hhi => ?data⟩
  case length => exact feedWhenAt_of b hpoll (position_eq_length.mpr ho)
  case addrHi => exact feedWhenAt_of b hpoll (position_eq_addrHi.mpr ho)
  case addrLo => exact feedWhenAt_of b hpoll (position_eq_addrLo.mpr ho)
  case type => exact feedWhenAt_of b hpoll (position_eq_type.mpr ho)
  case data => exact feedWhenAt_of b hpoll (position_eq_data.mpr ⟨hlo, hhi⟩)

end Sys2Proof.Machine
end

section
/-! Records without payload (R100): how they decode, where their bytes go, and what a data record among them does. -/

namespace Sys2Proof.Machine

/-- A record of length 0 decodes from its first five bytes. -/
theorem decode_record_empty (hi lo type terminator : Byte) (rest : List Byte) :
    decode .record (0x00 :: hi :: lo :: type :: terminator :: rest) =
      .ok (classifyRecord hi lo type [] terminator, rest) :=
  decodeRecord_head hi lo type [] rest terminator (by decide)

theorem position_ne_data_of_recLength_zero {s : State} (h : s.recLength = 0) : position s ≠ some .data := by
  intro hp
  obtain ⟨hlo, hhi⟩ := position_eq_data.mp hp
  have hzero : s.recLength.toNat = 0 := by rw [h]; rfl
  omega

theorem position_eq_terminator_of_recLength_zero {s : State} (h : s.recLength = 0) (ho : s.offset.toNat = 4) :
    position s = some .terminator :=
  position_eq_terminator.mpr (by rw [h, ho]; rfl)

/-- At its position the terminator is fed and completes the record (R96, R97). -/
theorem exec_byteTerminator_completes {s : State} (b : Byte) (h : polls s.fsm = true)
    (hp : position s = some .terminator) :
    ∃ t ok, exec (.byteTerminator b) s = .next t ∧ recordEvent t = .recordComplete ok :=
  ⟨feedAt .terminator b s, s.sum + b == 0, feedWhenAt_of b h hp, recordEvent_feedAt b hp⟩

/-- A data record without payload only restarts the line: its payload loop has no turn (R100, R141, R142). -/
theorem exec_recData_nil {s : State} (hi lo : Byte) (h : polls s.fsm = true) :
    exec (.recData hi lo []) s = .next (lineRestart s) :=
  exec_recData hi lo [] h

/-- Settles O28: the two quoted records are cases of `decode_record_empty`, the offset selects no payload position when the
length is 0, and a data record without payload is a line restart. -/
theorem emptyPayloadRecords : Obligations.EmptyPayloadRecords := by
  refine ⟨decode_record_empty, ?endOfStream, ?dataRecord, fun b s hpoll hlen => ⟨?noPayload, fun ho => ?completes⟩,
    fun hi lo s hpoll => ?changesNothing⟩
  case endOfStream => exact decode_record_empty 0x00 0x00 0x01 0xFF []
  case dataRecord => exact decode_record_empty 0x40 0x00 0x00 0xC0 []
  case noPayload => exact position_ne_data_of_recLength_zero hlen
  case completes =>
    exact exec_byteTerminator_completes b hpoll (position_eq_terminator_of_recLength_zero hlen ho)
  case changesNothing => exact ⟨lineRestart s, exec_recData_nil hi lo hpoll, rfl, rfl, rfl, rfl, rfl⟩

end Sys2Proof.Machine
end

section
/-! The commit of a block (R113): where the bytes of an aligned block lie, and what storing the buffer leaves inside and outside
of it. -/

namespace Sys2Proof.Machine

/-- Byte `k` of an aligned block lies at its base plus `k`: the sum does not wrap. -/
theorem toNat_block_add {p : Params} {b : Addr} (hb : b &&& blockMask p = 0) {k : Nat} (hk : k < blockSize p) :
    (b + BitVec.ofNat 16 k).toNat = b.toNat + k := by
  obtain ⟨hbase, hindex⟩ := block_inside hb hk
  have hsum := blockBase_toNat p (b + BitVec.ofNat 16 k)
  rw [hbase, hindex] at hsum
  exact hsum.symm

/-- An aligned block does not wrap, because its last byte has an address (R23). -/
theorem aligned_block_le {p : Params} {b : Addr} (hb : b &&& blockMask p = 0) : b.toNat + blockSize p ≤ 65536 := by
  have hpos := blockSize_pos p
  have hlast := toNat_block_add hb (Nat.sub_one_lt_of_lt hpos)
  have hlt := (b + BitVec.ofNat 16 (blockSize p - 1)).isLt
  omega

/-- Storing the buffer leaves its bytes in the block, in order. -/
theorem read_storeBlock_inside {s : State} (halign : BlockAligned s) (hsize : BufferSized s) (hwf : Memory.wf s.nv)
    {i : Nat} (hi : i < s.buf.length) : (storeBlock s).nv.read (s.currentBlock.toNat + i) = s.buf[i] := by
  rw [← toNat_block_add halign (hsize ▸ hi)]
  exact Memory.read_writeBytes_self hwf s.currentBlock s.buf (hsize ▸ blockSize_le s.params) hi

/-- Storing the buffer leaves every byte before and after the block as it was. -/
theorem read_storeBlock_outside {s : State} (halign : BlockAligned s) (hsize : BufferSized s) {x : Nat}
    (hout : x < s.currentBlock.toNat ∨ s.currentBlock.toNat + blockSize s.params ≤ x) (hx : x < 65536) :
    (storeBlock s).nv.read x = s.nv.read x := by
  have hnat : (BitVec.ofNat 16 x).toNat = x := Nat.mod_eq_of_lt hx
  have hne : ∀ k, k < s.buf.length → BitVec.ofNat 16 x ≠ s.currentBlock + BitVec.ofNat 16 k := by
    intro k hk heq
    have hk' : k < blockSize s.params := hsize ▸ hk
    have := toNat_block_add halign hk'
    rw [← heq, hnat] at this
    omega
  have hread := Memory.read_writeBytes_other s.nv s.currentBlock s.buf hne
  rwa [hnat] at hread

/-- Settles O38: a commit answered Ok stores the buffer, which is read byte by byte inside the block and as a whole by a load. -/
theorem commitStoresItsBlock : Obligations.CommitStoresItsBlock := by
  intro s halign hsize hwf hok
  refine ⟨aligned_block_le halign, storeBlock (issueCommit s), commit_ok hok, fun i hi => ?inside,
    fun x hout hx => ?outside, currentBlock_mem_executable_storeBlock _, ?readsBack⟩
  case inside => exact read_storeBlock_inside (s := issueCommit s) halign hsize hwf hi
  case outside => exact read_storeBlock_outside (s := issueCommit s) halign hsize hout hx
  case readsBack => exact (bufferMirrorsBlock_storeBlock (s := issueCommit s) hsize hwf).symm

end Sys2Proof.Machine
end

section
/-! The page buffer's two questions about an address: whether it lies in the current block (R110), and which byte of the buffer
it names (R111). -/

namespace Sys2Proof.Machine

theorem touch_inside {s : State} {a : Addr} (h : blockBase s.params a = s.currentBlock) : touch s a = .noTransition :=
  if_pos h

theorem touch_outside {s : State} {a : Addr} (h : blockBase s.params a ≠ s.currentBlock) :
    touch s a = .crossing s.currentBlock (blockBase s.params a) :=
  if_neg h

/-- Settles O36: base and index are quotient and remainder by the block size, and `touch` compares the base. -/
theorem touchComparesBlocks : Obligations.TouchComparesBlocks := fun s a =>
  ⟨blockBase_eq s.params a, blockIndex_eq s.params a, touch_inside, touch_outside⟩

theorem bufWrite_buf_at {s : State} (hsize : BufferSized s) (a : Addr) (v : Byte) :
    (bufWrite a v s).buf[a.toNat % blockSize s.params]? = some v := by
  have hlt : blockIndex s.params a < s.buf.length := hsize ▸ blockIndex_lt s.params a
  rw [← blockIndex_eq, bufWrite_buf, List.getElem?_set_self hlt]

theorem bufWrite_buf_elsewhere (s : State) (a : Addr) (v : Byte) {j : Nat} (hj : j ≠ a.toNat % blockSize s.params) :
    (bufWrite a v s).buf[j]? = s.buf[j]? := by
  rw [← blockIndex_eq] at hj
  rw [bufWrite_buf, List.getElem?_set_ne hj.symm]

/-- The last writer wins (R111). -/
theorem bufWrite_bufWrite (a : Addr) (v w : Byte) (s : State) : bufWrite a w (bufWrite a v s) = bufWrite a w s := by
  simp only [bufWrite, List.set_set]

/-- Settles O37: the write sets the buffer at the address's index, which lies inside a buffer of the block's size. -/
theorem bufWriteSetsOneByte : Obligations.BufWriteSetsOneByte := by
  intro s a v hsize _
  refine ⟨⟨(bufWrite a v s).buf, rfl, ?sameLength, bufWrite_buf_at hsize a v, fun _ => bufWrite_buf_elsewhere s a v⟩,
    fun w => bufWrite_bufWrite a v w s⟩
  case sameLength => rw [bufWrite_buf, List.length_set]

end Sys2Proof.Machine
end

section
/-! A second nibble in the middle of a record (R136, with R84, R90 to R95): the byte it makes goes to the field that the offset
selects, and the step ends there. -/

namespace Sys2Proof.Machine

/-- Before the terminator's offset there is a position, and it is another one (R90). -/
theorem exists_position_of_offset_lt {s : State}
    (h : s.offset.toNat < 4 ∨ s.offset.toNat < 4 + s.recLength.toNat) :
    ∃ p, position s = some p ∧ p ≠ .terminator := by
  cases hq : position s with
  | none =>
    have hpast := position_eq_none.mp hq
    omega
  | some p =>
    refine ⟨p, rfl, ?_⟩
    rintro rfl
    have hend := position_eq_terminator.mp hq
    omega

/-- `feed(b)` before the terminator, by the offset: the sum and the offset advance, and the one field whose offset it is takes
the byte (R90 to R95). -/
theorem feedAt_eq_of_position {p : Position} {s : State} (b : Byte) (hp : position s = some p) (hne : p ≠ .terminator) :
    feedAt p b s = { s with
      sum := s.sum + b, offset := s.offset + 1,
      recLength := if s.offset.toNat = 0 then b else s.recLength,
      recAddrHi := if s.offset.toNat = 1 then b else s.recAddrHi,
      recAddrLo := if s.offset.toNat = 2 then b else s.recAddrLo,
      recType := if s.offset.toNat = 3 then b else s.recType,
      recData := if 4 ≤ s.offset.toNat then s.recData.setIfInBounds (s.offset.toNat - 4) b else s.recData } := by
  cases p with
  | length => simp [feedAt, storeField, position_eq_length.mp hp]
  | addrHi => simp [feedAt, storeField, position_eq_addrHi.mp hp]
  | addrLo => simp [feedAt, storeField, position_eq_addrLo.mp hp]
  | type => simp [feedAt, storeField, position_eq_type.mp hp]
  | data =>
    obtain ⟨hlo, -⟩ := position_eq_data.mp hp
    have hfields : s.offset.toNat ≠ 0 ∧ s.offset.toNat ≠ 1 ∧ s.offset.toNat ≠ 2 ∧ s.offset.toNat ≠ 3 := by omega
    simp only [feedAt, storeField, hfields, hlo, if_true, if_false]
  | terminator => exact absurd rfl hne

/-- Settles O15: a hex row runs as a hex character of its nibble; the offset selects a position that is not the terminator, so the
byte is fed there with the record still in progress. -/
theorem secondNibbleFeedsTheByte : Obligations.SecondNibbleFeedsTheByte := by
  intro r hr s hpoll hphase hoffset
  obtain ⟨p, hp, hne⟩ := exists_position_of_offset_lt hoffset
  calc exec r.1 s
      = hexChar r.2 s := exec_hexRow hr s
    _ = .next (feedAt p (joinNibbles s.hiNib r.2) (hexPaired s)) := hexChar_low_inProgress r.2 hpoll hphase hp hne
    _ = _ := congrArg _ (feedAt_eq_of_position _ ((position_hexPaired s).trans hp) hne)

end Sys2Proof.Machine
end

section
/-! Decoding and encoding (R61 to R68, R75): a character, the text of a byte and the bytes of a record read back as the row they
were written for, and nothing else reads so. -/

namespace Sys2Proof

open Machine

theorem decodeChar_valid {c : Byte} {v : Nibble} (h : nib c = .valid v) : decodeChar c = hexInstr v := by
  simp [decodeChar, h]

theorem decodeChar_invalid {c : Byte} (h : nib c = .invalid) : decodeChar c = .chNonhex c := by
  simp [decodeChar, h]

/-- A hex row's one word decodes to it. -/
theorem decode_hexRow (p : Params) (rest : List Byte) {i : Instr} (h : ∃ r ∈ hexRows, r.1 = i) :
    decode .char (encode p i ++ rest) = .ok (i, rest) := by
  obtain ⟨r, hr, rfl⟩ := h
  rw [encode_hexRow p r hr]
  show Except.ok (decodeChar (hexCode r.2), rest) = _
  rw [decodeChar_valid (nib_hexCode r.2), hexRows_spec r hr]

theorem decode_nonhex {c : Byte} (rest : List Byte) (h : isHexCode c = false) :
    decode .char (c :: rest) = .ok (.chNonhex c, rest) := by
  show Except.ok (decodeChar c, rest) = _
  rw [decodeChar_invalid ((nib_invalid_iff c).mpr h)]

/-- The two characters of a byte decode to the row its position chooses (R63, R84). -/
theorem decode_byteText (q : Position) (b : Byte) (rest : List Byte) :
    decode (.byte q) (byteText b ++ rest) = .ok (decodeByte q b, rest) := by
  simp [byteText, decode, nib_hexCode, joinNibbles_halves]

/-- A record with its computed terminator sums to zero (R68). -/
theorem sum_terminatorFor (bytes : List Byte) : byteSum bytes + terminatorFor bytes = 0 := by
  rw [terminatorFor, BitVec.add_comm, BitVec.sub_add_cancel]

theorem payloadFits_iff {payload : List Byte} : payloadFits payload = true ↔ payload.length ≤ 255 :=
  decide_eq_true_iff

/-- A record's bytes decode to the row they make. -/
theorem decode_recordHead (hi lo ty ck : Byte) (rest : List Byte) {payload : List Byte} (h : payloadFits payload = true) :
    decode .record (recordHead hi lo ty payload ++ [ck] ++ rest) = .ok (classifyRecord hi lo ty payload ck, rest) := by
  rw [List.append_assoc]
  exact decodeRecord_head hi lo ty payload rest ck (payloadFits_iff.mp h)

theorem classifyRecord_bad {hi lo ty ck : Byte} {payload : List Byte}
    (h : byteSum (recordHead hi lo ty payload) + ck ≠ 0) :
    classifyRecord hi lo ty payload ck = .recBadsum hi lo ty payload ck :=
  if_pos h

theorem classifyRecord_good {hi lo ty ck : Byte} {payload : List Byte}
    (h : byteSum (recordHead hi lo ty payload) + ck = 0) :
    classifyRecord hi lo ty payload ck =
      if ty = 0x01 then .recEos hi lo payload
      else if ty = 0x00 then .recData hi lo payload
      else .recNop hi lo ty payload :=
  if_neg (not_not.mpr h)

/-- A good record decodes to the row of its type. -/
theorem decode_goodRecord (hi lo ty : Byte) (rest : List Byte) {payload : List Byte} (h : payloadFits payload = true) :
    decode .record (encodeGoodRecord hi lo ty payload ++ rest) =
      .ok (if ty = 0x01 then .recEos hi lo payload
        else if ty = 0x00 then .recData hi lo payload
        else .recNop hi lo ty payload, rest) := by
  rw [encodeGoodRecord, decode_recordHead hi lo ty _ rest h, classifyRecord_good (sum_terminatorFor _)]

theorem nop_type_ne {ty : Byte} (h : 2 ≤ ty.toNat) : ty ≠ 0x01 ∧ ty ≠ 0x00 := by
  constructor <;> (rintro rfl; exact absurd h (by decide))

/-- Settles O4, by the instruction's format: a character row is the row of its nibble or of its code, a byte row reads its two
characters, and a record row its bytes, where the operand checks pick the row the sum and the type pick. -/
theorem decodeOfEncode : Obligations.DecodeOfEncode := by
  intro p i f rest hwf hf
  cases i with
  | ch0 | ch1 | ch2 | ch3 | ch4 | ch5 | ch6 | ch7 | ch8 | ch9 | chA | chB | chC | chD | chE | chF =>
    cases hf
    exact decode_hexRow p rest (by decide)
  | chNonhex c =>
    cases hf
    exact decode_nonhex rest (by simpa [WellFormed] using hwf)
  | byteLength b | byteAddrHi b | byteAddrLo b | byteType b | byteData b | byteTerminator b =>
    cases hf
    exact decode_byteText _ b rest
  | recData hi lo payload =>
    cases hf
    exact decode_goodRecord hi lo 0x00 rest hwf
  | recEos hi lo payload =>
    cases hf
    exact decode_goodRecord hi lo 0x01 rest hwf
  | recNop hi lo ty payload =>
    cases hf
    obtain ⟨hfits, hty⟩ : payloadFits payload = true ∧ 2 ≤ ty.toNat := by simpa [WellFormed] using hwf
    obtain ⟨h1, h0⟩ := nop_type_ne hty
    exact (decode_goodRecord hi lo ty rest hfits).trans (by rw [if_neg h1, if_neg h0])
  | recBadsum hi lo ty payload ck =>
    cases hf
    obtain ⟨hfits, hsum⟩ : payloadFits payload = true ∧ byteSum (recordHead hi lo ty payload) + ck ≠ 0 := by
      simpa [WellFormed] using hwf
    exact (decode_recordHead hi lo ty ck rest hfits).trans (by rw [classifyRecord_bad hsum])
  | timeoutIdle | timeoutMidrec | outBannerStart | outXon | outXoff | outProgress | outErr | outBannerHandoff => cases hf

/-- What encodes a decoded thing back: the instruction meets its checks, is of the format, and its words are `bytes`. -/
abbrev ReadsAs (p : Params) (f : Format) (i : Instr) (bytes : List Byte) : Prop :=
  WellFormed i = true ∧ formatOf i = some f ∧ encode p i = bytes

/-- A character reads as the row it decodes to (R62). -/
theorem readsAs_decodeChar (p : Params) (c : Byte) : ReadsAs p .char (decodeChar c) [c] := by
  cases h : nib c with
  | valid v =>
    have hrow : ∀ r ∈ hexRows, WellFormed r.1 = true ∧ formatOf r.1 = some .char := by decide
    rw [decodeChar_valid h]
    obtain ⟨hwf, hf⟩ := hrow _ (mem_hexRows v)
    exact ⟨hwf, hf, by rw [encode_hexInstr, hexCode_of_nib c v h]⟩
  | invalid =>
    rw [decodeChar_invalid h]
    exact ⟨by simp [WellFormed, (nib_invalid_iff c).mp h], rfl, rfl⟩

theorem halves_joinNibbles : ∀ v₁ v₂ : Nibble,
    (joinNibbles v₁ v₂).extractLsb' 4 4 = v₁ ∧ (joinNibbles v₁ v₂).extractLsb' 0 4 = v₂ := by decide

/-- Two hex characters are the text of the byte they make: a nibble has one character (R75). -/
theorem byteText_joinNibbles {c₁ c₂ : Byte} {v₁ v₂ : Nibble} (h₁ : nib c₁ = .valid v₁) (h₂ : nib c₂ = .valid v₂) :
    byteText (joinNibbles v₁ v₂) = [c₁, c₂] := by
  obtain ⟨hhigh, hlow⟩ := halves_joinNibbles v₁ v₂
  rw [byteText, hhigh, hlow, hexCode_of_nib c₁ v₁ h₁, hexCode_of_nib c₂ v₂ h₂]

theorem readsAs_decodeByte (p : Params) (q : Position) (b : Byte) : ReadsAs p (.byte q) (decodeByte q b) (byteText b) := by
  cases q <;> exact ⟨rfl, rfl, rfl⟩

/-- In a record that sums to zero the terminator is the computed one (R68). -/
theorem terminatorFor_of_sum {bytes : List Byte} {ck : Byte} (h : byteSum bytes + ck = 0) : terminatorFor bytes = ck := by
  rw [terminatorFor, ← h, BitVec.add_comm, BitVec.add_sub_cancel]

theorem two_le_of_type_ne {ty : Byte} (h1 : ty ≠ 0x01) (h0 : ty ≠ 0x00) : 2 ≤ ty.toNat := by
  have hn1 : ty.toNat ≠ 1 := fun h => h1 (BitVec.eq_of_toNat_eq h)
  have hn0 : ty.toNat ≠ 0 := fun h => h0 (BitVec.eq_of_toNat_eq h)
  omega

/-- A record's bytes read as the row its sum and its type choose. -/
theorem readsAs_classifyRecord (p : Params) (hi lo ty ck : Byte) {payload : List Byte} (h : payloadFits payload = true) :
    ReadsAs p .record (classifyRecord hi lo ty payload ck) (recordHead hi lo ty payload ++ [ck]) := by
  by_cases hsum : byteSum (recordHead hi lo ty payload) + ck = 0
  · have henc : encodeGoodRecord hi lo ty payload = recordHead hi lo ty payload ++ [ck] := by
      rw [encodeGoodRecord, terminatorFor_of_sum hsum]
    rw [classifyRecord_good hsum]
    split
    case isTrue h1 => exact ⟨h, rfl, h1 ▸ henc⟩
    case isFalse h1 =>
      split
      case isTrue h0 => exact ⟨h, rfl, h0 ▸ henc⟩
      case isFalse h0 => exact ⟨by simp [WellFormed, h, two_le_of_type_ne h1 h0], rfl, henc⟩
  · rw [classifyRecord_bad hsum]
    exact ⟨by simpa [WellFormed, h] using hsum, rfl, rfl⟩

/-- What the record decoder reads: a length byte, three fields, as many payload bytes, a terminator (R64, R65). -/
theorem decodeRecord_inv {bytes rest : List Byte} {i : Instr} (h : decodeRecord bytes = .ok (i, rest)) :
    ∃ hi lo ty payload ck, payloadFits payload = true ∧ bytes = recordHead hi lo ty payload ++ [ck] ++ rest ∧
      i = classifyRecord hi lo ty payload ck := by
  match bytes with
  | [] | [_] | [_, _] | [_, _, _] => cases h
  | len :: hi :: lo :: ty :: bs =>
    cases hd : bs.drop len.toNat with
    | nil => simp [decodeRecord, hd] at h
    | cons ck bs' =>
      obtain ⟨rfl, rfl⟩ : classifyRecord hi lo ty (bs.take len.toNat) ck = i ∧ bs' = rest := by
        simpa [decodeRecord, hd] using h
      have hlt : len.toNat < bs.length := by
        by_contra hge
        rw [List.drop_eq_nil_of_le (Nat.le_of_not_lt hge)] at hd
        cases hd
      have htake : (bs.take len.toNat).length = len.toNat := List.length_take_of_le (Nat.le_of_lt hlt)
      refine ⟨hi, lo, ty, bs.take len.toNat, ck, ?_, ?_, rfl⟩
      · exact payloadFits_iff.mpr (htake.trans_le (Nat.le_of_lt_succ len.isLt))
      · have hbytes : bs = bs.take len.toNat ++ ck :: bs' := by rw [← hd, List.take_append_drop]
        rw [recordHead, htake, BitVec.ofNat_toNat, BitVec.setWidth_eq]
        conv_lhs => rw [hbytes]
        simp

/-- Settles O5, by the format: each decoder takes the bytes its row encodes to from the front. -/
theorem encodeOfDecode : Obligations.EncodeOfDecode := by
  intro p f bytes rest i h
  suffices hread : ∃ ws, bytes = ws ++ rest ∧ ReadsAs p f i ws by
    obtain ⟨ws, rfl, hwf, hf, henc⟩ := hread
    exact ⟨hwf, hf, by rw [henc]⟩
  match f, bytes with
  | .char, [] => cases h
  | .char, c :: bs =>
    cases h
    exact ⟨[c], rfl, readsAs_decodeChar p c⟩
  | .byte q, [] | .byte q, [_] => cases h
  | .byte q, c₁ :: c₂ :: bs =>
    cases h₁ : nib c₁ with
    | invalid => simp [decode, h₁] at h
    | valid v₁ =>
      cases h₂ : nib c₂ with
      | invalid => simp [decode, h₁, h₂] at h
      | valid v₂ =>
        obtain ⟨rfl, rfl⟩ : decodeByte q (joinNibbles v₁ v₂) = i ∧ bs = rest := by simpa [decode, h₁, h₂] using h
        exact ⟨[c₁, c₂], rfl, byteText_joinNibbles h₁ h₂ ▸ readsAs_decodeByte p q _⟩
  | .record, bs =>
    obtain ⟨hi, lo, ty, payload, ck, hfits, rfl, rfl⟩ := decodeRecord_inv h
    exact ⟨_, rfl, readsAs_classifyRecord p hi lo ty ck hfits⟩

/-- Settles O1: the words are literals, and the decoder computes. -/
theorem writtenWordsDecode : Obligations.WrittenWordsDecode :=
  ⟨by decide, by decide, by decide, rfl, rfl, rfl, rfl, rfl, rfl⟩

/-- Settles O2: one finite fact for each of the 256 codes. -/
theorem nibOfHexCodes : Obligations.NibOfHexCodes := by
  have hletters : ∀ c : Byte, 0x41 ≤ c.toNat → c.toNat ≤ 0x46 →
      nib c = .valid ((c - 0x37#8).extractLsb' 0 4) ∧ ((c - 0x37#8).extractLsb' 0 4).toNat = c.toNat - 0x37 := by decide
  have hdigits : ∀ c : Byte, 0x30 ≤ c.toNat → c.toNat ≤ 0x39 →
      nib c = .valid (c.extractLsb' 0 4) ∧ (c.extractLsb' 0 4).toNat = c.toNat - 0x30 := by decide
  exact fun c => ⟨hdigits c, fun hlo hhi => ⟨_, hletters c hlo hhi⟩⟩

theorem isHexCode_eq_false {c : Byte} (h : c.toNat ≤ 0x2F ∨ (0x3A ≤ c.toNat ∧ c.toNat ≤ 0x40) ∨ 0x47 ≤ c.toNat) :
    isHexCode c = false := by
  simp only [isHexCode, Bool.or_eq_false_iff, Bool.and_eq_false_iff, decide_eq_false_iff_not]
  omega

/-- Settles O3: the three ranges are the codes that are no hex code, which are those `nib` rejects. -/
theorem nibRejectsEveryOtherCode : Obligations.NibRejectsEveryOtherCode := by
  intro c h
  have hn : nib c = .invalid := (nib_invalid_iff c).mpr (isHexCode_eq_false h)
  exact ⟨hn, decodeChar_invalid hn⟩

end Sys2Proof
end

section
/-! One step by the event it takes, and the rows that do one small thing (R133, R143, R145, R148, R73). -/

namespace Sys2Proof.Machine

theorem polls_of_awaitingLine {s : State} (h : s.fsm = .awaitingLine) : polls s.fsm = true := by rw [h]; rfl

theorem polls_of_accumulatingRecord {s : State} (h : s.fsm = .accumulatingRecord) : polls s.fsm = true := by rw [h]; rfl

/-- Settles O6: a poll finds the event, and the row is the one the decoder or `fsm` selects. -/
theorem stepRunsTheDecodedInstruction : Obligations.StepRunsTheDecodedInstruction := by
  refine ⟨fun s c rest i hpoll hin hdec _ => ?character, fun s rest hfsm hin => ?idle, fun s rest hfsm hin => ?midrec⟩
  case character =>
    obtain rfl : decodeChar c = i := by simpa [decode] using hdec
    exact step_event hpoll hin
  case idle => rw [step_event (polls_of_awaitingLine hfsm) hin, selectInstr, if_pos hfsm]
  case midrec =>
    rw [step_event (polls_of_accumulatingRecord hfsm) hin, selectInstr, if_neg (by rw [hfsm]; decide)]

/-- In a terminal state no instruction does anything: each meaning stands behind `whilePolling` (R148, R152). -/
theorem exec_terminal (i : Instr) {s : State} (h : polls s.fsm = false) : exec i s = .next s := by
  cases i <;> exact whilePolling_terminal _ h

/-- Settles O7: an empty poll is idle, a terminal state takes only resets, and every meaning asks first whether the block polls. -/
theorem terminalStatesChangeNothing : Obligations.TerminalStatesChangeNothing := by
  refine ⟨fun s hin => ?emptyPoll, fun s hterm hevents => ?terminalStep, fun i s hterm => exec_terminal i hterm⟩
  case emptyPoll => cases hpoll : polls s.fsm <;> simp [step, poll, hpoll, hin, afterReset]
  case terminalStep =>
    obtain ⟨-, e⟩ | ⟨es, x, again, rest, hin, hx, -⟩ := step_terminal_cases hterm
    · exact e
    · obtain ⟨e, rfl⟩ := hevents x (by simp [hin])
      obtain hx | ⟨_, _, _, hx⟩ := hx <;> cases hx

/-- Settles O13: `State.reset` is a literal. -/
theorem resetValues : Obligations.ResetValues :=
  ⟨rfl, rfl, by decide, ⟨rfl, rfl, rfl, rfl, rfl, rfl, rfl, rfl, rfl⟩, rfl, rfl, rfl, rfl⟩

/-- Settles O41: `State.reset` is a literal that polls at a line start. -/
theorem resetMeetsTheInvariant : Obligations.ResetMeetsTheInvariant :=
  ⟨by decide, List.length_replicate, wf_reset, fun _ => ⟨rfl, rfl, rfl, rfl, rfl, rfl, rfl, rfl, rfl⟩,
    nofun, fun _ => rfl, rfl⟩

/-- A line restart at a line start in `AwaitingLine` changes nothing. -/
theorem lineRestart_of_atLineStart {s : State} (hfsm : s.fsm = .awaitingLine) (h : AtLineStart s) : lineRestart s = s := by
  obtain ⟨h1, h2, h3, h4, h5, h6, h7, h8, h9⟩ := h
  obtain ⟨⟩ := s
  subst hfsm h1 h2 h3 h4 h5 h6 h7 h8 h9
  rfl

/-- Settles O17: a non-hex character is a line restart. -/
theorem nonhexRestartsTheLine : Obligations.NonhexRestartsTheLine := by
  refine ⟨fun c s hpoll => exec_chNonhex c hpoll, fun c s hfsm hstart => ?_⟩
  rw [exec_chNonhex c (polls_of_awaitingLine hfsm), lineRestart_of_atLineStart hfsm hstart]

/-- Settles O18: the timeout in mid-record is a line restart that re-arms. -/
theorem timeoutMidRecordRestartsTheLine : Obligations.TimeoutMidRecordRestartsTheLine := fun _ hfsm =>
  exec_timeoutMidrec hfsm

theorem exec_timeoutIdle_not {s : State} (h : s.fsm = .accumulatingRecord) :
    exec .timeoutIdle s = .refused .notSelected :=
  (whilePolling_of _ (polls_of_accumulatingRecord h)).trans (if_neg (by rw [h]; decide))

theorem exec_timeoutMidrec_not {s : State} (h : s.fsm = .awaitingLine) :
    exec .timeoutMidrec s = .refused .notSelected :=
  (whilePolling_of _ (polls_of_awaitingLine h)).trans (if_neg (by rw [h]; decide))

/-- Settles O22: each row asks `fsm` or `offset` for the one state that selects it. -/
theorem rowsAreSelectedByState : Obligations.RowsAreSelectedByState := by
  refine ⟨fun s => exec_timeoutIdle_not, fun s => exec_timeoutMidrec_not, fun b s hpoll => ?_⟩
  refine ⟨fun ho => ?length, fun ho => ?addrHi, fun ho => ?addrLo, fun ho => ?type, fun ho => ?data, fun ho => ?terminator⟩
  case length => exact feedWhenAt_not b hpoll (mt position_eq_length.mp ho)
  case addrHi => exact feedWhenAt_not b hpoll (mt position_eq_addrHi.mp ho)
  case addrLo => exact feedWhenAt_not b hpoll (mt position_eq_addrLo.mp ho)
  case type => exact feedWhenAt_not b hpoll (mt position_eq_type.mp ho)
  case data =>
    refine feedWhenAt_not b hpoll fun hp => ?_
    obtain ⟨hlo, hhi⟩ := position_eq_data.mp hp
    omega
  case terminator => exact feedWhenAt_not b hpoll (mt position_eq_terminator.mp ho)

/-- Settles O24: at its position the terminator is fed, which stores nothing. -/
theorem terminatorIsOnlySummed : Obligations.TerminatorIsOnlySummed := fun b _ hpoll ho =>
  feedWhenAt_of b hpoll (position_eq_terminator.mpr ho)

/-- A BYTE row that answers a next state was selected, and fed its byte. -/
theorem feedWhenAt_inv {p : Position} {b : Byte} {s t : State} (hpoll : polls s.fsm = true)
    (h : feedWhenAt p b s = .next t) : position s = some p ∧ t = feedAt p b s := by
  by_cases hp : position s = some p
  · rw [feedWhenAt_of b hpoll hp] at h
    cases h
    exact ⟨hp, rfl⟩
  · rw [feedWhenAt_not b hpoll hp] at h
    cases h

/-- After a byte at any other position than the terminator's the record is still in progress (R97). -/
theorem feedWhenAt_inProgress {p : Position} {b : Byte} {s t : State} (hpoll : polls s.fsm = true) (hne : p ≠ .terminator)
    (h : feedWhenAt p b s = .next t) : recordEvent t = .inProgress := by
  obtain ⟨hp, rfl⟩ := feedWhenAt_inv hpoll h
  rw [recordEvent_feedAt b hp, if_neg hne]

/-- Settles O25: a BYTE row that answers a next state fed its byte at its position, and the record event is what `feed`
answers there. -/
theorem completionAndValidity : Obligations.CompletionAndValidity := by
  refine ⟨fun b s t hpoll h => ?terminator, fun i s t hpoll hi h => ?other⟩
  case terminator =>
    obtain ⟨hp, rfl⟩ := feedWhenAt_inv (p := .terminator) hpoll h
    rw [recordEvent_feedAt b hp, if_pos rfl, feedAt_sum]
    rfl
  case other =>
    obtain ⟨b, rfl | rfl | rfl | rfl | rfl⟩ := hi
    · exact feedWhenAt_inProgress (p := .length) hpoll (by decide) h
    · exact feedWhenAt_inProgress (p := .addrHi) hpoll (by decide) h
    · exact feedWhenAt_inProgress (p := .addrLo) hpoll (by decide) h
    · exact feedWhenAt_inProgress (p := .type) hpoll (by decide) h
    · exact feedWhenAt_inProgress (p := .data) hpoll (by decide) h

theorem exec_recNop {s : State} (hi lo type : Byte) (data : List Byte) (h : polls s.fsm = true) :
    exec (.recNop hi lo type data) s = .next (lineRestart s) :=
  whilePolling_of _ h

theorem exec_recBadsum {s : State} (hi lo type : Byte) (data : List Byte) (terminator : Byte) (h : polls s.fsm = true) :
    exec (.recBadsum hi lo type data terminator) s = .next (raiseChecksumMismatch s) :=
  whilePolling_of _ h

/-- Settles O27: the one row is a line restart, the other the checksum mismatch. -/
theorem nopAndBadsumRecords : Obligations.NopAndBadsumRecords := fun hi lo type data _ hpoll =>
  ⟨exec_recNop hi lo type data hpoll, fun terminator => exec_recBadsum hi lo type data terminator hpoll⟩

/-- Settles O35: where the block polls, each OUT row is its sending operation. -/
theorem outRowsSendTheirBytes : Obligations.OutRowsSendTheirBytes := fun _ hpoll =>
  ⟨whilePolling_of _ hpoll, whilePolling_of _ hpoll, whilePolling_of _ hpoll, whilePolling_of _ hpoll,
    whilePolling_of _ hpoll, whilePolling_of _ hpoll⟩

end Sys2Proof.Machine
end

section
/-! The end of the session (R146, R114, R115): `finish()` from an end-of-stream record and from a timeout at a line start, by the
answer of its one commit. -/

namespace Sys2Proof.Machine

theorem Inv.core {s : State} (h : Inv s) : Core s := by
  obtain ⟨halign, hsize, hwf, -⟩ := h
  exact ⟨halign, hsize, hwf⟩

theorem finish_writeFault {s : State} (h : nextAnswer s = .writeFault) :
    finish s = .ends (raiseWriteFault (spoilBlock (issueCommit s))) := by
  simp [finish, finalFlush, commitAndReport, commit_writeFault h]

theorem finish_never {s : State} (h : nextAnswer s = .never) : finish s = .stuck (spoilBlock (issueCommit s)) := by
  simp [finish, finalFlush, commitAndReport, commit_never h]

/-- The state after `finish()` with its commit answered Ok (R146). -/
def finishedState (s : State) : State :=
  handoff (drain (sendBannerHandoff (sendProgress (storeBlock (issueCommit s)))))

/-- `finish()` writes the trace, the queue, memory, the executable list, the answers and `fsm`, and nothing else. -/
theorem finishedState_eq (s : State) :
    finishedState s = { s with
      fsm := .finished, nv := Memory.writeBytes s.nv s.currentBlock s.buf,
      executable := insertBlock s.currentBlock s.executable, answers := s.answers.tail,
      answersTaken := s.answersTaken + 1, txQueue := [],
      trace := s.trace ++ [.commit s.currentBlock s.buf, .send s.params.progressChar] ++
        s.params.bannerHandoff.map Action.send ++ [.drain, .handoff s.params.entryPoint] } := by
  simp [finishedState, handoff, drain, sendBannerHandoff, sendAll, sendProgress, send, storeBlock, issueCommit, emit]

/-- Settles O19: both rows are `finish()`, whose commit stores the buffer where the stream left it. -/
theorem finishCommitsAndHandsOver : Obligations.FinishCommitsAndHandsOver := by
  intro s hinv hok
  obtain ⟨halign, hsize, hwf⟩ := hinv.core
  refine ⟨(storeBlock s).nv, (storeBlock s).executable, fun a => store_read halign hsize hwf a, wf_storeBlock hwf,
    fun b => mem_insertBlock,
    fun hpoll hi lo data => ?endOfStream, fun hfsm => ?timeout⟩
  case endOfStream =>
    rw [exec_recEos hi lo data hpoll, finish_ok hok]
    exact congrArg _ (finishedState_eq s)
  case timeout =>
    rw [exec_timeoutIdle hfsm, finish_ok (s := { s with timerArmed := false }) hok]
    exact congrArg _ (finishedState_eq { s with timerArmed := false })

/-- Settles O20: the fault ends `finish()` at its commit, which spoils the block and no byte outside it. -/
theorem writeFaultInTheFinalFlush : Obligations.WriteFaultInTheFinalFlush := by
  intro s hinv hfault
  obtain ⟨halign, -, hwf⟩ := hinv.core
  refine ⟨(spoilBlock s).nv, (spoilBlock s).executable, (spoilBlock s).freeCount,
    fun a ha => spoil_read halign hwf a ha, wf_spoilBlock hwf, fun b => mem_removeBlock,
    fun hpoll hi lo data => ?endOfStream, fun hfsm => ?timeout⟩
  case endOfStream =>
    rw [exec_recEos hi lo data hpoll, finish_writeFault hfault]
    rfl
  case timeout =>
    rw [exec_timeoutIdle hfsm, finish_writeFault (s := { s with timerArmed := false }) hfault]
    rfl

/-- Settles O21: a commit that never answers leaves `finish()` stuck in it. -/
theorem hungFinalCommitIsStuck : Obligations.HungFinalCommitIsStuck := by
  intro s hinv hnever
  obtain ⟨halign, -, hwf⟩ := hinv.core
  refine ⟨(spoilBlock s).nv, (spoilBlock s).executable, (spoilBlock s).freeCount,
    fun a ha => spoil_read halign hwf a ha, fun hpoll hi lo data => ?endOfStream, fun hfsm => ?timeout⟩
  case endOfStream =>
    rw [exec_recEos hi lo data hpoll, finish_never hnever]
    rfl
  case timeout =>
    rw [exec_timeoutIdle hfsm, finish_never (s := { s with timerArmed := false }) hnever]
    rfl

end Sys2Proof.Machine
end

section
/-! External resets (R190 to R193): the state a run of session entries leaves, field by field, and which inputs start one. -/

namespace Sys2Proof.Machine

/-- What a run of session entries leaves: parameters, memory, interrupts, inputs, answers and counters as they were, the rest
written whole (R191, R192). -/
theorem sessionEntries_literal (again : List Nat) (s : State) :
    sessionEntries again s = { freshLine s with
      fsm := .awaitingLine, currentBlock := 0x0000#16, buf := Memory.readBytes s.nv 0x0000#16 (blockSize s.params),
      timerArmed := true, senderPaused := false, executable := [],
      txQueue := s.params.bannerStart ++ [s.params.xonByte],
      trace := s.trace ++ (again.map fun k => (entryActions s.params).take k).flatten ++ entryActions s.params } := by
  rw [sessionEntries_eq]
  simp [sessionEntry, armTimeout, sendXon, send, lineReset, load, emit, sendBannerStart, sendAll, forgetSession, freshLine,
    Memory.block, Config.initialBlock]

/-- Past events never taken, a terminal state takes the first reset, whether or not it names an event (log 7). -/
theorem afterReset_events (s : State) (es : List Event) {x : Input} {again : List Nat} (rest : List Input)
    (hx : x = .externalReset again ∨ ∃ e count inCommit, x = .resetDuring e count inCommit again) :
    afterReset s (es.map Input.event ++ x :: rest) = .reset again { s with inbox := rest } := by
  induction es with
  | nil => obtain rfl | ⟨_, _, _, rfl⟩ := hx <;> rfl
  | cons e es ih => exact ih

/-- A reset between two steps, or any reset of a terminal state, runs the session entries it starts. -/
theorem step_sessionEntries {s : State} {es : List Event} {x : Input} {again : List Nat} {rest : List Input}
    (hx : x = .externalReset again ∨ (polls s.fsm = false ∧ ∃ e count inCommit, x = .resetDuring e count inCommit again))
    (hes : polls s.fsm = true → es = []) (hin : s.inbox = es.map Input.event ++ x :: rest) :
    step s = .next (sessionEntries again { s with inbox := rest }) := by
  cases hpoll : polls s.fsm with
  | true =>
    obtain rfl | ⟨hterm, -⟩ := hx
    · rw [hes hpoll] at hin
      exact step_reset hpoll hin
    · cases hpoll.symm.trans hterm
  | false =>
    have hafter := afterReset_events s es rest (hx.imp id And.right)
    simp [step, poll, hpoll, hin, hafter]

/-- Settles O8: a reset that nothing cuts is one session entry. -/
theorem externalResetRunsSessionEntry : Obligations.ExternalResetRunsSessionEntry := by
  intro s es rest hes hin
  rw [step_sessionEntries (.inl rfl) hes hin, sessionEntries_literal]
  simp [freshLine, entryActions]

/-- Settles O9: session entry reads none of what differs, so it leaves the same state. -/
theorem resetForgetsTheBlock : Obligations.ResetForgetsTheBlock := by
  intro s t again rest hin ht
  have hreset : ∀ u : State, u.inbox = .externalReset again :: rest →
      step u = .next (sessionEntries again { u with inbox := rest }) := fun u hu =>
    step_sessionEntries (es := []) (.inl rfl) (fun _ => rfl) hu
  have hint : t.inbox = .externalReset again :: rest := by rw [ht]; exact hin
  have hsame : sessionEntries again { t with inbox := rest } = sessionEntries again { s with inbox := rest } := by
    rw [sessionEntries_literal, sessionEntries_literal, ht]
    rfl
  exact ⟨_, hreset s hin, by rw [hreset t hint, hsame], by rw [sessionEntries_literal]; rfl⟩

end Sys2Proof.Machine
end

section
/-! A whole record in the assembler (R90 to R98): what feeding its bytes reports, and the row the record registers then hold. -/

namespace Sys2Proof.Machine

/-- The bytes of a record: a length byte, three fields, as many payload bytes as the length says, a terminator (R64). -/
def IsRecord (bytes : List Byte) : Prop := ∃ len, bytes.head? = some len ∧ bytes.length = 5 + len.toNat

theorem isRecord_of_decode {bytes : List Byte} {i : Instr} (h : decode .record bytes = .ok (i, [])) : IsRecord bytes := by
  obtain ⟨len, hi, lo, ty, data, ck, rfl, hlen, -⟩ := decode_record_inv h
  exact ⟨len, rfl, by simp [hlen]; omega⟩

/-- A list of a record's size, taken apart into the record's fields. -/
theorem IsRecord.fields {bytes : List Byte} (h : IsRecord bytes) :
    ∃ len hi lo ty data ck, bytes = len :: hi :: lo :: ty :: data ++ [ck] ∧ data.length = len.toNat := by
  obtain ⟨len, hhead, hlen⟩ := h
  match bytes with
  | [] | [_] | [_, _] | [_, _, _] => simp at hlen; omega
  | [_, _, _, _] => simp at hlen; omega
  | l :: hi :: lo :: ty :: b :: bs =>
    obtain rfl : l = len := Option.some.inj hhead
    have hne : b :: bs ≠ [] := List.cons_ne_nil b bs
    refine ⟨l, hi, lo, ty, (b :: bs).dropLast, (b :: bs).getLast hne, ?_, ?_⟩
    · simp only [List.cons_append, List.dropLast_append_getLast hne]
    · simp at hlen ⊢
      omega

/-- Fed a whole record from a line start, the assembler reports it complete, with its checksum (R97, R98). -/
theorem recordEvent_feedAll {s : State} {bytes : List Byte} (hs : AtLineStart s) (h : IsRecord bytes) :
    recordEvent (feedAll bytes s) = .recordComplete (decide (byteSum bytes = 0)) := by
  obtain ⟨len, hi, lo, ty, data, ck, rfl, hlen⟩ := h.fields
  obtain ⟨u, hu, hl, -, -, -, -, hsum, hoff, -⟩ := feedAll_record (hi := hi) (lo := lo) (ty := ty) (ck := ck) hs hlen
  rw [hu, recordEvent, if_pos (by rw [hoff, hl]), checksumOk, hsum]
  rfl

/-- The record registers then hold the row the bytes decode to. -/
theorem completedRecord_feedAll {s : State} {bytes : List Byte} {i : Instr} (hs : AtLineStart s)
    (h : decode .record bytes = .ok (i, [])) : completedRecord (feedAll bytes s) = i := by
  obtain ⟨len, hi, lo, ty, data, ck, rfl, hlen, rfl⟩ := decode_record_inv h
  obtain ⟨u, hu, -, hhi, hlo, hty, hdata, hsum, -, hck⟩ := feedAll_record (hi := hi) (lo := lo) (ty := ty) (ck := ck) hs hlen
  have hhead : recordHead hi lo ty data = len :: hi :: lo :: ty :: data := by
    rw [recordHead, hlen, BitVec.ofNat_toNat, BitVec.setWidth_eq]
  have hsum' : u.sum = byteSum (recordHead hi lo ty data) + ck := by
    rw [hsum, byteSum_append, hhead]
    simp [byteSum]
  rw [hu]
  by_cases hzero : u.sum = 0
  · rw [classifyRecord_good (hsum'.symm.trans hzero), completedRecord, if_pos (by simpa [checksumOk] using hzero)]
    rw [hhi, hlo, hty, hdata]
  · rw [classifyRecord_bad (hsum' ▸ hzero), completedRecord, if_neg (by simpa [checksumOk] using hzero)]
    rw [hhi, hlo, hty, hdata, hck]

theorem byteSum_set_ne {bytes : List Byte} {k : Nat} {v : Byte} (h : k < bytes.length) (hv : v ≠ bytes[k]) :
    byteSum (bytes.set k v) ≠ byteSum bytes := by
  have hsplit : byteSum bytes = byteSum (bytes.take k) + (bytes[k] + byteSum (bytes.drop (k + 1))) := by
    conv_lhs => rw [← List.take_append_drop k bytes, List.drop_eq_getElem_cons h]
    rw [byteSum_append]
    rfl
  rw [List.set_eq_take_append_cons_drop, if_pos h, byteSum_append, hsplit, byteSum]
  intro he
  exact hv (add_right_cancel (add_left_cancel he))

/-- Settles O26: a record stays one when a byte other than its length changes, and its sum changes with the byte. -/
theorem assemblerReportsTheChecksum : Obligations.AssemblerReportsTheChecksum := by
  refine ⟨fun s i bytes hs h => ⟨completedRecord_feedAll hs h, recordEvent_feedAll hs (isRecord_of_decode h)⟩,
    fun s i bytes k v hs h hzero hk hlt hv => ?_⟩
  have hrecord : IsRecord (bytes.set k v) := by
    obtain ⟨len, hhead, hlen⟩ := isRecord_of_decode h
    refine ⟨len, ?_, by rw [List.length_set, hlen]⟩
    rw [← hhead, List.head?_eq_getElem?, List.head?_eq_getElem?, List.getElem?_set_ne (Nat.ne_of_gt hk)]
  have hbad : byteSum (bytes.set k v) ≠ 0 := hzero ▸ byteSum_set_ne hlt hv
  rw [recordEvent_feedAll hs hrecord, decide_eq_false hbad]

end Sys2Proof.Machine
end

section
/-! What actions say of a run (R6, R13; log 4): the environment after a run is what replaying its actions makes of the one before.
Each operation's actions are said once, and runs compose. -/

namespace Sys2Proof.Machine

/-- What replaying actions reads and writes of a state, with the inputs and interrupts that no action touches. -/
structure Env where
  params : Params
  nv : Memory
  executable : List Addr
  answers : List CommitAnswer
  answersTaken : Nat
  freeCount : Nat
  txQueue : List Byte
  inbox : List Input
  interruptsEnabled : Bool

def env (s : State) : Env :=
  ⟨s.params, s.nv, s.executable, s.answers, s.answersTaken, s.freeCount, s.txQueue, s.inbox, s.interruptsEnabled⟩

theorem nextAnswer_of_env {s t : State} (h : env s = env t) : nextAnswer s = nextAnswer t :=
  nextAnswer_congr (congrArg Env.answers h) (congrArg Env.answersTaken h)

/-- Replaying an action reads the environment only. -/
theorem replayAction_env {s t : State} (h : env s = env t) (a : Action) :
    env (replayAction s a) = env (replayAction t a) := by
  have hans := nextAnswer_of_env h
  simp only [env, Env.mk.injEq] at h
  obtain ⟨h1, h2, h3, h4, h5, h6, h7, h8, h9⟩ := h
  cases a with
  | commit b d => cases hn : nextAnswer t <;> simp_all [replayAction, env]
  | send _ | armTimeout | load _ | drain | handoff _ => simp_all [replayAction, env]

theorem replay_env {s t : State} (h : env s = env t) (as : List Action) : env (replay as s) = env (replay as t) := by
  induction as generalizing s t with
  | nil => exact h
  | cons a as ih => exact ih (replayAction_env h a)

theorem replay_append (as bs : List Action) (s : State) : replay (as ++ bs) s = replay bs (replay as s) :=
  List.foldl_append

/-- A run from `s` to `t` that emits `as`: these are the new actions, and replaying them gives the environment. -/
def Emits (s : State) (as : List Action) (t : State) : Prop :=
  t.trace = s.trace ++ as ∧ env (replay as s) = env t

theorem Emits.trace {s t : State} {as : List Action} (h : Emits s as t) : t.trace = s.trace ++ as := h.1

theorem Emits.env {s t : State} {as : List Action} (h : Emits s as t) : env (replay as s) = env t := h.2

theorem Emits.newActions {s t : State} {as : List Action} (h : Emits s as t) : newActions s t = as := by
  rw [Machine.newActions, h.trace, List.drop_left]

theorem Emits.trans {s t u : State} {as bs : List Action} (h : Emits s as t) (h' : Emits t bs u) : Emits s (as ++ bs) u := by
  refine ⟨by rw [h'.trace, h.trace, List.append_assoc], ?_⟩
  rw [replay_append, replay_env h.env, h'.env]

/-- What no action touches is kept. -/
theorem Emits.keeps {s t : State} {as : List Action} (h : Emits s as t) :
    t.params = s.params ∧ t.inbox = s.inbox ∧ t.interruptsEnabled = s.interruptsEnabled := by
  obtain ⟨hp, hi, hin, -⟩ := replay_keeps as s
  exact ⟨(congrArg Env.params h.env).symm.trans hp, (congrArg Env.inbox h.env).symm.trans hin,
    (congrArg Env.interruptsEnabled h.env).symm.trans hi⟩

/-- A change of the block's own state and nothing else. -/
theorem emits_none {s t : State} (htrace : t.trace = s.trace) (henv : Machine.env s = Machine.env t) : Emits s [] t :=
  ⟨by rw [htrace, List.append_nil], henv⟩

theorem Emits.refl (s : State) : Emits s [] s := emits_none rfl rfl

/-- One action, with any change of the block's own state. -/
theorem emits_one {s t : State} {a : Action} (htrace : t.trace = s.trace ++ [a])
    (henv : Machine.env (replayAction s a) = Machine.env t) : Emits s [a] t :=
  ⟨htrace, henv⟩

theorem emits_sendAll (bs : List Byte) (s : State) : Emits s (bs.map .send) (sendAll bs s) := by
  induction bs generalizing s with
  | nil => exact ⟨rfl, by simp [Machine.env, replay]⟩
  | cons b bs ih =>
    refine ⟨rfl, ?_⟩
    have hone : Machine.env (sendAll (b :: bs) s) = Machine.env (sendAll bs (send b s)) := by simp [Machine.env]
    rw [hone, ← (ih (send b s)).env]
    rfl

/-- Issuing a commit with its answer Ok is the action `Commit` (R113). -/
theorem emits_commit_ok {s : State} (h : nextAnswer s = .ok) :
    Emits s [.commit s.currentBlock s.buf] (storeBlock (issueCommit s)) :=
  emits_one rfl (by simp only [replayAction, h])

/-- A commit with any other answer spoils its block (R114, R115). -/
theorem emits_commit_spoiled {s : State} (h : nextAnswer s ≠ .ok) :
    Emits s [.commit s.currentBlock s.buf] (spoilBlock (issueCommit s)) := by
  refine emits_one rfl ?_
  cases hn : nextAnswer s with
  | ok => exact absurd hn h
  | writeFault => simp only [replayAction, hn]
  | never => simp only [replayAction, hn]

/-! ### Counting commits, and the answers they take -/

theorem commitCount_append (as bs : List Action) : commitCount (as ++ bs) = commitCount as + commitCount bs := by
  induction as with
  | nil => simp [commitCount]
  | cons a as ih => cases a <;> simp [commitCount, ih, Nat.add_assoc]

/-- Each commit replayed takes one answer. -/
theorem replay_answers (as : List Action) (s : State) :
    (replay as s).answers = s.answers.drop (commitCount as) ∧
    (replay as s).answersTaken = s.answersTaken + commitCount as := by
  induction as generalizing s with
  | nil => exact ⟨rfl, rfl⟩
  | cons a as ih =>
    obtain ⟨h1, h2⟩ := ih (replayAction s a)
    cases a with
    | commit b d =>
      have hone : (replayAction s (.commit b d)).answers = s.answers.tail ∧
          (replayAction s (.commit b d)).answersTaken = s.answersTaken + 1 := by
        cases hn : nextAnswer s <;> simp [replayAction, hn]
      obtain ⟨k1, k2⟩ := hone
      exact ⟨h1.trans (by rw [k1, List.drop_tail, commitCount, Nat.add_comm]),
        h2.trans (by rw [k2, commitCount, Nat.add_assoc])⟩
    | send _ | armTimeout | load _ | drain | handoff _ => exact ⟨h1, h2⟩

theorem Emits.answersTaken {s t : State} {as : List Action} (h : Emits s as t) :
    t.answersTaken = s.answersTaken + commitCount as :=
  (congrArg Env.answersTaken h.env).symm.trans (replay_answers as s).2

/-- The answers to come after a run are those after the ones its commits took. -/
theorem Emits.answerOf {s t : State} {as : List Action} (h : Emits s as t) (k : Nat) :
    answerOf t k = answerOf s (commitCount as + k) :=
  answerOf_shift ((congrArg Env.answers h.env).symm.trans (replay_answers as s).1) h.answersTaken k

theorem Emits.nextAnswer {s t : State} {as : List Action} (h : Emits s as t) :
    nextAnswer t = Machine.answerOf s (commitCount as) :=
  h.answerOf 0

/-! ### Commits that fit their block -/

/-- Every commit is of a block's worth of bytes, at an aligned block (R23, R24). -/
def CommitsFit (p : Params) (as : List Action) : Prop :=
  ∀ b d, Action.commit b d ∈ as → b &&& blockMask p = 0 ∧ d.length = blockSize p

theorem commitsFit_of_no_commit {p : Params} {as : List Action} (h : ∀ b d, Action.commit b d ∉ as) : CommitsFit p as :=
  fun b d hm => absurd hm (h b d)

theorem CommitsFit.append {p : Params} {as bs : List Action} (ha : CommitsFit p as) (hb : CommitsFit p bs) :
    CommitsFit p (as ++ bs) := fun b d hm => (List.mem_append.mp hm).elim (ha b d) (hb b d)

theorem CommitsFit.of_subset {p : Params} {as bs : List Action} (h : CommitsFit p bs) (hsub : as ⊆ bs) :
    CommitsFit p as := fun b d hm => h b d (hsub hm)

/-- The one commit among these fits. -/
theorem commitsFit_of_core {s : State} (hc : Core s) {as : List Action}
    (h : ∀ b d, Action.commit b d ∈ as → b = s.currentBlock ∧ d = s.buf) : CommitsFit s.params as := by
  intro b d hm
  obtain ⟨rfl, rfl⟩ := h b d hm
  obtain ⟨halign, hsize, -⟩ := hc
  exact ⟨halign, hsize⟩

/-- Replaying one action changes memory only in the block it commits. -/
theorem replayAction_nv_outside {s : State} (hwf : Memory.wf s.nv) {a : Action} (hfit : CommitsFit s.params [a]) {x : Addr}
    (hx : ∀ b d, a = .commit b d → blockBase s.params x ≠ b) : (replayAction s a).nv.read x.toNat = s.nv.read x.toNat := by
  cases a with
  | commit b d =>
    obtain ⟨halign, hlen⟩ := hfit b d List.mem_cons_self
    have hread : ∀ d' : List Byte, d'.length = blockSize s.params →
        (Memory.writeBytes s.nv b d').read x.toNat = s.nv.read x.toNat := fun d' hd' => by
      rw [read_block_write hwf halign hd', if_neg (hx b d rfl)]
    cases hn : nextAnswer s with
    | ok => simp only [replayAction, hn]; exact hread d hlen
    | writeFault => simp only [replayAction, hn]; exact hread _ (length_freeBytes _ _)
    | never => simp only [replayAction, hn]; exact hread _ (length_freeBytes _ _)
  | send _ | armTimeout | load _ | drain | handoff _ => rfl

/-- Replaying actions changes memory only in blocks that they commit (R53, R54). -/
theorem replay_nv_outside {s : State} (hwf : Memory.wf s.nv) {as : List Action} (hfit : CommitsFit s.params as) {x : Addr}
    (hx : ∀ b d, Action.commit b d ∈ as → blockBase s.params x ≠ b) : (replay as s).nv.read x.toNat = s.nv.read x.toNat := by
  induction as generalizing s with
  | nil => rfl
  | cons a as ih =>
    obtain ⟨hp, -, -, -, hwf'⟩ := replayAction_keeps s a
    have hhead : (replayAction s a).nv.read x.toNat = s.nv.read x.toNat :=
      replayAction_nv_outside hwf (hfit.of_subset (by simp)) fun b d e => hx b d (e ▸ List.mem_cons_self)
    refine Eq.trans (ih (hwf' hwf) ?_ ?_) hhead
    · rw [hp]; exact hfit.of_subset (by simp)
    · rw [hp]; exact fun b d hm => hx b d (List.mem_cons_of_mem a hm)

/-- A byte that replaying changed lies in a block that was committed. -/
theorem committed_of_replay_nv {s : State} (hwf : Memory.wf s.nv) {as : List Action} (hfit : CommitsFit s.params as) {x : Addr}
    (hx : (replay as s).nv.read x.toNat ≠ s.nv.read x.toNat) :
    ∃ b d, Action.commit b d ∈ as ∧ blockBase s.params x = b := by
  by_contra hnone
  exact hx (replay_nv_outside hwf hfit fun b d hm hb => hnone ⟨b, d, hm, hb⟩)

end Sys2Proof.Machine
end

section
/-! The actions of the shared operations (R112, R141, R146): those of a crossing, of a payload and of the end of the session, with
what applying a payload leaves alone. -/

namespace Sys2Proof.Machine

/-- The actions of one crossing answered Ok (R112, R118). -/
def crossingActions (p : Params) (b : Addr) (d : List Byte) (new : Addr) : List Action :=
  [.send p.xoffByte, .commit b d, .send p.progressChar, .load new, .send p.xonByte]

/-- The actions of a payload that goes on: those of its crossings, one after the other. -/
inductive Crossings (p : Params) : List Action → Prop
  | none : Crossings p []
  | more {as : List Action} {b new : Addr} {d : List Byte} (h : Crossings p as) :
      Crossings p (as ++ crossingActions p b d new)

/-- The actions of a crossing whose commit did not succeed (R114, R115). -/
def cutCrossingActions (p : Params) (b : Addr) (d : List Byte) : List Action := [.send p.xoffByte, .commit b d]

/-- The actions of `finish()` with its commit answered Ok (R146). -/
def finishActions (p : Params) (b : Addr) (d : List Byte) : List Action :=
  [.commit b d, .send p.progressChar] ++ p.bannerHandoff.map Action.send ++ [.drain, .handoff p.entryPoint]

theorem commitCount_sends (bs : List Byte) : commitCount (bs.map Action.send) = 0 := by
  induction bs with
  | nil => rfl
  | cons b bs ih => exact ih

/-- The sender paused: a crossing begins (R112). -/
theorem emits_sendXoff (s : State) : Emits s [.send s.params.xoffByte] (sendXoff s) := emits_one rfl rfl

theorem emits_crossed (new : Addr) {s : State} (h : nextAnswer s = .ok) :
    Emits s (crossingActions s.params s.currentBlock s.buf new) (crossed new s) := by
  have hcommit : Emits (sendXoff s) [.commit s.currentBlock s.buf] (storeBlock (issueCommit (sendXoff s))) :=
    emits_commit_ok (s := sendXoff s) h
  have hreport : Emits (storeBlock (issueCommit (sendXoff s))) [.send s.params.progressChar]
      (sendProgress (storeBlock (issueCommit (sendXoff s)))) := emits_one rfl rfl
  have hload : Emits (sendProgress (storeBlock (issueCommit (sendXoff s)))) [.load new]
      (load new (sendProgress (storeBlock (issueCommit (sendXoff s))))) := emits_one rfl rfl
  have hxon : Emits (load new (sendProgress (storeBlock (issueCommit (sendXoff s))))) [.send s.params.xonByte]
      (crossed new s) := emits_one rfl rfl
  exact ((((emits_sendXoff s).trans hcommit).trans hreport).trans hload).trans hxon

theorem emits_cutInCrossing {s : State} (h : nextAnswer s ≠ .ok) :
    Emits s (cutCrossingActions s.params s.currentBlock s.buf) (cutInCrossing s) :=
  (emits_sendXoff s).trans (emits_commit_spoiled (s := sendXoff s) h)

theorem emits_finishedState {s : State} (h : nextAnswer s = .ok) :
    Emits s (finishActions s.params s.currentBlock s.buf) (finishedState s) := by
  have hreport : Emits (storeBlock (issueCommit s)) [.send s.params.progressChar]
      (sendProgress (storeBlock (issueCommit s))) := emits_one rfl rfl
  have hbanner : Emits (sendProgress (storeBlock (issueCommit s))) (s.params.bannerHandoff.map Action.send)
      (sendBannerHandoff (sendProgress (storeBlock (issueCommit s)))) := emits_sendAll _ _
  have hdrain : Emits (sendBannerHandoff (sendProgress (storeBlock (issueCommit s)))) [.drain]
      (drain (sendBannerHandoff (sendProgress (storeBlock (issueCommit s))))) := emits_one rfl rfl
  have hhandoff : Emits (drain (sendBannerHandoff (sendProgress (storeBlock (issueCommit s)))))
      [.handoff s.params.entryPoint] (finishedState s) := emits_one rfl rfl
  have hall := (((emits_commit_ok h).trans hreport).trans hbanner).trans (hdrain.trans hhandoff)
  simpa [finishActions] using hall

/-! ### A payload that is being applied -/

/-- Everything but the buffer, its block, memory and what actions touch is as it was. -/
def PayloadFrame (s u : State) : Prop :=
  u = { s with
    currentBlock := u.currentBlock, buf := u.buf, nv := u.nv, executable := u.executable, senderPaused := u.senderPaused,
    txQueue := u.txQueue, answers := u.answers, answersTaken := u.answersTaken, trace := u.trace }

/-- How far a payload has come, its crossings answered Ok: from `s` to `u` with the actions `as`. -/
structure PayloadRun (s : State) (as : List Action) (u : State) : Prop where
  crossings : Crossings s.params as
  emits : Emits s as u
  answered : OkFor (commitCount as) s
  frame : PayloadFrame s u
  sender : s.senderPaused = false → u.senderPaused = false
  core : Core s → Core u ∧ CommitsFit s.params as

theorem PayloadRun.refl (s : State) : PayloadRun s [] s where
  crossings := .none
  emits := .refl s
  answered := fun _ hk => absurd hk (Nat.not_lt_zero _)
  frame := rfl
  sender := id
  core := fun hc => ⟨hc, commitsFit_of_no_commit (by simp)⟩

theorem okFor_succ {n : Nat} {s : State} (h : OkFor n s) (hn : answerOf s n = .ok) : OkFor (n + 1) s := fun k hk =>
  (Nat.lt_succ_iff_lt_or_eq.mp hk).elim (h k) fun e => e ▸ hn

theorem commitCount_crossing (p : Params) (b : Addr) (d : List Byte) (new : Addr) :
    commitCount (crossingActions p b d new) = 1 := rfl

/-- A crossing writes the buffer, its block, memory, the executable list, the sender, the queue, the answers and the trace. -/
theorem crossed_eq (new : Addr) (s : State) :
    crossed new s = { s with
      currentBlock := new, buf := Memory.block s.params (storeBlock s).nv new, nv := (storeBlock s).nv,
      executable := (storeBlock s).executable, senderPaused := false,
      txQueue := s.txQueue ++ [s.params.xoffByte, s.params.progressChar, s.params.xonByte],
      answers := s.answers.tail, answersTaken := s.answersTaken + 1,
      trace := s.trace ++ crossingActions s.params s.currentBlock s.buf new } := by
  simp [crossed, sendXon, sendXoff, sendProgress, send, load, emit, storeBlock, issueCommit, crossingActions]

theorem payloadFrame_crossed (new : Addr) (s : State) : PayloadFrame s (crossed new s) := by
  rw [crossed_eq, PayloadFrame]

theorem payloadFrame_bufWrite (a : Addr) (v : Byte) (s : State) : PayloadFrame s (Machine.bufWrite a v s) := rfl

theorem PayloadFrame.trans {s t u : State} (h : PayloadFrame s t) (h' : PayloadFrame t u) : PayloadFrame s u := by
  rw [PayloadFrame] at h h' ⊢
  conv_lhs => rw [h', h]

/-- One more byte inside the block. -/
theorem PayloadRun.bufWrite {s u : State} {as : List Action} (h : PayloadRun s as u) (a : Addr) (v : Byte) :
    PayloadRun s as (bufWrite a v u) where
  crossings := h.crossings
  emits := ⟨h.emits.trace, h.emits.env⟩
  answered := h.answered
  frame := h.frame.trans (payloadFrame_bufWrite a v u)
  sender := h.sender
  core := fun hc => ⟨core_bufWrite (h.core hc).1 a v, (h.core hc).2⟩

/-- One more crossing, answered Ok. -/
theorem PayloadRun.crossed {s u : State} {as : List Action} (h : PayloadRun s as u) (a : Addr) (hok : nextAnswer u = .ok) :
    PayloadRun s (as ++ crossingActions s.params u.currentBlock u.buf (blockBase u.params a))
      (crossed (blockBase u.params a) u) where
  crossings := h.crossings.more
  emits := h.emits.keeps.1 ▸ h.emits.trans (emits_crossed _ hok)
  answered := by
    rw [commitCount_append, commitCount_crossing]
    exact okFor_succ h.answered (h.emits.nextAnswer ▸ hok)
  frame := h.frame.trans (payloadFrame_crossed _ u)
  sender := fun _ => crossed_senderPaused _ _
  core := fun hc => by
    obtain ⟨hcu, hfit⟩ := h.core hc
    obtain ⟨hp, -, -⟩ := h.emits.keeps
    refine ⟨core_crossed hcu a, hfit.append ?_⟩
    rw [← hp]
    exact commitsFit_of_core hcu (by simp [crossingActions])

/-- Everything a payload can do: it goes on, or it ends in or is stuck in a crossing's commit. -/
theorem applyPayload_runs (a : Addr) (bs : List Byte) (s : State) :
    (applyPayload a bs s).Sat (fun t => ∃ as, PayloadRun s as t)
      (fun t => ∃ u, (∃ as, PayloadRun s as u) ∧ nextAnswer u = .writeFault ∧ t = raiseWriteFault (cutInCrossing u))
      (fun t => ∃ u, (∃ as, PayloadRun s as u) ∧ nextAnswer u = .never ∧ t = cutInCrossing u) :=
  applyPayload_sat (P := fun u => ∃ as, PayloadRun s as u)
    (fun _ a v ⟨as, h⟩ _ => ⟨as, h.bufWrite a v⟩)
    (fun _ a ⟨_, h⟩ hok => ⟨_, h.crossed a hok⟩) a bs ⟨[], .refl s⟩

theorem PayloadRun.params {s u : State} {as : List Action} (h : PayloadRun s as u) : u.params = s.params := h.emits.keeps.1

/-- The actions up to a crossing's commit that does not succeed. -/
theorem PayloadRun.emits_cut {s u : State} {as : List Action} (h : PayloadRun s as u) (hn : nextAnswer u ≠ .ok) :
    Emits s (as ++ cutCrossingActions s.params u.currentBlock u.buf) (cutInCrossing u) :=
  h.params ▸ h.emits.trans (emits_cutInCrossing hn)

/-! ### Runs that keep the buffer and its block in order -/

/-- A run whose actions are the change of the environment, and which keeps alignment, size and memory's form, with commits that
fit their block. -/
def EmitsFit (s t : State) : Prop := ∃ as, Emits s as t ∧ (Core s → Core t ∧ CommitsFit s.params as)

theorem EmitsFit.trans {s t u : State} (h : EmitsFit s t) (h' : EmitsFit t u) : EmitsFit s u := by
  obtain ⟨as, he, hc⟩ := h
  obtain ⟨bs, he', hc'⟩ := h'
  refine ⟨as ++ bs, he.trans he', fun hs => ?_⟩
  obtain ⟨ht, hfit⟩ := hc hs
  obtain ⟨hu, hfit'⟩ := hc' ht
  obtain ⟨hp, -, -⟩ := he.keeps
  exact ⟨hu, hfit.append (hp ▸ hfit')⟩

/-- Nothing but the block's own state and the timer changes. -/
theorem emitsFit_none {s t : State} (htrace : t.trace = s.trace) (henv : env s = env t)
    (hblock : t.currentBlock = s.currentBlock) (hbuf : t.buf = s.buf) : EmitsFit s t := by
  refine ⟨[], emits_none htrace henv, fun hc => ⟨?_, commitsFit_of_no_commit (by simp)⟩⟩
  have hp : t.params = s.params := (congrArg Env.params henv).symm
  have hnv : t.nv = s.nv := (congrArg Env.nv henv).symm
  rwa [Core, BlockAligned, BufferSized, hp, hblock, hbuf, hnv]

theorem emitsFit_sendAll (bs : List Byte) (s : State) : EmitsFit s (sendAll bs s) :=
  ⟨_, emits_sendAll bs s, fun hc => ⟨hc, commitsFit_of_no_commit (by simp)⟩⟩

theorem emitsFit_armTimeout (s : State) : EmitsFit s (armTimeout s) :=
  ⟨_, emits_one (a := .armTimeout) rfl rfl, fun hc => ⟨hc, commitsFit_of_no_commit (by simp)⟩⟩

theorem core_spoilBlock {s : State} (hc : Core s) : Core (spoilBlock s) := by
  obtain ⟨halign, hsize, hwf⟩ := hc
  exact ⟨halign, hsize, wf_spoilBlock hwf⟩

theorem core_storeBlock {s : State} (hc : Core s) : Core (storeBlock s) := by
  obtain ⟨halign, hsize, hwf⟩ := hc
  exact ⟨halign, hsize, wf_storeBlock hwf⟩

theorem emitsFit_spoiled {s : State} (h : nextAnswer s ≠ .ok) : EmitsFit s (spoilBlock (issueCommit s)) :=
  ⟨_, emits_commit_spoiled h, fun hc =>
    ⟨core_spoilBlock (s := issueCommit s) hc, commitsFit_of_core hc (by simp)⟩⟩

theorem emitsFit_raiseWriteFault (s : State) : EmitsFit s (raiseWriteFault s) := emitsFit_none rfl rfl rfl rfl

theorem emitsFit_cutInCrossing {s : State} (h : nextAnswer s ≠ .ok) : EmitsFit s (cutInCrossing s) :=
  EmitsFit.trans (t := sendXoff s) ⟨_, emits_sendXoff s, fun hc => ⟨hc, commitsFit_of_no_commit (by simp)⟩⟩
    (emitsFit_spoiled (s := sendXoff s) h)

theorem emitsFit_finishedState {s : State} (h : nextAnswer s = .ok) : EmitsFit s (finishedState s) :=
  ⟨_, emits_finishedState h, fun hc =>
    ⟨finishedState_eq s ▸ core_storeBlock hc, commitsFit_of_core hc (by simp [finishActions])⟩⟩

theorem PayloadRun.emitsFit {s u : State} {as : List Action} (h : PayloadRun s as u) : EmitsFit s u :=
  ⟨as, h.emits, h.core⟩

theorem finish_emitsFit (s : State) : (finish s).Sat (EmitsFit s) (EmitsFit s) (EmitsFit s) := by
  refine (finish_sat s).imp ?_ ?_ ?_
  · rintro t ⟨hok, rfl⟩
    exact emitsFit_finishedState hok
  · rintro t ⟨hn, rfl⟩
    exact (emitsFit_spoiled (by simp [hn])).trans (emitsFit_raiseWriteFault _)
  · rintro t ⟨hn, rfl⟩
    exact emitsFit_spoiled (by simp [hn])

theorem emitsFit_lineRestart (s : State) : EmitsFit s (lineRestart s) := emitsFit_none rfl rfl rfl rfl

/-- The flow of a data record: its payload, then the line restart (R141, R142). -/
def dataFlow (a : Addr) (bs : List Byte) (s : State) : Flow :=
  (applyPayload a bs s).andThen fun s => .go (lineRestart s)

theorem exec_recData_dataFlow {s : State} (hi lo : Byte) (data : List Byte) (h : polls s.fsm = true) :
    exec (.recData hi lo data) s = (dataFlow (recordAddress hi lo) data s).toOutcome :=
  exec_recData hi lo data h

/-- A payload that goes on to its end ends in the line restart. -/
theorem dataFlow_go {a : Addr} {bs : List Byte} {s u : State} (h : applyPayload a bs s = .go u) :
    dataFlow a bs s = .go (lineRestart u) := by
  rw [dataFlow, h, Flow.go_andThen]

/-- Everything a data record can do. -/
theorem dataFlow_sat (a : Addr) (bs : List Byte) (s : State) :
    (dataFlow a bs s).Sat (fun t => ∃ u, (∃ as, PayloadRun s as u) ∧ applyPayload a bs s = .go u ∧ t = lineRestart u)
      (fun t => ∃ u, (∃ as, PayloadRun s as u) ∧ nextAnswer u = .writeFault ∧ t = raiseWriteFault (cutInCrossing u))
      (fun t => ∃ u, (∃ as, PayloadRun s as u) ∧ nextAnswer u = .never ∧ t = cutInCrossing u) := by
  have hruns := applyPayload_runs a bs s
  unfold dataFlow
  cases hf : applyPayload a bs s with
  | go u =>
    rw [hf] at hruns
    exact ⟨u, hruns, rfl, rfl⟩
  | ends t =>
    rw [hf] at hruns
    exact hruns
  | stuck t =>
    rw [hf] at hruns
    exact hruns

theorem dataFlow_emitsFit (a : Addr) (bs : List Byte) (s : State) :
    (dataFlow a bs s).Sat (EmitsFit s) (EmitsFit s) (EmitsFit s) := by
  refine (dataFlow_sat a bs s).imp ?_ ?_ ?_
  · rintro t ⟨u, ⟨as, hrun⟩, -, rfl⟩
    exact hrun.emitsFit.trans (emitsFit_lineRestart u)
  · rintro t ⟨u, ⟨as, hrun⟩, hn, rfl⟩
    exact (hrun.emitsFit.trans (emitsFit_cutInCrossing (by simp [hn]))).trans (emitsFit_raiseWriteFault _)
  · rintro t ⟨u, ⟨as, hrun⟩, hn, rfl⟩
    exact hrun.emitsFit.trans (emitsFit_cutInCrossing (by simp [hn]))

end Sys2Proof.Machine
end

section
/-! What a step on an event can do, said once (R134, R135, R144, R145): the event is prepared for, and then the step only restarts
or advances the line, reports a bad sum, finishes the session, or applies a payload. -/

namespace Sys2Proof.Machine

/-- The actions with which the block takes an event (R134, R145, R177). -/
def armed (s : State) : Event → List Action
  | .byteReceived c => if isHexCode c then [.armTimeout] else []
  | .timedOut => if s.fsm = .accumulatingRecord then [.armTimeout] else []

/-- Only the line group, `fsm` and the timer have been touched, with these actions. -/
structure Prepared (s : State) (as : List Action) (u : State) : Prop where
  emits : Emits s as u
  block : u.currentBlock = s.currentBlock
  buf : u.buf = s.buf
  sender : u.senderPaused = s.senderPaused

/-- The event is the hex character that completes a record (R84, R97). -/
structure CompletesRecord (s : State) (e : Event) : Prop where
  hex : ∃ c v, e = .byteReceived c ∧ nib c = .valid v
  phase : s.nibPhase = .low
  offset : s.offset.toNat = 4 + s.recLength.toNat

/-- What running the row of an event can come to, in a state that polls. -/
inductive EventStep (s : State) (e : Event) (o : Host.Outcome State Fault Refusal) : Prop
  | line (u : State) (prepared : Prepared s (armed s e) u) (polling : polls u.fsm = true) (keeps : Inv s → Inv u)
      (outcome : o = .next u)
  | badSum (u : State) (prepared : Prepared s (armed s e) u) (completes : CompletesRecord s e) (sum : u.sum ≠ 0)
      (outcome : o = .next (raiseChecksumMismatch u))
  | finishes (u : State) (prepared : Prepared s (armed s e) u) (polling : polls u.fsm = true)
      (outcome : o = (finish u).toOutcome)
  | data (u : State) (prepared : Prepared s (armed s e) u) (polling : polls u.fsm = true) (completes : CompletesRecord s e)
      (type : s.recType = 0x00)
      (outcome : o = (dataFlow (recordAddress s.recAddrHi s.recAddrLo) (payload s) u).toOutcome)
  | pastEnd (phase : s.nibPhase = .low) (past : 4 + s.recLength.toNat < s.offset.toNat)
      (outcome : o = .fault .feedPastRecordEnd)

theorem Prepared.emitsFit {s u : State} {as : List Action} (h : Prepared s as u)
    (hcommit : ∀ b d, Action.commit b d ∉ as) : EmitsFit s u := by
  refine ⟨as, h.emits, fun hc => ⟨?_, commitsFit_of_no_commit hcommit⟩⟩
  obtain ⟨hp, -, -⟩ := h.emits.keeps
  have hnv : Memory.wf u.nv := by
    have heq : (replay as s).nv = u.nv := congrArg Env.nv h.emits.env
    rw [← heq]
    exact (replay_keeps as s).2.2.2.2 hc.2.2
  rw [Core, BlockAligned, BufferSized, hp, h.block, h.buf]
  exact ⟨hc.1, hc.2.1, hnv⟩

theorem armed_cases (s : State) (e : Event) : armed s e = [] ∨ armed s e = [.armTimeout] := by
  cases e with
  | byteReceived c => exact (ite_eq_or_eq _ _ _).symm
  | timedOut => exact (ite_eq_or_eq _ _ _).symm

theorem no_commit_in_armed (s : State) (e : Event) (b : Addr) (d : List Byte) : Action.commit b d ∉ armed s e := by
  obtain h | h := armed_cases s e <;> simp [h]

theorem Prepared.core {s u : State} {e : Event} (h : Prepared s (armed s e) u) (hc : Core s) : Core u := by
  obtain ⟨_, -, hkeeps⟩ := h.emitsFit (no_commit_in_armed s e)
  exact (hkeeps hc).1

/-! ### The line group under the invariant -/

/-- Where the block polls, the record's end is not passed and the sum is that of the bytes consumed (R29, R101). -/
theorem Inv.record {s : State} (h : Inv s) (hpoll : polls s.fsm = true) :
    s.offset.toNat ≤ 4 + s.recLength.toNat ∧ s.sum = byteSum (consumed s) := by
  obtain ⟨-, -, -, hline, hmid, -, -⟩ := h
  obtain hf | hf := polls_cases hpoll
  · obtain ⟨-, -, hoff, hsum, -⟩ := hline hf
    simp [consumed, hoff, hsum, byteSum]
  · obtain ⟨-, hend, hsum⟩ := hmid hf
    exact ⟨hend, hsum⟩

theorem Inv.interrupts {s : State} (h : Inv s) : s.interruptsEnabled = false := by
  obtain ⟨-, -, -, -, -, -, hi⟩ := h
  exact hi

theorem Inv.sender {s : State} (h : Inv s) (hpoll : polls s.fsm = true) : s.senderPaused = false := by
  obtain ⟨-, -, -, -, -, hs, -⟩ := h
  exact hs hpoll

/-- The invariant at a line start. -/
theorem inv_lineStart {t : State} (hc : Core t) (hfsm : t.fsm = .awaitingLine) (hline : AtLineStart t)
    (hsend : t.senderPaused = false) (hint : t.interruptsEnabled = false) : Inv t := by
  obtain ⟨h1, h2, h3⟩ := hc
  exact ⟨h1, h2, h3, fun _ => hline, fun hf => (by rw [hfsm] at hf; cases hf), fun _ => hsend, hint⟩

/-- The invariant in the middle of a record. -/
theorem inv_midRecord {t : State} (hc : Core t) (hfsm : t.fsm = .accumulatingRecord) (hmid : MidRecord t)
    (hsend : t.senderPaused = false) (hint : t.interruptsEnabled = false) : Inv t := by
  obtain ⟨h1, h2, h3⟩ := hc
  exact ⟨h1, h2, h3, fun hf => (by rw [hfsm] at hf; cases hf), fun _ => hmid, fun _ => hsend, hint⟩

/-- The invariant in a terminal state. -/
theorem inv_terminal {t : State} (hc : Core t) (hterm : polls t.fsm = false) (hint : t.interruptsEnabled = false) :
    Inv t := by
  obtain ⟨h1, h2, h3⟩ := hc
  refine ⟨h1, h2, h3, fun hf => ?_, fun hf => ?_, fun hp => ?_, hint⟩
  · rw [hf] at hterm; cases hterm
  · rw [hf] at hterm; cases hterm
  · rw [hterm] at hp; cases hp

theorem inv_lineRestart {s : State} (h : Inv s) (hpoll : polls s.fsm = true) : Inv (lineRestart s) :=
  inv_lineStart h.core rfl (atLineStart_lineRestart s) (h.sender hpoll) h.interrupts

theorem inv_pairHi {s : State} (v : Nibble) (h : Inv s) (hpoll : polls s.fsm = true) : Inv (pairHi v (hexArmed s)) :=
  inv_midRecord h.core rfl ⟨.inl rfl, h.record hpoll⟩ (h.sender hpoll) h.interrupts

/-- A byte fed before the terminator leaves the block in the middle of the record. -/
theorem inv_feedAt {s : State} {p : Position} (b : Byte) (h : Inv s) (hpoll : polls s.fsm = true)
    (hp : position s = some p) (hne : p ≠ .terminator) : Inv (feedAt p b (hexPaired s)) := by
  have hp' : position (hexPaired s) = some p := hp
  obtain ⟨-, hsum⟩ := h.record hpoll
  have hlen := s.recLength.isLt
  have hoff : (feedAt p b (hexPaired s)).offset.toNat = s.offset.toNat + 1 ∧
      s.offset.toNat + 1 ≤ 4 + (feedAt p b (hexPaired s)).recLength.toNat := by
    have hadd : s.offset.toNat < 511 → (s.offset + 1).toNat = s.offset.toNat + 1 := fun hlt => by
      rw [BitVec.toNat_add]
      simp
      omega
    rw [feedAt_offset, feedAt_recLength]
    show (s.offset + 1).toNat = s.offset.toNat + 1 ∧
      s.offset.toNat + 1 ≤ 4 + (if p = .length then b else s.recLength).toNat
    cases p with
    | terminator => exact absurd rfl hne
    | length => have := position_eq_length.mp hp; exact ⟨hadd (by omega), by omega⟩
    | addrHi => have := position_eq_addrHi.mp hp; exact ⟨hadd (by omega), by omega⟩
    | addrLo => have := position_eq_addrLo.mp hp; exact ⟨hadd (by omega), by omega⟩
    | type => have := position_eq_type.mp hp; exact ⟨hadd (by omega), by omega⟩
    | data =>
      obtain ⟨-, hlt⟩ := position_eq_data.mp hp
      exact ⟨hadd (by omega), by simpa using hlt⟩
  obtain ⟨hnext, hend⟩ := hoff
  refine inv_midRecord ?_ (feedAt_fsm ..) ⟨.inr (by omega), by omega, ?_⟩ ?_ ?_
  · have hc := h.core
    rw [Core, BlockAligned, BufferSized, feedAt_params, feedAt_currentBlock, feedAt_buf, feedAt_nv]
    exact hc
  · rw [consumed_feedAt hp' hne, byteSum_append, feedAt_sum]
    show s.sum + b = byteSum (consumed s) + byteSum [b]
    rw [hsum]
    simp [byteSum]
  · rw [feedAt_senderPaused]; exact h.sender hpoll
  · rw [feedAt_interruptsEnabled]; exact h.interrupts

/-! ### The events -/

theorem isHexCode_of_valid {c : Byte} {v : Nibble} (h : nib c = .valid v) : isHexCode c = true := by
  by_contra hne
  rw [(nib_invalid_iff c).mpr (by simpa using hne)] at h
  cases h

theorem isHexCode_of_invalid {c : Byte} (h : nib c = .invalid) : isHexCode c = false := (nib_invalid_iff c).mp h

/-- The timer armed for a hex character. -/
theorem prepared_hexArmed (s : State) : Prepared s [.armTimeout] (hexArmed s) :=
  ⟨emits_one rfl rfl, rfl, rfl, rfl⟩

/-- Only the line group and `fsm` change further. -/
theorem Prepared.line {s t u : State} {as : List Action} (h : Prepared s as t) (htrace : u.trace = t.trace)
    (henv : env t = env u) (hblock : u.currentBlock = t.currentBlock) (hbuf : u.buf = t.buf)
    (hsend : u.senderPaused = t.senderPaused) : Prepared s as u :=
  ⟨List.append_nil as ▸ h.emits.trans (emits_none htrace henv), hblock.trans h.block, hbuf.trans h.buf,
    hsend.trans h.sender⟩

theorem prepared_feedAt (s : State) (p : Position) (b : Byte) : Prepared s [.armTimeout] (feedAt p b (hexPaired s)) :=
  (prepared_hexArmed s).line (feedAt_trace ..) (by simp [env, hexPaired]) (feedAt_currentBlock ..) (feedAt_buf ..)
    (feedAt_senderPaused ..)

theorem Prepared.lineRestart {s u : State} {as : List Action} (h : Prepared s as u) : Prepared s as (lineRestart u) :=
  h.line rfl rfl rfl rfl rfl

theorem Prepared.inv_lineRestart {s u : State} {e : Event} (h : Prepared s (armed s e) u) (hs : Inv s)
    (hpoll : polls s.fsm = true) : Inv (Machine.lineRestart u) := by
  obtain ⟨-, -, hint⟩ := h.emits.keeps
  exact inv_lineStart (h.core hs.core) rfl (atLineStart_lineRestart u) (h.sender.trans (hs.sender hpoll))
    (hint.trans hs.interrupts)

/-- What a hex character can come to. -/
theorem eventStep_hex {s : State} {c : Byte} {v : Nibble} (hpoll : polls s.fsm = true) (hn : nib c = .valid v) :
    EventStep s (.byteReceived c) (hexChar v s) := by
  have harmed : armed s (.byteReceived c) = [.armTimeout] := if_pos (isHexCode_of_valid hn)
  have hfed : ∀ p b, Prepared s (armed s (.byteReceived c)) (feedAt p b (hexPaired s)) := fun p b =>
    harmed ▸ prepared_feedAt s p b
  obtain ⟨-, e⟩ | ⟨-, p, hp, hne, e⟩ | ⟨hlow, hnone, e⟩ | ⟨hlow, hp, u, rfl, hcomplete⟩ := hexChar_cases v hpoll
  · exact .line _ (harmed ▸ (prepared_hexArmed s).line rfl rfl rfl rfl rfl) rfl (fun h => inv_pairHi v h hpoll) e
  · exact .line _ (hfed p _) (by rw [feedAt_fsm]; rfl) (fun h => inv_feedAt _ h hpoll hp hne) e
  · exact .pastEnd hlow (position_eq_none.mp hnone).1 e
  · have hends : CompletesRecord s (.byteReceived c) := ⟨⟨c, v, rfl, hn⟩, hlow, position_eq_terminator.mp hp⟩
    have hpolls : polls (feedAt .terminator (joinNibbles s.hiNib v) (hexPaired s)).fsm = true := by rw [feedAt_fsm]; rfl
    obtain ⟨hsum, e⟩ | ⟨-, -, e⟩ | ⟨-, hty, e⟩ | ⟨-, -, -, e⟩ := hcomplete
    · exact .badSum _ (hfed _ _) hends hsum e
    · exact .finishes _ (hfed _ _) hpolls e
    · exact .data _ (hfed _ _) hpolls hends hty e
    · exact .line _ (hfed _ _).lineRestart rfl (fun h => (hfed _ _).inv_lineRestart h hpoll) e

/-- What the row of any event can come to, where the block polls. -/
theorem eventStep_exec {s : State} (e : Event) (hpoll : polls s.fsm = true) : EventStep s e (exec (selectInstr s e) s) := by
  cases e with
  | byteReceived c =>
    show EventStep s _ (exec (decodeChar c) s)
    cases hn : nib c with
    | valid v =>
      rw [decodeChar_valid hn, exec_hexInstr]
      exact eventStep_hex hpoll hn
    | invalid =>
      rw [decodeChar_invalid hn, exec_chNonhex c hpoll]
      have harmed : armed s (.byteReceived c) = [] := if_neg (by simp [isHexCode_of_invalid hn])
      exact .line _ (harmed ▸ ⟨emits_none rfl rfl, rfl, rfl, rfl⟩) rfl (fun h => inv_lineRestart h hpoll) rfl
  | timedOut =>
    obtain hf | hf := polls_cases hpoll
    · have harmed : armed s .timedOut = [] := if_neg (by rw [hf]; decide)
      rw [selectInstr, if_pos hf, exec_timeoutIdle hf]
      exact .finishes { s with timerArmed := false } (harmed ▸ ⟨emits_none rfl rfl, rfl, rfl, rfl⟩) hpoll rfl
    · have harmed : armed s .timedOut = [.armTimeout] := if_pos hf
      rw [selectInstr, if_neg (by rw [hf]; decide), exec_timeoutMidrec hf]
      refine .line _ (harmed ▸ ⟨emits_one rfl rfl, rfl, rfl, rfl⟩) rfl (fun h => ?_) rfl
      exact inv_lineStart h.core rfl (atLineStart_raiseTimeoutMidRecord _) (h.sender hpoll) h.interrupts

/-- Under the invariant nothing is fed past a record's end (R101). -/
theorem not_pastEnd {s : State} (h : Inv s) (hpoll : polls s.fsm = true) : ¬ 4 + s.recLength.toNat < s.offset.toNat :=
  Nat.not_lt.mpr (h.record hpoll).1

end Sys2Proof.Machine
end

section
/-! Every instruction in every state (R35, R41, R53, R54, R168; log 4): whatever it answers, its new actions are the change of the
environment. -/

namespace Sys2Proof.Machine

/-- An outcome leaves a state in which its step stands, the next one or the one it is stuck in. -/
abbrev Leaves (o : Host.Outcome State Fault Refusal) (t : State) : Prop := o = .next t ∨ o = .fault (.stuck t)

/-- Whatever state the outcome leaves, a run from `s` has come to it. -/
def Runs (s : State) (o : Host.Outcome State Fault Refusal) : Prop := ∀ t, Leaves o t → EmitsFit s t

theorem EmitsFit.runs {s t : State} (h : EmitsFit s t) : Runs s (.next t) := by
  rintro u (e | e) <;> cases e
  exact h

theorem runs_refused (s : State) (r : Refusal) : Runs s (.refused r) := by rintro u (e | e) <;> cases e

theorem runs_pastEnd (s : State) : Runs s (.fault .feedPastRecordEnd) := by rintro u (e | e) <;> cases e

theorem runs_flow {s : State} {f : Flow} (h : f.Sat (EmitsFit s) (EmitsFit s) (EmitsFit s)) : Runs s f.toOutcome := by
  rintro t (e | e)
  · exact (h.of_next e).elim id id
  · obtain ⟨u, hu, hfit⟩ := h.of_fault e
    cases hu
    exact hfit

theorem Runs.after {s u : State} {o : Host.Outcome State Fault Refusal} (h : Runs u o) (hsu : EmitsFit s u) : Runs s o :=
  fun t ht => hsu.trans (h t ht)

theorem emitsFit_raiseChecksumMismatch (s : State) : EmitsFit s (raiseChecksumMismatch s) :=
  (emitsFit_sendAll [s.params.checksumErrChar] s).trans (emitsFit_none rfl rfl rfl rfl)

theorem emitsFit_raiseTimeoutMidRecord (s : State) : EmitsFit s (raiseTimeoutMidRecord { s with timerArmed := false }) :=
  (emitsFit_armTimeout s).trans (emitsFit_none rfl rfl rfl rfl)

/-- The row of an event is a run. -/
theorem EventStep.runs {s : State} {e : Event} {o : Host.Outcome State Fault Refusal} (h : EventStep s e o) : Runs s o := by
  have hprep : ∀ {u}, Prepared s (armed s e) u → EmitsFit s u := fun hp => hp.emitsFit (no_commit_in_armed s e)
  cases h with
  | line u hp _ _ he => exact he ▸ (hprep hp).runs
  | badSum u hp _ _ he => exact he ▸ ((hprep hp).trans (emitsFit_raiseChecksumMismatch u)).runs
  | finishes u hp _ he => exact he ▸ (runs_flow (finish_emitsFit u)).after (hprep hp)
  | data u hp _ _ _ he => exact he ▸ (runs_flow (dataFlow_emitsFit _ _ u)).after (hprep hp)
  | pastEnd _ _ he => exact he ▸ runs_pastEnd s

theorem emitsFit_feedAt (p : Position) (b : Byte) (s : State) : EmitsFit s (feedAt p b s) :=
  emitsFit_none (feedAt_trace ..) (by simp [env]) (feedAt_currentBlock ..) (feedAt_buf ..)

/-- A BYTE row feeds its byte or is refused. -/
theorem runs_feedWhenAt {s : State} (p : Position) (b : Byte) (hpoll : polls s.fsm = true) : Runs s (feedWhenAt p b s) := by
  by_cases hp : position s = some p
  · rw [feedWhenAt_of b hpoll hp]
    exact (emitsFit_feedAt p b s).runs
  · rw [feedWhenAt_not b hpoll hp]
    exact runs_refused s _

/-- An OUT row sends its bytes, and may let the sender run or pause it. -/
theorem runs_out {s : State} (bs : List Byte) (paused : Bool) (hpoll : polls s.fsm = true) :
    Runs s (whilePolling s (.next { sendAll bs s with senderPaused := paused })) := by
  rw [whilePolling_of _ hpoll]
  have hpaused : EmitsFit (sendAll bs s) { sendAll bs s with senderPaused := paused } := emitsFit_none rfl rfl rfl rfl
  exact ((emitsFit_sendAll bs s).trans hpaused).runs

/-- Every instruction is a run, from every state. -/
theorem exec_runs (i : Instr) (s : State) : Runs s (exec i s) := by
  cases hpoll : polls s.fsm with
  | false =>
    rw [exec_terminal i hpoll]
    exact (emitsFit_none rfl rfl rfl rfl).runs
  | true =>
    cases i with
    | ch0 | ch1 | ch2 | ch3 | ch4 | ch5 | ch6 | ch7 | ch8 | ch9 | chA | chB | chC | chD | chE | chF =>
      exact (eventStep_hex hpoll (nib_hexCode _)).runs
    | chNonhex c => exact exec_chNonhex c hpoll ▸ (emitsFit_lineRestart s).runs
    | timeoutIdle =>
      obtain hf | hf := polls_cases hpoll
      · exact exec_timeoutIdle hf ▸ (runs_flow (finish_emitsFit _)).after (emitsFit_none rfl rfl rfl rfl)
      · exact exec_timeoutIdle_not hf ▸ runs_refused s _
    | timeoutMidrec =>
      obtain hf | hf := polls_cases hpoll
      · exact exec_timeoutMidrec_not hf ▸ runs_refused s _
      · exact exec_timeoutMidrec hf ▸ (emitsFit_raiseTimeoutMidRecord s).runs
    | recData hi lo data => exact exec_recData_dataFlow hi lo data hpoll ▸ runs_flow (dataFlow_emitsFit _ data s)
    | recEos hi lo data => exact exec_recEos hi lo data hpoll ▸ runs_flow (finish_emitsFit s)
    | recNop hi lo ty data => exact exec_recNop hi lo ty data hpoll ▸ (emitsFit_lineRestart s).runs
    | recBadsum hi lo ty data ck =>
      exact exec_recBadsum hi lo ty data ck hpoll ▸ (emitsFit_raiseChecksumMismatch s).runs
    | byteLength b | byteAddrHi b | byteAddrLo b | byteType b | byteData b | byteTerminator b =>
      exact runs_feedWhenAt _ b hpoll
    | outBannerStart => exact runs_out s.params.bannerStart s.senderPaused hpoll
    | outXon => exact runs_out [s.params.xonByte] false hpoll
    | outXoff => exact runs_out [s.params.xoffByte] true hpoll
    | outProgress => exact runs_out [s.params.progressChar] s.senderPaused hpoll
    | outErr => exact runs_out [s.params.checksumErrChar] s.senderPaused hpoll
    | outBannerHandoff => exact runs_out s.params.bannerHandoff s.senderPaused hpoll

theorem exec_emitsFit {i : Instr} {s t : State} (h : exec i s = .next t) : EmitsFit s t := exec_runs i s t (.inl h)

/-- Settles O12: the instruction is a run, and a run's actions are its change of the environment. -/
theorem replayedActionsAreTheStep : Obligations.ReplayedActionsAreTheStep := by
  intro i s t h
  obtain ⟨as, hemits, -⟩ := exec_emitsFit h
  have henv := hemits.env
  rw [← hemits.newActions, env, env, Env.mk.injEq] at henv
  obtain ⟨-, hnv, hexec, hans, htaken, hfree, htx, -⟩ := henv
  exact ⟨hnv, hexec, hans, htaken, hfree, htx⟩

/-- Settles O40: the change of memory is that of the replayed actions, whose commits fit their block. -/
theorem memoryChangesOnlyInCommittedBlocks : Obligations.MemoryChangesOnlyInCommittedBlocks := by
  intro i s t hinv h
  obtain ⟨as, hemits, hkeeps⟩ := exec_emitsFit h
  obtain ⟨-, -, hwf⟩ := hinv.core
  have hnv : (replay as s).nv = t.nv := congrArg Env.nv hemits.env
  refine ⟨⟨as, hemits.trace.symm⟩, fun a ha => ?_⟩
  rw [hemits.newActions]
  exact committed_of_replay_nv hwf (hkeeps hinv.core).2 (hnv ▸ ha)

/-! ### Steps, those cut by a reset among them -/

/-- What a step cut by a reset keeps. -/
theorem cutStep_keeps (o : Host.Outcome State Fault Refusal) (count : Nat) (inCommit : Bool) (again : List Nat) (s : State) :
    (cutStep o count inCommit again s).params = s.params ∧
    (cutStep o count inCommit again s).interruptsEnabled = s.interruptsEnabled ∧
    (cutStep o count inCommit again s).inbox = s.inbox ∧
    (Memory.wf s.nv → Memory.wf (cutStep o count inCommit again s).nv) := by
  obtain ⟨hp, hi, hin, -, hwf⟩ := replayCut_keeps inCommit (cutActions count (actionsOf s o)) s
  rw [cutStep, sessionEntries_literal]
  exact ⟨hp, hi, hin, hwf⟩

theorem sessionEntries_keeps (again : List Nat) (s : State) :
    (sessionEntries again s).params = s.params ∧ (sessionEntries again s).interruptsEnabled = s.interruptsEnabled ∧
    (sessionEntries again s).nv = s.nv := by
  rw [sessionEntries_literal]
  exact ⟨rfl, rfl, rfl⟩

/-- Everything a step can do, events apart from resets. -/
inductive StepCase (s : State) (o : Host.Outcome State Fault Refusal) : Prop
  | idle (outcome : o = .next s)
  | reset (again : List Nat) (rest : List Input) (outcome : o = .next (sessionEntries again { s with inbox := rest }))
  | event (e : Event) (rest : List Input) (polling : polls s.fsm = true) (inbox : s.inbox = .event e :: rest)
      (eventStep : EventStep { s with inbox := rest } e o)
  | cut (e : Event) (count : Nat) (inCommit : Bool) (again : List Nat) (rest : List Input)
      (outcome : o = .next (cutStep (exec (selectInstr s e) { s with inbox := rest }) count inCommit again
        { s with inbox := rest }))

theorem stepCase_of_event {s : State} {e : Event} {rest : List Input} (hpoll : polls s.fsm = true)
    (hin : s.inbox = .event e :: rest) : EventStep { s with inbox := rest } e (step s) := by
  rw [step_event hpoll hin]
  exact eventStep_exec (s := { s with inbox := rest }) e hpoll

theorem stepCase (s : State) : StepCase s (step s) := by
  cases hpoll : polls s.fsm with
  | false =>
    obtain ⟨-, e⟩ | ⟨es, x, again, rest, -, -, e⟩ := step_terminal_cases hpoll
    · exact .idle e
    · exact .reset again rest e
  | true =>
    match hin : s.inbox with
    | [] => exact .idle (step_idle hpoll hin)
    | .externalReset again :: rest => exact .reset again rest (step_reset hpoll hin)
    | .event e :: rest => exact .event e rest hpoll hin (stepCase_of_event hpoll hin)
    | .resetDuring e count inCommit again :: rest => exact .cut e count inCommit again rest (step_cut hpoll hin)

/-- Settles O51: no action touches a parameter or the interrupt enable, and session entry writes neither. -/
theorem parametersAreConstant : Obligations.ParametersAreConstant := by
  refine ⟨fun s t h => ?_, fun i s t h => ?_⟩
  · cases stepCase s with
    | idle e => cases e.symm.trans h; exact ⟨rfl, rfl⟩
    | reset again rest e =>
      cases e.symm.trans h
      obtain ⟨hp, hi, -⟩ := sessionEntries_keeps again { s with inbox := rest }
      exact ⟨hp, hi⟩
    | event e rest _ _ hstep =>
      obtain ⟨as, hemits, -⟩ := hstep.runs t (.inl h)
      obtain ⟨hp, -, hi⟩ := hemits.keeps
      exact ⟨hp, hi⟩
    | cut e count inCommit again rest he =>
      cases he.symm.trans h
      obtain ⟨hp, hi, -⟩ := cutStep_keeps (exec (selectInstr s e) { s with inbox := rest }) count inCommit again
        { s with inbox := rest }
      exact ⟨hp, hi⟩
  · obtain ⟨as, hemits, -⟩ := exec_emitsFit h
    obtain ⟨hp, hin, hi⟩ := hemits.keeps
    exact ⟨hp, hi, hin⟩

theorem inv_sessionEntries (again : List Nat) {s : State} (hwf : Memory.wf s.nv) (hint : s.interruptsEnabled = false) :
    Inv (sessionEntries again s) := by
  have haligned := blockAligned_sessionEntries again s
  rw [sessionEntries_literal] at haligned ⊢
  exact inv_lineStart ⟨haligned, Memory.length_readBytes .., hwf⟩ rfl ⟨rfl, rfl, rfl, rfl, rfl, rfl, rfl, rfl, rfl⟩ rfl hint

theorem inv_cutStep (o : Host.Outcome State Fault Refusal) (count : Nat) (inCommit : Bool) (again : List Nat) {s : State}
    (hwf : Memory.wf s.nv) (hint : s.interruptsEnabled = false) : Inv (cutStep o count inCommit again s) := by
  obtain ⟨-, hi, -, -, hwf'⟩ := replayCut_keeps inCommit (cutActions count (actionsOf s o)) s
  exact inv_sessionEntries again (hwf' hwf) (hi.trans hint)

/-- What the row of an event leaves meets the invariant. -/
theorem EventStep.inv {s t : State} {e : Event} (hpoll : polls s.fsm = true) (hs : Inv s) (h : EventStep s e (.next t)) :
    Inv t := by
  obtain ⟨as, hemits, hkeeps⟩ := h.runs t (.inl rfl)
  obtain ⟨hcore, -⟩ := hkeeps hs.core
  have hint : t.interruptsEnabled = false := hemits.keeps.2.2.trans hs.interrupts
  have hterm : polls t.fsm = false → Inv t := fun hf => inv_terminal hcore hf hint
  cases h with
  | line u _ _ hinv he => cases he; exact hinv hs
  | badSum u _ _ _ he => cases he; exact hterm rfl
  | finishes u _ _ he =>
    obtain ⟨-, rfl⟩ | ⟨-, rfl⟩ := (finish_sat u).of_next he.symm
    · exact hterm rfl
    · exact hterm rfl
  | data u hp _ _ _ he =>
    obtain ⟨w, ⟨ws, hrun⟩, -, rfl⟩ | ⟨w, -, -, rfl⟩ := (dataFlow_sat _ _ u).of_next he.symm
    · exact inv_lineStart hcore rfl (atLineStart_lineRestart w) (hrun.sender (hp.sender.trans (hs.sender hpoll))) hint
    · exact hterm rfl
  | pastEnd _ _ he => cases he

/-- Settles O43: session entry establishes the invariant, and the row of an event keeps it. -/
theorem stepKeepsTheInvariant : Obligations.StepKeepsTheInvariant := by
  intro s t hs h
  obtain ⟨-, -, hwf⟩ := hs.core
  cases stepCase s with
  | idle e => cases e.symm.trans h; exact hs
  | reset again rest e =>
    cases e.symm.trans h
    exact inv_sessionEntries again hwf hs.interrupts
  | event e rest hpoll _ hstep => exact EventStep.inv (s := { s with inbox := rest }) hpoll hs (h ▸ hstep)
  | cut e count inCommit again rest he =>
    cases he.symm.trans h
    exact inv_cutStep _ count inCommit again (s := { s with inbox := rest }) hwf hs.interrupts

end Sys2Proof.Machine
end

section
/-! How the step on an event ends (R146, R147, R149, R165, R179), said once with the actions it emits, and what follows for each
terminal state, for the re-arming of the timer and for the reports of commits. -/

namespace Sys2Proof.Machine

theorem commitCount_armed (s : State) (e : Event) : commitCount (armed s e) = 0 := by
  obtain h | h := armed_cases s e <;> rw [h] <;> rfl

theorem no_handoff_in_armed (s : State) (e : Event) (x : Addr) : Action.handoff x ∉ armed s e := by
  obtain h | h := armed_cases s e <;> simp [h]

theorem Prepared.params {s u : State} {as : List Action} (h : Prepared s as u) : u.params = s.params := h.emits.keeps.1

/-- Taking an event issues no commit, so the answers to come are as before. -/
theorem Prepared.answerOf {s u : State} {e : Event} (h : Prepared s (armed s e) u) (k : Nat) :
    answerOf u k = Machine.answerOf s k := by
  rw [h.emits.answerOf, commitCount_armed, Nat.zero_add]

theorem Prepared.nv {s u : State} {e : Event} (h : Prepared s (armed s e) u) : u.nv = s.nv :=
  (congrArg Env.nv h.emits.env).symm.trans (replay_keeps_memory (no_commit_in_armed s e) s).1

theorem Prepared.logicalByte {s u : State} {e : Event} (h : Prepared s (armed s e) u) (a : Addr) :
    logicalByte u a = Machine.logicalByte s a := by
  unfold Machine.logicalByte
  rw [h.params, h.block, h.buf, h.nv]

/-- The error character of a bad sum (R137). -/
theorem emits_raiseChecksumMismatch (s : State) :
    Emits s [.send s.params.checksumErrChar] (raiseChecksumMismatch s) := emits_one rfl rfl

theorem length_payload (s : State) : (payload s).length = s.recLength.toNat := by
  have hlt := s.recLength.isLt
  simp [payload]
  omega

theorem length_payload_lt (s : State) : (payload s).length < 256 := (length_payload s).trans_lt s.recLength.isLt

/-- A payload that is applied issues no more commits than it has bytes. -/
theorem PayloadRun.commitCount_le {a : Addr} {bs : List Byte} {s u : State} {as : List Action} (h : PayloadRun s as u)
    (happ : applyPayload a bs s = .go u) : commitCount as ≤ bs.length := by
  have hans := applyPayload_answers a bs s
  rw [happ] at hans
  obtain ⟨n, hn, -, -, htaken⟩ := hans
  have := h.emits.answersTaken
  omega

/-- The next state of a step on an event, with its new actions. -/
inductive EventEnd (s : State) (e : Event) (t : State) : Prop
  | line (polling : polls t.fsm = true) (sender : t.senderPaused = s.senderPaused) (emits : Emits s (armed s e) t)
  | badSum (u : State) (prepared : Prepared s (armed s e) u) (completes : CompletesRecord s e) (sum : u.sum ≠ 0)
      (state : t = raiseChecksumMismatch u) (emits : Emits s (armed s e ++ [.send s.params.checksumErrChar]) t)
  | finished (u : State) (prepared : Prepared s (armed s e) u) (state : t = finishedState u)
      (emits : Emits s (armed s e ++ finishActions s.params s.currentBlock s.buf) t)
  | finishFault (u : State) (prepared : Prepared s (armed s e) u) (answer : nextAnswer s = .writeFault)
      (state : t = raiseWriteFault (spoilBlock (issueCommit u)))
      (emits : Emits s (armed s e ++ [.commit s.currentBlock s.buf]) t)
  | data (u w : State) (as : List Action) (prepared : Prepared s (armed s e) u) (completes : CompletesRecord s e)
      (type : s.recType = 0x00) (run : PayloadRun u as w)
      (applied : applyPayload (recordAddress s.recAddrHi s.recAddrLo) (payload s) u = .go w) (state : t = lineRestart w)
      (emits : Emits s (armed s e ++ as) t)
  | dataFault (u w : State) (as : List Action) (prepared : Prepared s (armed s e) u) (run : PayloadRun u as w)
      (answer : nextAnswer w = .writeFault) (early : ∃ n, n < 256 ∧ answerOf s n = .writeFault)
      (state : t = raiseWriteFault (cutInCrossing w))
      (emits : Emits s (armed s e ++ (as ++ cutCrossingActions s.params w.currentBlock w.buf)) t)

/-- A payload that ends in a fault or a hang took that answer within the commits it issued. -/
theorem applyPayload_early (a : Addr) {bs : List Byte} (s : State) (hlen : bs.length < 256) :
    (applyPayload a bs s).Sat (fun _ => True) (fun _ => ∃ n, n < 256 ∧ answerOf s n = .writeFault)
      (fun _ => ∃ n, n < 256 ∧ answerOf s n = .never) :=
  (applyPayload_answers a bs s).imp (fun _ _ => trivial) (fun _ ⟨n, hn, _, h⟩ => ⟨n, hn.trans hlen, h⟩)
    (fun _ ⟨n, hn, _, h⟩ => ⟨n, hn.trans hlen, h⟩)

theorem dataFlow_early (a : Addr) {bs : List Byte} (s : State) (hlen : bs.length < 256) :
    (dataFlow a bs s).Sat (fun _ => True) (fun _ => ∃ n, n < 256 ∧ answerOf s n = .writeFault)
      (fun _ => ∃ n, n < 256 ∧ answerOf s n = .never) :=
  (applyPayload_early a s hlen).andThen fun _ _ => trivial

theorem Emits.silently {s t u : State} {as : List Action} (h : Emits s as t) (htrace : u.trace = t.trace)
    (henv : Machine.env t = Machine.env u) : Emits s as u :=
  List.append_nil as ▸ h.trans (emits_none htrace henv)

/-- How the row of an event ends, if it has a next state. -/
theorem EventStep.eventEnd {s t : State} {e : Event} (h : EventStep s e (.next t)) : EventEnd s e t := by
  cases h with
  | line u hp hpoll _ he =>
    cases he
    exact .line hpoll hp.sender hp.emits
  | badSum u hp hends hsum he =>
    cases he
    exact .badSum u hp hends hsum rfl (hp.params ▸ hp.emits.trans (emits_raiseChecksumMismatch u))
  | finishes u hp _ he =>
    obtain ⟨hok, rfl⟩ | ⟨hfault, rfl⟩ := (finish_sat u).of_next he.symm
    · have hfin := hp.emits.trans (emits_finishedState hok)
      rw [hp.params, hp.block, hp.buf] at hfin
      exact .finished u hp rfl hfin
    · have hcommit := hp.emits.trans (emits_commit_spoiled (s := u) (by simp [hfault]))
      rw [hp.block, hp.buf] at hcommit
      exact .finishFault u hp ((hp.answerOf 0).symm.trans hfault) rfl (hcommit.silently rfl rfl)
  | data u hp _ hends hty he =>
    obtain ⟨w, ⟨as, hrun⟩, happ, rfl⟩ | ⟨⟨w, ⟨as, hrun⟩, hfault, rfl⟩, n, hn, hans⟩ :=
      ((dataFlow_sat _ _ u).and (dataFlow_early _ u (length_payload_lt s))).of_next he.symm |>.imp And.left id
    · exact .data u w as hp hends hty hrun happ rfl ((hp.emits.trans hrun.emits).silently rfl rfl)
    · have hcut := hp.emits.trans (hrun.emits_cut (by simp [hfault]))
      rw [hp.params] at hcut
      exact .dataFault u w as hp hrun hfault ⟨n, hn, (hp.answerOf n).symm.trans hans⟩ rfl (hcut.silently rfl rfl)
  | pastEnd _ _ he => cases he

/-! ### What the actions of a crossing and of the end of the session hold -/

theorem no_handoff_in_crossings {p : Params} {as : List Action} (h : Crossings p as) (x : Addr) : Action.handoff x ∉ as := by
  induction h with
  | none => simp
  | more _ ih => simp [crossingActions, ih]

theorem no_armTimeout_in_crossings {p : Params} {as : List Action} (h : Crossings p as) : Action.armTimeout ∉ as := by
  induction h with
  | none => simp
  | more _ ih => simp [crossingActions, ih]

/-- The action after each commit is the progress character (R118). -/
def Reported (p : Params) (as : List Action) : Prop :=
  ∀ (k : Nat) (b : Addr) (d : List Byte), as[k]? = some (.commit b d) → as[k + 1]? = some (.send p.progressChar)

theorem reported_of_no_commit {p : Params} {as : List Action} (h : ∀ b d, Action.commit b d ∉ as) : Reported p as :=
  fun _ b d hk => absurd (List.mem_of_getElem? hk) (h b d)

/-- A commit reported in its own part is reported in the whole. -/
theorem Reported.append {p : Params} {as bs : List Action} (ha : Reported p as) (hb : Reported p bs) :
    Reported p (as ++ bs) := by
  intro k b d hk
  by_cases hlt : k < as.length
  · rw [List.getElem?_append_left hlt] at hk
    have hnext := ha k b d hk
    obtain ⟨hlt', -⟩ := List.getElem?_eq_some_iff.mp hnext
    rw [List.getElem?_append_left hlt', hnext]
  · rw [List.getElem?_append_right (Nat.le_of_not_lt hlt)] at hk
    rw [List.getElem?_append_right (by omega), Nat.sub_add_comm (Nat.le_of_not_lt hlt)]
    exact hb _ b d hk

theorem reported_commit (p : Params) (b : Addr) (d : List Byte) : Reported p [.commit b d, .send p.progressChar] := by
  rintro (_ | _ | k) b' d' hk
  · rfl
  · simp at hk
  · simp at hk

theorem reported_crossings {p : Params} {as : List Action} (h : Crossings p as) : Reported p as := by
  induction h with
  | none => exact reported_of_no_commit (by simp)
  | @more _ b new d _ ih =>
    have hxoff : Reported p [.send p.xoffByte] := reported_of_no_commit (by simp)
    have hxon : Reported p [.load new, .send p.xonByte] := reported_of_no_commit (by simp)
    exact ih.append ((hxoff.append (reported_commit p b d)).append hxon)

theorem reported_finishActions (p : Params) (b : Addr) (d : List Byte) : Reported p (finishActions p b d) :=
  ((reported_commit p b d).append (reported_of_no_commit (by simp))).append (reported_of_no_commit (by simp))

theorem reported_armed (p : Params) (s : State) (e : Event) : Reported p (armed s e) :=
  reported_of_no_commit (no_commit_in_armed s e)

/-! ### The steps that are no event -/

/-- The actions of a run of session entries. -/
def entriesActions (p : Params) (again : List Nat) : List Action :=
  (again.map fun k => (entryActions p).take k).flatten ++ entryActions p

theorem newActions_sessionEntries (again : List Nat) (s : State) :
    newActions s (sessionEntries again s) = entriesActions s.params again := by
  rw [sessionEntries_literal]
  simp [newActions, entriesActions]

theorem newActions_cutStep (o : Host.Outcome State Fault Refusal) (count : Nat) (inCommit : Bool) (again : List Nat)
    (s : State) :
    newActions s (cutStep o count inCommit again s) =
      cutActions count (actionsOf s o) ++ entriesActions s.params again := by
  obtain ⟨hp, -, -, htrace, -⟩ := replayCut_keeps inCommit (cutActions count (actionsOf s o)) s
  rw [cutStep, sessionEntries_literal]
  simp [newActions, htrace, hp, entriesActions]

theorem no_handoff_in_entries (p : Params) (again : List Nat) (x : Addr) : Action.handoff x ∉ entriesActions p again := by
  have hentry : Action.handoff x ∉ entryActions p := by simp [entryActions]
  simp only [entriesActions, List.mem_append, List.mem_flatten, List.mem_map, not_or, hentry, not_false_eq_true, and_true]
  rintro ⟨_, ⟨k, -, rfl⟩, hm⟩
  exact hentry (List.mem_of_mem_take hm)

theorem no_handoff_in_cutActions (count : Nat) (as : List Action) (x : Addr) : Action.handoff x ∉ cutActions count as := by
  intro hm
  simpa [isHandoff] using List.mem_takeWhile_imp hm

/-- How a step of a polling state ends: on an event, or without a hand-off where it polls. -/
inductive PollingStepEnd (s t : State) : Prop
  | event (e : Event) (rest : List Input) (inbox : s.inbox = .event e :: rest)
      (ends : EventEnd { s with inbox := rest } e t)
  | poll (fsm : polls t.fsm = true) (handoff : ∀ x, Action.handoff x ∉ newActions s t)
      (sender : s.senderPaused = false → t.senderPaused = false)

theorem pollingStepEnd {s t : State} (hpoll : polls s.fsm = true) (h : step s = .next t) : PollingStepEnd s t := by
  cases stepCase s with
  | idle e =>
    cases e.symm.trans h
    exact .poll hpoll (by simp [newActions]) id
  | reset again rest e =>
    cases e.symm.trans h
    refine .poll (by rw [sessionEntries_literal]; rfl) ?_ (fun _ => by rw [sessionEntries_literal])
    exact newActions_sessionEntries again { s with inbox := rest } ▸ no_handoff_in_entries _ _
  | event e rest _ hin hstep => exact .event e rest hin (h ▸ hstep).eventEnd
  | cut e count inCommit again rest he =>
    cases he.symm.trans h
    refine .poll (by rw [cutStep, sessionEntries_literal]; rfl) (fun x => ?_)
      (fun _ => by rw [cutStep, sessionEntries_literal])
    have hacts := newActions_cutStep (exec (selectInstr s e) { s with inbox := rest }) count inCommit again
      { s with inbox := rest }
    intro hm
    obtain hm | hm := List.mem_append.mp (hacts ▸ hm)
    · exact no_handoff_in_cutActions _ _ _ hm
    · exact no_handoff_in_entries _ _ _ hm

theorem polls_ne_terminal {s : State} {f : Fsm} (hpoll : polls s.fsm = true) (hf : polls f = false) : s.fsm ≠ f := by
  rintro rfl
  cases hpoll.symm.trans hf

end Sys2Proof.Machine
end

section
/-! The statements about whole steps (R118, R137, R146 to R149, R165, R177, R207, R212), from how a step on an event ends. -/

namespace Sys2Proof.Machine

/-- The end of the session hands over (R146, R179). -/
theorem handoff_mem_finishActions (p : Params) (b : Addr) (d : List Byte) :
    Action.handoff p.entryPoint ∈ finishActions p b d := by
  simp [finishActions]

/-- Settles O45: of the ends of a step only the finished one hands over, and its actions close with those of `finish()`. -/
theorem handoffExactlyOnFinishing : Obligations.HandoffExactlyOnFinishing := by
  intro s t hpoll h
  suffices hend : (t.fsm ≠ .finished ∧ ∀ x, Action.handoff x ∉ newActions s t) ∨
      (t.fsm = .finished ∧ t.txQueue = [] ∧ ∃ acts, (∀ x, Action.handoff x ∉ acts) ∧
        newActions s t = acts ++ finishActions s.params s.currentBlock s.buf) by
    obtain ⟨hfsm, hnone⟩ | ⟨hfsm, htx, acts, hacts, hnew⟩ := hend
    · exact ⟨⟨fun ⟨x, hx⟩ => absurd hx (hnone x), fun hf => absurd hf hfsm⟩, fun hf => absurd hf hfsm⟩
    · refine ⟨⟨fun _ => hfsm, fun _ => ⟨s.params.entryPoint, ?_⟩⟩, fun _ => ⟨acts, ?_, hacts, htx⟩⟩
      · exact hnew ▸ List.mem_append_right _ (handoff_mem_finishActions ..)
      · simpa [finishActions] using hnew
  cases pollingStepEnd hpoll h with
  | poll hfsm hnone _ => exact .inl ⟨polls_ne_terminal hfsm rfl, hnone⟩
  | event e rest hin hend =>
    have harmed := no_handoff_in_armed { s with inbox := rest } e
    have hwithout : ∀ {as}, Emits { s with inbox := rest } as t → (∀ x, Action.handoff x ∉ as) →
        ∀ x, Action.handoff x ∉ newActions s t := fun hem hno x => hem.newActions ▸ hno x
    cases hend with
    | line hfsm _ hem => exact .inl ⟨polls_ne_terminal hfsm rfl, hwithout hem harmed⟩
    | badSum u _ _ _ ht hem => subst ht; exact .inl ⟨nofun, hwithout hem (by simp [harmed])⟩
    | finished u _ ht hem =>
      refine .inr ⟨?_, ?_, _, harmed, hem.newActions⟩
      · rw [ht, finishedState_eq]
      · rw [ht, finishedState_eq]
    | finishFault u _ _ ht hem => subst ht; exact .inl ⟨nofun, hwithout hem (by simp [harmed])⟩
    | data u w as _ _ _ hrun _ ht hem =>
      subst ht
      exact .inl ⟨nofun, hwithout hem (by simp [harmed, no_handoff_in_crossings hrun.crossings])⟩
    | dataFault u w as _ hrun _ _ ht hem =>
      subst ht
      refine .inl ⟨nofun, hwithout hem ?_⟩
      simp [harmed, no_handoff_in_crossings hrun.crossings, cutCrossingActions]

/-- Settles O46: a step that finishes stored the buffer where the stream left it. -/
theorem finishedLeavesTheStreamInMemory : Obligations.FinishedLeavesTheStreamInMemory := by
  intro s t hpoll hinv h hfin
  cases pollingStepEnd hpoll h with
  | poll hfsm _ _ => exact absurd hfin (polls_ne_terminal hfsm rfl)
  | event e rest _ hend =>
    cases hend with
    | line hfsm _ _ => exact absurd hfin (polls_ne_terminal hfsm rfl)
    | badSum u _ _ _ ht _ => subst ht; cases hfin
    | finishFault u _ _ ht _ => subst ht; cases hfin
    | data u w as _ _ _ _ _ ht _ => subst ht; cases hfin
    | dataFault u w as _ _ _ _ ht _ => subst ht; cases hfin
    | finished u hp ht _ =>
      obtain ⟨halign, hsize, hwf⟩ := hp.core hinv.core
      rw [ht, finishedState_eq]
      exact ⟨fun a => (store_read halign hsize hwf a).trans (hp.logicalByte a), mem_insertBlock.mpr (.inl rfl)⟩

theorem armed_of_completes {s : State} {e : Event} (h : CompletesRecord s e) : armed s e = [.armTimeout] := by
  obtain ⟨c, v, rfl, hn⟩ := h.hex
  exact if_pos (isHexCode_of_valid hn)

/-- Settles O47: of the ends of a step only a bad sum is `Aborted`. -/
theorem abortedOnlyByABadSum : Obligations.AbortedOnlyByABadSum := by
  intro s t hpoll h hab
  cases pollingStepEnd hpoll h with
  | poll hfsm _ _ => exact absurd hab (polls_ne_terminal hfsm rfl)
  | event e rest hin hend =>
    cases hend with
    | line hfsm _ _ => exact absurd hab (polls_ne_terminal hfsm rfl)
    | finished u _ ht _ => rw [ht, finishedState_eq] at hab; cases hab
    | finishFault u _ _ ht _ => subst ht; cases hab
    | data u w as _ _ _ _ _ ht _ => subst ht; cases hab
    | dataFault u w as _ _ _ _ ht _ => subst ht; cases hab
    | badSum u hp hcomp hsum ht hem =>
      obtain ⟨c, v, rfl, hn⟩ := hcomp.hex
      have hnew : newActions s t = [.armTimeout, .send s.params.checksumErrChar] := by
        rw [show newActions s t = _ from hem.newActions, armed_of_completes hcomp]
        rfl
      subst ht
      exact ⟨⟨_, mem_hexRows v, c, rest, hin, decodeChar_valid hn⟩, hcomp.phase, hcomp.offset, hsum, hnew, hp.nv, hp.buf,
        hp.block⟩

/-- The answers a payload's crossings took are those of the step. -/
theorem okFor_of_prepared {s u : State} {e : Event} {n : Nat} (hp : Prepared s (armed s e) u) (h : OkFor n u) :
    OkFor n s := fun k hk => (hp.answerOf k).symm.trans (h k hk)

/-- Settles O48: a step ends in `WriteFaulted` in the commit of the final flush or of a crossing, and only a crossing's leaves the
sender paused. -/
theorem writeFaultedOnlyByAnAnswer : Obligations.WriteFaultedOnlyByAnAnswer := by
  intro s t hpoll hinv h
  have hrunning := hinv.sender hpoll
  cases pollingStepEnd hpoll h with
  | poll hfsm _ hsend =>
    exact ⟨fun hf => absurd hf (polls_ne_terminal hfsm rfl), fun hp => by rw [hsend hrunning] at hp; cases hp⟩
  | event e rest _ hend =>
    have hunpaused : t.senderPaused = false → t.senderPaused = true → t.fsm = .writeFaulted := fun h0 h1 => by
      cases h0.symm.trans h1
    cases hend with
    | line hfsm hsend _ =>
      exact ⟨fun hf => absurd hf (polls_ne_terminal hfsm rfl), hunpaused (hsend.trans hrunning)⟩
    | badSum u hp _ _ ht _ => subst ht; exact ⟨nofun, hunpaused (hp.sender.trans hrunning)⟩
    | finished u hp ht _ =>
      rw [ht, finishedState_eq]
      exact ⟨nofun, fun h1 => by cases h1.symm.trans (hp.sender.trans hrunning)⟩
    | finishFault u hp hans ht hem =>
      have hnew : newActions s t = armed { s with inbox := rest } e ++ [.commit s.currentBlock s.buf] := hem.newActions
      refine ⟨fun _ => ⟨armed { s with inbox := rest } e, ?_, ?_, ?_⟩, fun _ => by rw [ht]; rfl⟩
      · have hblock : t.currentBlock = s.currentBlock := by rw [ht]; exact hp.block
        have hbuf : t.buf = s.buf := by rw [ht]; exact hp.buf
        rw [hnew, hblock, hbuf]
      · rw [commitCount_armed]
        exact fun k hk => absurd hk (Nat.not_lt_zero k)
      · rw [commitCount_armed]
        exact hans
    | data u w as hp _ _ hrun _ ht _ =>
      subst ht
      exact ⟨nofun, hunpaused (hrun.sender (hp.sender.trans hrunning))⟩
    | dataFault u w as hp hrun hans _ ht hem =>
      have hnew : newActions s t = armed { s with inbox := rest } e ++
          (as ++ cutCrossingActions s.params w.currentBlock w.buf) := hem.newActions
      have hcount : commitCount (armed { s with inbox := rest } e ++ (as ++ [.send s.params.xoffByte])) = commitCount as := by
        simp [commitCount_append, commitCount_armed, commitCount]
      refine ⟨fun _ => ⟨armed { s with inbox := rest } e ++ (as ++ [.send s.params.xoffByte]), ?_, ?_, ?_⟩,
        fun _ => by rw [ht]; rfl⟩
      · rw [hnew, ht]
        simp [cutCrossingActions, cutInCrossing]
      · rw [hcount]
        exact okFor_of_prepared (s := { s with inbox := rest }) hp hrun.answered
      · rw [hcount]
        exact ((hp.answerOf _).symm.trans hrun.emits.nextAnswer.symm).trans hans

/-- Settles O49: the timer is armed for the event, and nothing a step does after that arms it. -/
theorem timeoutIsArmedOnHexCharacters : Obligations.TimeoutIsArmedOnHexCharacters := by
  intro s t e rest hpoll _ hin h
  suffices hcount : (newActions s t).count .armTimeout = (armed { s with inbox := rest } e).count .armTimeout by
    rw [hcount]
    cases e with
    | byteReceived c => simp only [armed]; split <;> rfl
    | timedOut => simp only [armed]; split <;> rfl
  suffices hend : ∃ as, Emits { s with inbox := rest } (armed { s with inbox := rest } e ++ as) t ∧
      Action.armTimeout ∉ as by
    obtain ⟨as, hem, hno⟩ := hend
    rw [show newActions s t = _ from hem.newActions, List.count_append, List.count_eq_zero_of_not_mem hno, Nat.add_zero]
  cases (h ▸ stepCase_of_event hpoll hin).eventEnd with
  | line _ _ hem => exact ⟨[], by rwa [List.append_nil], by simp⟩
  | badSum u _ _ _ _ hem => exact ⟨_, hem, by simp⟩
  | finished u _ _ hem => exact ⟨_, hem, by simp [finishActions]⟩
  | finishFault u _ _ _ hem => exact ⟨_, hem, by simp⟩
  | data u w as _ _ _ hrun _ _ hem => exact ⟨_, hem, no_armTimeout_in_crossings hrun.crossings⟩
  | dataFault u w as _ hrun _ _ _ hem =>
    exact ⟨_, hem, by simp [no_armTimeout_in_crossings hrun.crossings, cutCrossingActions]⟩

/-- With every commit answered Ok each is reported. -/
theorem EventEnd.reported {s t : State} {e : Event} (hok : OkFor 256 s) (h : EventEnd s e t) :
    Reported s.params (newActions s t) := by
  have harmed := reported_armed s.params s e
  cases h with
  | line _ _ hem => exact hem.newActions ▸ harmed
  | badSum u _ _ _ _ hem => exact hem.newActions ▸ harmed.append (reported_of_no_commit (by simp))
  | finished u _ _ hem => exact hem.newActions ▸ harmed.append (reported_finishActions s.params s.currentBlock s.buf)
  | finishFault u _ hans _ _ => cases (hok.next (by decide)).symm.trans hans
  | data u w as hp _ _ hrun _ _ hem =>
    exact hem.newActions ▸ harmed.append (reported_crossings (hp.params ▸ hrun.crossings))
  | dataFault u w as _ _ _ hearly _ _ =>
    obtain ⟨n, hn, hans⟩ := hearly
    cases (hok n hn).symm.trans hans

/-- Settles O50: the ends of a step whose commits are answered Ok report each of them. -/
theorem everyCommitIsReported : Obligations.EveryCommitIsReported := by
  intro s t e rest hpoll _ hok hin h
  exact EventEnd.reported (s := { s with inbox := rest }) hok (h ▸ stepCase_of_event hpoll hin).eventEnd

/-- A step that is stuck is stuck in a commit that one of the next 256 answers left hanging (R115). -/
theorem EventStep.stuck {s : State} {e : Event} {r : Fault} (hpoll : polls s.fsm = true) (hinv : Inv s)
    (h : EventStep s e (.fault r)) :
    (∃ n, n < 256 ∧ answerOf s n = .never) ∧
    ∃ u, r = .stuck u ∧ polls u.fsm = true ∧
      ∃ acts, u.trace = s.trace ++ acts ++ [.commit u.currentBlock u.buf] ∧ ∀ x, Action.handoff x ∉ acts := by
  have harmed := no_handoff_in_armed s e
  cases h with
  | line u _ _ _ he => cases he
  | badSum u _ _ _ he => cases he
  | pastEnd _ hpast _ => exact absurd hpast (not_pastEnd hinv hpoll)
  | finishes u hp hpu he =>
    obtain ⟨w, rfl, hnever, rfl⟩ := (finish_sat u).of_fault he.symm
    refine ⟨⟨0, by decide, (hp.answerOf 0).symm.trans hnever⟩, _, rfl, hpu, armed s e, ?_, harmed⟩
    show u.trace ++ [.commit u.currentBlock u.buf] = _
    rw [hp.emits.trace]
    rfl
  | data u hp hpu _ _ he =>
    obtain ⟨w, rfl, ⟨v, ⟨as, hrun⟩, hnever, rfl⟩, n, hn, hans⟩ :=
      ((dataFlow_sat _ _ u).and (dataFlow_early _ u (length_payload_lt s))).of_fault he.symm
    have hfsm : v.fsm = u.fsm := by rw [hrun.frame]
    refine ⟨⟨n, hn, (hp.answerOf n).symm.trans hans⟩, _, rfl, by simpa [cutInCrossing, hfsm] using hpu,
      armed s e ++ (as ++ [.send u.params.xoffByte]), ?_, ?_⟩
    · rw [(hrun.emits_cut (by simp [hnever])).trace, hp.emits.trace]
      simp [cutCrossingActions, cutInCrossing]
    · simp [harmed, no_handoff_in_crossings hrun.crossings]

/-- The row of an event answers a next state unless one of the next 256 commits hangs. -/
theorem EventStep.next {s : State} {e : Event} {o : Host.Outcome State Fault Refusal} (hpoll : polls s.fsm = true)
    (hinv : Inv s) (hans : ∀ k, k < 256 → answerOf s k ≠ .never) (h : EventStep s e o) (hnot : ∀ r, o ≠ .refused r) :
    ∃ t, o = .next t := by
  cases o with
  | next t => exact ⟨t, rfl⟩
  | fault r =>
    obtain ⟨⟨n, hn, hnever⟩, -⟩ := h.stuck hpoll hinv
    exact absurd hnever (hans n hn)
  | refused r => exact absurd rfl (hnot r)

theorem EventStep.ne_refused {s : State} {e : Event} {o : Host.Outcome State Fault Refusal} (h : EventStep s e o)
    (r : Refusal) : o ≠ .refused r := by
  cases h with
  | line u _ _ _ he => rw [he]; nofun
  | badSum u _ _ _ he => rw [he]; nofun
  | finishes u _ _ he => exact he ▸ Flow.toOutcome_ne_refused _ r
  | data u _ _ _ _ he => exact he ▸ Flow.toOutcome_ne_refused _ r
  | pastEnd _ _ he => rw [he]; nofun

/-- Settles O44: only the row of an event can fail to answer, and only in a commit that hangs. -/
theorem stepCompletesUnlessACommitHangs : Obligations.StepCompletesUnlessACommitHangs := by
  intro s hinv
  have hnext : ∀ {t}, step s = .next t → ((∀ k, k < 256 → answerOf s k ≠ .never) → ∃ t, step s = .next t) ∧
      (∀ r, step s ≠ .refused r) ∧
      (∀ r, step s = .fault r → ∃ u, r = .stuck u ∧ polls u.fsm = true ∧
        ∃ acts, u.trace = s.trace ++ acts ++ [.commit u.currentBlock u.buf] ∧ ∀ e, Action.handoff e ∉ acts) := by
    intro t ht
    rw [ht]
    exact ⟨fun _ => ⟨t, rfl⟩, nofun, nofun⟩
  cases stepCase s with
  | idle e => exact hnext e
  | reset again rest e => exact hnext e
  | cut e count inCommit again rest he => exact hnext he
  | event e rest hpoll _ hstep =>
    have hinv' : Inv { s with inbox := rest } := hinv
    refine ⟨fun hans => EventStep.next (s := { s with inbox := rest }) hpoll hinv' hans hstep hstep.ne_refused,
      hstep.ne_refused, fun r hr => ?_⟩
    exact (EventStep.stuck (s := { s with inbox := rest }) hpoll hinv' (hr ▸ hstep)).2

/-! ### The silent sender and the last character of a record -/

theorem core_run_succ {M : Host.Core} {s t : M.State} (k : Nat) (h : M.step s = .next t) :
    M.run (k + 1) s = M.run k t := by
  rw [Host.Core.run, h]

theorem run_succ {s t : State} (k : Nat) (h : step s = .next t) :
    Host.Core.run Sys2Proof.core (k + 1) s = Host.Core.run Sys2Proof.core k t :=
  core_run_succ (M := Sys2Proof.core) k h

/-- At a line start a timeout finishes the session, with the commit answered Ok (R144). -/
theorem step_finishes {s : State} {rest : List Input} (hfsm : s.fsm = .awaitingLine) (hc : Core s)
    (hok : nextAnswer s = .ok) (hin : s.inbox = .event .timedOut :: rest) :
    ∃ t, step s = .next t ∧ t.fsm = .finished ∧ ∀ a : Addr, t.nv.read a.toNat = logicalByte s a := by
  obtain ⟨halign, hsize, hwf⟩ := hc
  refine ⟨finishedState { s with inbox := rest, timerArmed := false }, ?_, ?_, fun a => ?_⟩
  · rw [step_timeoutIdle hfsm hin, finish_ok (s := { s with inbox := rest, timerArmed := false }) hok]
    rfl
  · rw [finishedState_eq]
  · rw [finishedState_eq]
    exact store_read halign hsize hwf a

/-- Settles O52: a timeout in mid-record restarts the line and leaves the buffer, its block and memory as they were; the next
finishes. -/
theorem silenceFinishesTheSession : Obligations.SilenceFinishesTheSession := by
  intro s rest hpoll hinv hok hin
  obtain hfsm | hfsm := polls_cases hpoll
  · obtain ⟨t, hstep, hfin, hnv⟩ := step_finishes hfsm hinv.core hok hin
    exact ⟨1, t, le_rfl, by decide, run_succ 0 hstep, hfin, hnv⟩
  · have hrestart := step_timeoutMidrec hfsm hin
    obtain ⟨t, hstep, hfin, hnv⟩ := step_finishes (rest := rest)
      (s := raiseTimeoutMidRecord { s with inbox := .event .timedOut :: rest, timerArmed := false }) rfl hinv.core hok rfl
    exact ⟨2, t, by decide, le_rfl, (run_succ 1 hrestart).trans (run_succ 0 hstep), hfin, hnv⟩

/-- A record with a bad sum runs alike whatever its terminator operand. -/
theorem exec_recBadsum_terminator (hi lo ty ck ck' : Byte) (data : List Byte) (s : State) :
    exec (.recBadsum hi lo ty data ck) s = exec (.recBadsum hi lo ty data ck') s := rfl

/-- Settles O16: the byte is fed as the terminator, and the registers hold the row their sum and type choose. -/
theorem lastNibbleDispatchesTheRecord : Obligations.LastNibbleDispatchesTheRecord := by
  intro r hr s hpoll hphase hoff b data u
  have hrun : exec r.1 s = exec (completedRecord u) u := by
    rw [exec_hexRow hr, hexChar_low_complete r.2 hpoll hphase (position_eq_terminator.mpr hoff), completeRecord_eq]
    rfl
  have hgood : u.sum = 0 → completedRecord u =
      if s.recType = 0x01 then .recEos s.recAddrHi s.recAddrLo data
      else if s.recType = 0x00 then .recData s.recAddrHi s.recAddrLo data
      else .recNop s.recAddrHi s.recAddrLo s.recType data := fun hsum => by
    rw [completedRecord, if_pos (by simpa [checksumOk] using hsum)]
    rfl
  refine ⟨fun hsum => ?bad, fun hsum h1 => ?eos, fun hsum h0 => ?data, fun hsum h1 h0 => ?nop⟩
  case bad =>
    rw [hrun, completedRecord, if_neg (by simpa [checksumOk] using hsum)]
    exact exec_recBadsum_terminator ..
  case eos => rw [hrun, hgood hsum, if_pos h1]
  case data => rw [hrun, hgood hsum, if_neg (by rw [h0]; decide), if_pos h0]
  case nop => rw [hrun, hgood hsum, if_neg h1, if_neg h0]

end Sys2Proof.Machine
end

section
/-! A reset in the middle of a step (R190 to R193; log 4): where a step is cut, what the cut leaves in memory, and what a completed
commit keeps. -/

namespace Sys2Proof.Machine

/-! ### What a cut does -/

/-- A commit that has not answered leaves its block free (R193). -/
theorem replayCut_in_commit (as : List Action) (b : Addr) (d : List Byte) (s : State) :
    replayCut true (as ++ [.commit b d]) s =
      spoilBlock (issueCommit { replay as s with currentBlock := b, buf := d }) := by
  simp [replayCut]

/-- Where the reset comes after the last action's answer, the actions before it are replayed. -/
theorem replayCut_answered (as : List Action) (s : State) : replayCut false as s = replay as s := by
  unfold replayCut
  split <;> rfl

/-- A cut is a replay, unless it is inside the commit that is the last action. -/
theorem replayCut_cases (inCommit : Bool) (as : List Action) (s : State) :
    replayCut inCommit as s = replay as s ∨
    ∃ init b d, as = init ++ [.commit b d] ∧ inCommit = true := by
  cases inCommit with
  | false => exact .inl (replayCut_answered as s)
  | true =>
    cases as using List.reverseRecOn with
    | nil => exact .inl rfl
    | append_singleton init a =>
      cases a with
      | commit b d => exact .inr ⟨init, b, d, rfl, rfl⟩
      | send _ | armTimeout | load _ | drain | handoff _ => exact .inl (by simp [replayCut])

/-- The actions before the cut's last ones are replayed as they are. -/
theorem replayCut_append {inCommit : Bool} {bs : List Action} (h : inCommit = false ∨ bs ≠ []) (as : List Action)
    (s : State) : replayCut inCommit (as ++ bs) s = replayCut inCommit bs (replay as s) := by
  cases inCommit with
  | false => rw [replayCut_answered, replayCut_answered, replay_append]
  | true =>
    cases bs using List.reverseRecOn with
    | nil => exact absurd rfl (h.resolve_left nofun)
    | append_singleton init a =>
      rw [← List.append_assoc]
      cases a with
      | commit b d => rw [replayCut_in_commit, replayCut_in_commit, replay_append]
      | send _ | armTimeout | load _ | drain | handoff _ => simp [replayCut, replay_append]

/-- A cut changes memory only in blocks that were committed before it (R192, R193). -/
theorem replayCut_nv_outside {s : State} (hwf : Memory.wf s.nv) (inCommit : Bool) {as : List Action}
    (hfit : CommitsFit s.params as) {x : Addr} (hx : ∀ b d, Action.commit b d ∈ as → blockBase s.params x ≠ b) :
    (replayCut inCommit as s).nv.read x.toNat = s.nv.read x.toNat := by
  obtain h | ⟨init, b, d, rfl, rfl⟩ := replayCut_cases inCommit as s
  · rw [h]
    exact replay_nv_outside hwf hfit hx
  · obtain ⟨hp, -, -, -, hwf'⟩ := replay_keeps init s
    obtain ⟨halign, -⟩ := hfit b d (by simp)
    rw [replayCut_in_commit]
    show (Memory.writeBytes (replay init s).nv b (freeBytes _ (blockSize (replay init s).params))).read x.toNat = _
    rw [read_block_write (p := s.params) (hwf' hwf) halign (by rw [length_freeBytes, hp]), if_neg (hx b d (by simp))]
    exact replay_nv_outside hwf (hfit.of_subset (by simp)) fun b' d' hm => hx b' d' (by simp [hm])

/-! ### Where a step is cut -/

theorem cutActions_subset (count : Nat) (as : List Action) : cutActions count as ⊆ as := fun _ hm =>
  List.mem_of_mem_take ((List.takeWhile_sublist _).subset hm)

/-- Whatever instruction a step runs, its commits fit their blocks, in a hang too. -/
theorem commitsFit_actionsOf (i : Instr) {s : State} (hc : Core s) : CommitsFit s.params (actionsOf s (exec i s)) := by
  have hleft : ∀ t, Leaves (exec i s) t → CommitsFit s.params (newActions s t) := fun t ht => by
    obtain ⟨as, hem, hkeeps⟩ := exec_runs i s t ht
    exact hem.newActions ▸ (hkeeps hc).2
  cases ho : exec i s with
  | next t => exact hleft t (.inl ho)
  | refused r => exact commitsFit_of_no_commit (by simp [actionsOf])
  | fault r =>
    cases r with
    | stuck u => exact hleft u (.inr ho)
    | feedPastRecordEnd => exact commitsFit_of_no_commit (by simp [actionsOf])

/-- The step on the event that a reset names, and the step that it cuts. -/
theorem step_cut_event {s : State} {e : Event} {count : Nat} {inCommit : Bool} {again : List Nat} {rest : List Input}
    (hpoll : polls s.fsm = true) (hin : s.inbox = .resetDuring e count inCommit again :: rest) :
    step s = .next (cutStep (step { s with inbox := .event e :: rest }) count inCommit again { s with inbox := rest }) := by
  rw [step_cut hpoll hin, step_event (s := { s with inbox := .event e :: rest }) hpoll rfl]
  rfl

theorem commitsFit_cutActions {s : State} {e : Event} {rest : List Input} (count : Nat) (hpoll : polls s.fsm = true)
    (hc : Core s) : CommitsFit s.params (cutActions count (actionsOf s (step { s with inbox := .event e :: rest }))) := by
  rw [step_event (s := { s with inbox := .event e :: rest }) hpoll rfl]
  exact (commitsFit_actionsOf _ (s := { s with inbox := rest }) hc).of_subset (cutActions_subset count _)

/-- The state that session entries leave after the actions of a cut step. -/
theorem sessionEntries_after_cut {s v : State} {acts : List Action} (again : List Nat) (hp : v.params = s.params)
    (htrace : v.trace = s.trace ++ acts) :
    let u := sessionEntries again v
    newActions s u = acts ++ (again.map fun k => (entryActions s.params).take k).flatten ++ entryActions s.params ∧
      u.fsm = .awaitingLine ∧ u.currentBlock = 0x0000#16 ∧ u.buf = Memory.readBytes u.nv 0x0000#16 (blockSize u.params) ∧
      AtLineStart u ∧ u.timerArmed = true ∧ u.senderPaused = false ∧ u.inbox = v.inbox ∧ u.params = s.params ∧
      u.executable = [] ∧ u.txQueue = s.params.bannerStart ++ [s.params.xonByte] ∧ u.nv = v.nv := by
  rw [sessionEntries_literal]
  refine ⟨?actions, rfl, rfl, rfl, ⟨rfl, rfl, rfl, rfl, rfl, rfl, rfl, rfl, rfl⟩, rfl, rfl, rfl, hp, rfl, ?queue, rfl⟩
  case actions => simp [newActions, htrace, hp]
  case queue => simp [hp]

/-- Settles O10: the cut step is the replayed actions and then session entries, which write the rest of the state. -/
theorem resetInsideAStep : Obligations.ResetInsideAStep := by
  refine ⟨fun s e count inCommit again rest hpoll hinv hin => ?inside, fun s es x again rest hx hes hin => ?between⟩
  case inside =>
    intro acts
    obtain ⟨-, -, hwf⟩ := hinv.core
    obtain ⟨hp, -, hinb, htrace, -⟩ := replayCut_keeps inCommit acts { s with inbox := rest }
    obtain ⟨hnew, hfsm, hblock, hbuf, hline, htimer, hsend, hinb', hp', hexec, htx, hnv⟩ :=
      sessionEntries_after_cut (s := s) again hp htrace
    refine ⟨no_handoff_in_cutActions _ _, _, step_cut_event hpoll hin, hnew, hfsm, hblock, hbuf, hline, htimer, hsend,
      hinb'.trans hinb, hp', hexec, htx, fun a ha => ?_⟩
    by_contra hnone
    have hfit : CommitsFit s.params acts := commitsFit_cutActions count hpoll hinv.core
    have hkept := replayCut_nv_outside (s := { s with inbox := rest }) hwf inCommit hfit (x := a) fun b d hm hb =>
      hnone ⟨b, d, hm, hb⟩
    exact ha ((congrArg (fun m => Memory.read m a.toNat) hnv).trans hkept)
  case between =>
    rw [step_sessionEntries hx hes hin, sessionEntries_literal]
    rfl

/-! ### A completed commit -/

/-- Memories that agree on a block's addresses agree on the block. -/
theorem Memory.block_congr {p : Params} {m n : Memory} {b : Addr} (hb : b &&& blockMask p = 0)
    (h : ∀ x : Addr, blockBase p x = b → m.read x.toNat = n.read x.toNat) : Memory.block p m b = Memory.block p n b := by
  refine List.ext_getElem (by simp) fun k h1 h2 => ?_
  have hk : k < blockSize p := Memory.length_block p m b ▸ h1
  calc (Memory.block p m b)[k]
      = m.read (b + BitVec.ofNat 16 k).toNat := Memory.getElem_readBytes _ _ _ _ h1
    _ = n.read (b + BitVec.ofNat 16 k).toNat := h _ (block_inside hb hk).1
    _ = (Memory.block p n b)[k] := (Memory.getElem_readBytes _ _ _ _ h2).symm

/-- A commit answered Ok stores its data, and actions after it that commit other blocks leave it there, cut or not. -/
theorem block_of_replayCut {s : State} (hwf : Memory.wf s.nv) {inCommit : Bool} {before after : List Action} {b : Addr}
    {d : List Byte} (hfit : CommitsFit s.params (before ++ .commit b d :: after))
    (hok : answerOf s (commitCount before) = .ok) (hafter : ∀ d', Action.commit b d' ∉ after)
    (hcut : inCommit = false ∨ after ≠ []) :
    Memory.block s.params (replayCut inCommit (before ++ .commit b d :: after) s).nv b = d := by
  obtain ⟨halign, hlen⟩ := hfit b d (by simp)
  obtain ⟨hp, -, -, -, hwf'⟩ := replay_keeps (before ++ [.commit b d]) s
  have hstored : (replay (before ++ [.commit b d]) s).nv = Memory.writeBytes (replay before s).nv b d := by
    obtain ⟨hans, htaken⟩ := replay_answers before s
    have hnext : nextAnswer (replay before s) = .ok := (answerOf_shift hans htaken 0).trans hok
    rw [replay_append]
    show (replayAction (replay before s) (.commit b d)).nv = _
    simp only [replayAction, hnext]
    rfl
  rw [List.append_cons, replayCut_append hcut]
  calc Memory.block s.params (replayCut inCommit after (replay (before ++ [.commit b d]) s)).nv b
      = Memory.block s.params (replay (before ++ [.commit b d]) s).nv b := by
        refine Memory.block_congr halign fun x hx => replayCut_nv_outside (hwf' hwf) inCommit ?_ fun b' d' hm => ?_
        · rw [hp]
          exact hfit.of_subset (by simp)
        · rw [hp, hx]
          rintro rfl
          exact hafter d' hm
    _ = d := by
        obtain ⟨-, -, -, -, hwfb⟩ := replay_keeps before s
        rw [hstored]
        exact Memory.block_writeBytes (hwfb hwf) s.params b d hlen

/-- Of a step's actions only the last can be a hand-off. -/
theorem EventEnd.no_handoff_before {s t : State} {e : Event} (h : EventEnd s e t) (x : Addr) :
    Action.handoff x ∉ (newActions s t).dropLast := by
  have harmed := no_handoff_in_armed s e x
  have hwithout : ∀ {as}, Emits s as t → Action.handoff x ∉ as → Action.handoff x ∉ (newActions s t).dropLast :=
    fun hem hno hm => hno (hem.newActions ▸ List.mem_of_mem_dropLast hm)
  cases h with
  | line _ _ hem => exact hwithout hem harmed
  | badSum u _ _ _ _ hem => exact hwithout hem (by simp [harmed])
  | finishFault u _ _ _ hem => exact hwithout hem (by simp [harmed])
  | data u w as _ _ _ hrun _ _ hem => exact hwithout hem (by simp [harmed, no_handoff_in_crossings hrun.crossings])
  | dataFault u w as _ hrun _ _ _ hem =>
    exact hwithout hem (by simp [harmed, no_handoff_in_crossings hrun.crossings, cutCrossingActions])
  | finished u _ _ hem =>
    rw [hem.newActions]
    have hsplit : armed s e ++ finishActions s.params s.currentBlock s.buf =
        (armed s e ++ ([.commit s.currentBlock s.buf, .send s.params.progressChar] ++
          s.params.bannerHandoff.map Action.send ++ [.drain])) ++ [.handoff s.params.entryPoint] := by
      simp [finishActions]
    rw [hsplit, List.dropLast_concat]
    simp [harmed]

/-- With every commit answered Ok, a step issues no more than 256. -/
theorem EventEnd.commitCount_le {s t : State} {e : Event} (hok : OkFor 256 s) (h : EventEnd s e t) :
    commitCount (newActions s t) ≤ 256 := by
  have harmed := commitCount_armed s e
  cases h with
  | line _ _ hem => rw [hem.newActions, harmed]; decide
  | badSum u _ _ _ _ hem => simp [hem.newActions, commitCount_append, harmed, commitCount]
  | finishFault u _ _ _ hem => simp [hem.newActions, commitCount_append, harmed, commitCount]
  | finished u _ _ hem =>
    simp [hem.newActions, commitCount_append, harmed, finishActions, commitCount, commitCount_sends]
  | data u w as _ _ _ hrun happ _ hem =>
    rw [hem.newActions, commitCount_append, harmed, Nat.zero_add]
    exact (hrun.commitCount_le happ).trans (Nat.le_of_lt (length_payload_lt s))
  | dataFault u w as _ _ _ hearly _ _ =>
    obtain ⟨n, hn, hans⟩ := hearly
    cases (hok n hn).symm.trans hans

/-- Where a step whose commits are reported is cut after a commit and perhaps more, the hand-off left out is none of the actions
up to the report. -/
theorem cutActions_of_take {p : Params} {all before after : List Action} {count : Nat} {b : Addr} {d : List Byte}
    (hrep : Reported p all) (hlast : ∀ x, Action.handoff x ∉ all.dropLast)
    (htake : all.take count = before ++ .commit b d :: after) :
    ∃ after', cutActions count all = before ++ .commit b d :: after' ∧ after' ⊆ after ∧ (after ≠ [] → after' ≠ []) := by
  obtain ⟨later, hall⟩ : ∃ later, all = before ++ .commit b d :: (after ++ later) := by
    refine ⟨all.drop count, ?_⟩
    conv_lhs => rw [← List.take_append_drop count all, htake]
    simp
  have hbefore : ∀ a ∈ before, (!isHandoff a) = true := fun a ha => by
    cases a with
    | handoff x =>
      refine absurd ?_ (hlast x)
      rw [hall, List.dropLast_append_of_ne_nil (List.cons_ne_nil _ _)]
      exact List.mem_append_left _ ha
    | send _ | armTimeout | commit _ _ | load _ | drain => rfl
  refine ⟨after.takeWhile fun a => !isHandoff a, ?_, (List.takeWhile_sublist _).subset, fun hne => ?_⟩
  · rw [cutActions, htake, List.takeWhile_append_of_pos hbefore]
    rfl
  · obtain ⟨a, as, rfl⟩ := List.exists_cons_of_ne_nil hne
    have hnext : all[before.length + 1]? = some (.send p.progressChar) := hrep before.length b d (by simp [hall])
    obtain rfl : a = .send p.progressChar := by simpa [hall] using hnext
    simp [isHandoff]

/-- A cut of the step on an event, every commit answered Ok: a block whose last commit before the cut has answered holds what
that commit stored. -/
theorem block_of_cutStep {s : State} {e : Event} {o : Host.Outcome State Fault Refusal} {count : Nat} {inCommit : Bool}
    {before after : List Action} {b : Addr} {d : List Byte} (again : List Nat) (hpoll : polls s.fsm = true) (hinv : Inv s)
    (hok : OkFor 256 s) (hstep : EventStep s e o) (hfit : CommitsFit s.params (cutActions count (actionsOf s o)))
    (htake : (actionsOf s o).take count = before ++ .commit b d :: after) (hafter : ∀ d', Action.commit b d' ∉ after)
    (hcut : inCommit = false ∨ after ≠ []) : Memory.block s.params (cutStep o count inCommit again s).nv b = d := by
  obtain ⟨t, rfl⟩ := hstep.next hpoll hinv (fun k hk hnever => by cases (hok k hk).symm.trans hnever) hstep.ne_refused
  have hend := hstep.eventEnd
  obtain ⟨after', hacts, hsub, hne⟩ := cutActions_of_take (hend.reported hok) hend.no_handoff_before htake
  have hbefore : commitCount before < 256 := by
    have hsplit := congrArg commitCount (List.take_append_drop count (newActions s t))
    rw [show (newActions s t).take count = _ from htake, commitCount_append, commitCount_append, commitCount] at hsplit
    have hle := hend.commitCount_le hok
    omega
  obtain ⟨-, -, hwf⟩ := hinv.core
  obtain ⟨-, -, hnv⟩ := sessionEntries_keeps again (replayCut inCommit (cutActions count (newActions s t)) s)
  rw [cutStep, show actionsOf s (.next t) = newActions s t from rfl, hnv,
    show cutActions count (newActions s t) = _ from hacts]
  exact block_of_replayCut hwf (hacts ▸ hfit) (hok _ hbefore) (fun d' hm => hafter d' (hsub hm)) (hcut.imp id hne)

/-- Settles O11: the step that is cut has a next state, so its commits are reported and its hand-off comes last; the block's last
commit before the cut was answered Ok, and nothing replayed after it touches the block. -/
theorem committedBlocksSurviveAReset : Obligations.CommittedBlocksSurviveAReset := by
  intro s u e count inCommit again rest before after b d hpoll hinv hok hin hstep htake hafter hcut
  cases (step_cut_event hpoll hin).symm.trans hstep
  obtain ⟨hp, -⟩ := cutStep_keeps (step { s with inbox := .event e :: rest }) count inCommit again { s with inbox := rest }
  rw [hp]
  exact block_of_cutStep (s := { s with inbox := rest }) again hpoll hinv hok
    (stepCase_of_event (s := { s with inbox := .event e :: rest }) hpoll rfl)
    (commitsFit_cutActions count hpoll hinv.core) htake hafter hcut

end Sys2Proof.Machine
end

section
/-! Data records (R110 to R112, R119, R141): inside the block, across one boundary, cut in a crossing, and as a whole; and what the
buffer mirrors meanwhile (R25). -/

namespace Sys2Proof.Machine

/-- A payload byte that is applied is written where its block is current, or after a crossing answered Ok. -/
theorem applyByte_go_cases {s t : State} {a : Addr} {v : Byte} (h : applyByte a v s = .go t) :
    (blockBase s.params a = s.currentBlock ∧ t = bufWrite a v s) ∨
    (blockBase s.params a ≠ s.currentBlock ∧ nextAnswer s = .ok ∧ t = bufWrite a v (crossed (blockBase s.params a) s)) := by
  by_cases hb : blockBase s.params a = s.currentBlock
  · rw [applyByte_inside v hb] at h
    cases h
    exact .inl ⟨hb, rfl⟩
  · cases hn : nextAnswer s with
    | ok =>
      rw [applyByte_crossed v hb hn] at h
      cases h
      exact .inr ⟨hb, rfl, rfl⟩
    | writeFault => rw [applyByte_outside v hb, crossing_writeFault _ hn] at h; cases h
    | never => rw [applyByte_outside v hb, crossing_never _ hn] at h; cases h

/-- A payload that goes on applied its first byte, and then the rest. -/
theorem applyPayload_cons_go {s t : State} {a : Addr} {b : Byte} {bs : List Byte} (h : applyPayload a (b :: bs) s = .go t) :
    ∃ u, applyByte a b s = .go u ∧ applyPayload (a + 1) bs u = .go t := by
  rw [applyPayload] at h
  cases hu : applyByte a b s with
  | go u => rw [hu] at h; exact ⟨u, rfl, h⟩
  | ends u => rw [hu] at h; cases h
  | stuck u => rw [hu] at h; cases h

/-! ### Inside the block -/

/-- A later payload address is another place of the same block. -/
theorem blockIndex_ne_of_later {p : Params} {a x : Addr} {n : Nat} (hn : n < 65536) (hx : x ∈ payloadAddrs (a + 1) n)
    (hbase : blockBase p x = blockBase p a) : x.toNat % blockSize p ≠ a.toNat % blockSize p := by
  obtain ⟨k, hk, rfl⟩ := mem_payloadAddrs.mp hx
  intro hindex
  rw [← blockIndex_eq, ← blockIndex_eq] at hindex
  exact ne_addr_add a (k := k) (by omega) (eq_of_base_index hbase hindex).symm

/-- A payload inside the block: each byte at its place, every other place as it was, and nothing else changed. -/
theorem applyPayload_inside_buf {s : State} {a : Addr} {bs : List Byte} (hsize : BufferSized s) (hlen : bs.length ≤ 65536)
    (h : ∀ x ∈ payloadAddrs a bs.length, blockBase s.params x = s.currentBlock) :
    ∃ buf : List Byte, buf.length = s.buf.length ∧ applyPayload a bs s = .go { s with buf := buf } ∧
      (∀ (k : Nat) (hk : k < bs.length), buf[(a + BitVec.ofNat 16 k).toNat % blockSize s.params]? = some bs[k]) ∧
      (∀ j : Nat, (∀ x ∈ payloadAddrs a bs.length, x.toNat % blockSize s.params ≠ j) → buf[j]? = s.buf[j]?) := by
  induction bs generalizing s a with
  | nil => exact ⟨s.buf, rfl, rfl, fun k hk => absurd hk (Nat.not_lt_zero k), fun j _ => rfl⟩
  | cons b bs ih =>
    rw [List.length_cons, payloadAddrs_cons] at h
    have hlen' : bs.length < 65536 := hlen
    obtain ⟨hbase, hlater⟩ := List.forall_mem_cons.mp h
    have hsize' : BufferSized (bufWrite a b s) := by simpa [BufferSized] using hsize
    obtain ⟨buf, hlength, happ, hin, hout⟩ := ih (s := bufWrite a b s) hsize' (Nat.le_of_lt hlen') hlater
    refine ⟨buf, by simpa using hlength, ?_, ?_, fun j hj => ?_⟩
    · rw [applyPayload, applyByte_inside b hbase, Flow.go_andThen, happ]
      rfl
    · rintro (_ | k) hk
      · have hzero : a + BitVec.ofNat 16 0 = a := by simp
        have hkept := hout (a.toNat % blockSize s.params) fun x hx =>
          blockIndex_ne_of_later hlen' hx ((hlater x hx).trans hbase.symm)
        rw [hzero]
        exact hkept.trans (bufWrite_buf_at hsize a b)
      · rw [addr_succ]
        exact hin k (Nat.lt_of_succ_lt_succ hk)
    · rw [List.length_cons, payloadAddrs_cons] at hj
      obtain ⟨hj0, hj'⟩ := List.forall_mem_cons.mp hj
      exact (hout j hj').trans (bufWrite_buf_elsewhere s a b hj0.symm)

/-- Settles O29: no byte of the payload crosses, so each is written in its place. -/
theorem dataRecordInsideTheBlock : Obligations.DataRecordInsideTheBlock := by
  intro hi lo data s hpoll hsize hlen h
  obtain ⟨buf, hlength, happ, hin, hout⟩ := applyPayload_inside_buf hsize (by omega) h
  refine ⟨buf, hlength, ?_, hin, hout⟩
  rw [exec_recData_dataFlow hi lo data hpoll, recordAddress, dataFlow_go happ]
  rfl

/-! ### One crossing -/

/-- Settles O30: the byte crosses, and is then written into the block just loaded. -/
theorem crossingSequence : Obligations.CrossingSequence := by
  intro hi lo v s hpoll hinv hok a new hne
  obtain ⟨halign, hsize, hwf⟩ := hinv.core
  refine ⟨(storeBlock s).nv, (storeBlock s).executable, fun x => store_read halign hsize hwf x, wf_storeBlock hwf,
    fun b => mem_insertBlock, ?_⟩
  have happ : applyPayload (recordAddress hi lo) [v] s = .go (bufWrite a v (crossed new s)) := by
    rw [applyPayload, show applyByte (recordAddress hi lo) v s = _ from applyByte_crossed v hne hok]
    rfl
  rw [exec_recData_dataFlow hi lo [v] hpoll, dataFlow_go happ, crossed_eq, ← blockIndex_eq, ← hinv.sender hpoll]
  rfl

/-- Settles O31: up to the crossing the payload is that of `pre`, and there its commit ends the step or leaves it stuck. -/
theorem commitFailsInACrossing : Obligations.CommitFailsInACrossing := by
  intro hi lo v pre post s w hpoll hinv _ hpre hpollw hne
  rw [exec_recData_dataFlow hi lo pre hpoll] at hpre
  obtain ⟨u, ⟨as, hrun⟩, happ, rfl⟩ | ⟨u, -, -, rfl⟩ := (dataFlow_sat (recordAddress hi lo) pre s).of_next hpre
  case inr => cases hpollw
  obtain ⟨halign, hsize, hwf⟩ := (hrun.core hinv.core).1
  have hp : u.params = s.params := hrun.params
  have hne' : blockBase u.params (recordAddress hi lo + BitVec.ofNat 16 pre.length) ≠ u.currentBlock := hp ▸ hne
  refine ⟨(spoilBlock u).nv, (spoilBlock u).executable, (spoilBlock u).freeCount,
    fun a ha => spoil_read halign hwf a (hp ▸ ha), wf_spoilBlock hwf, fun b => mem_removeBlock, ?_⟩
  have hcut : cutInCrossing u = { lineRestart u with
      fsm := s.fsm, nibPhase := s.nibPhase, hiNib := s.hiNib, offset := s.offset, sum := s.sum,
      recLength := s.recLength, recAddrHi := s.recAddrHi, recAddrLo := s.recAddrLo, recType := s.recType,
      recData := s.recData, nv := (spoilBlock u).nv, executable := (spoilBlock u).executable,
      freeCount := (spoilBlock u).freeCount, answers := u.answers.tail,
      answersTaken := u.answersTaken + 1, senderPaused := true, txQueue := u.txQueue ++ [s.params.xoffByte],
      trace := u.trace ++ [.send s.params.xoffByte, .commit u.currentBlock u.buf] } := by
    rw [hrun.frame]
    simp [cutInCrossing, sendXoff, send, issueCommit, emit, spoilBlock, lineRestart, lineReset]
  have hall : exec (.recData hi lo (pre ++ v :: post)) s =
      ((crossing (blockBase u.params (recordAddress hi lo + BitVec.ofNat 16 pre.length)) u).andThen fun t =>
        (Flow.go (bufWrite (recordAddress hi lo + BitVec.ofNat 16 pre.length) v t)).andThen fun t =>
          (applyPayload (recordAddress hi lo + BitVec.ofNat 16 pre.length + 1) post t).andThen fun t =>
            .go (lineRestart t)).toOutcome := by
    rw [exec_recData hi lo _ hpoll, applyPayload_append, happ, Flow.go_andThen, applyPayload, applyByte_outside v hne',
      Flow.andThen_assoc, Flow.andThen_assoc]
  intro cut
  have hcut' : cutInCrossing u = cut := hcut
  refine ⟨fun hfault => ?fault, fun hnever => ?hang⟩
  case fault => rw [hall, crossing_writeFault _ (s := u) hfault, ← hcut']; rfl
  case hang => rw [hall, crossing_never _ (s := u) hnever, ← hcut']; rfl

/-! ### The whole payload -/

/-- Memory changes only in the block left and in blocks of the payload, and each change of block takes one answer. -/
theorem applyPayload_go_blocks {s t : State} {a : Addr} {bs : List Byte} (hc : Core s) (h : applyPayload a bs s = .go t) :
    (∀ x : Addr, t.nv.read x.toNat ≠ s.nv.read x.toNat →
      blockBase s.params x = s.currentBlock ∨ ∃ y ∈ payloadAddrs a bs.length, blockBase s.params y = blockBase s.params x) ∧
    t.answersTaken = s.answersTaken + blockChanges s.params s.currentBlock (payloadAddrs a bs.length) := by
  induction bs generalizing s a with
  | nil => cases h; exact ⟨fun x hx => absurd rfl hx, rfl⟩
  | cons b bs ih =>
    obtain ⟨u, hu, ht⟩ := applyPayload_cons_go h
    obtain ⟨hcu, hp, -, -⟩ := applyByte_go hc hu
    obtain ⟨hnv, htaken⟩ := ih hcu ht
    rw [List.length_cons, payloadAddrs_cons, blockChanges]
    rw [hp] at hnv htaken
    obtain ⟨hbase, rfl⟩ | ⟨hbase, -, rfl⟩ := applyByte_go_cases hu
    · refine ⟨fun x hx => (hnv x hx).imp id fun ⟨y, hy, hxy⟩ => ⟨y, List.mem_cons_of_mem a hy, hxy⟩, ?_⟩
      rw [if_pos hbase, htaken]
      rfl
    · refine ⟨fun x hx => ?_, ?_⟩
      · by_cases hxb : blockBase s.params x = s.currentBlock
        · exact .inl hxb
        · have hsame : (bufWrite a b (crossed (blockBase s.params a) s)).nv.read x.toNat = s.nv.read x.toNat := by
            obtain ⟨halign, hsize, hwf⟩ := hc
            rw [bufWrite_nv, crossed_nv, read_block_write hwf halign hsize, if_neg hxb]
          refine .inr ?_
          obtain hxa | ⟨y, hy, hxy⟩ := hnv x (by rwa [hsame])
          · exact ⟨a, List.mem_cons_self, by simpa using hxa.symm⟩
          · exact ⟨y, List.mem_cons_of_mem a hy, hxy⟩
      · rw [if_neg hbase, htaken, bufWrite_answersTaken, crossed_answersTaken, bufWrite_currentBlock, crossed_currentBlock,
          Nat.add_assoc]

/-- Settles O32: answered Ok, the payload goes on to its end, and each of its bytes is applied at its own address. -/
theorem dataRecordWritesExactlyItsPayload : Obligations.DataRecordWritesExactlyItsPayload := by
  intro hi lo data s hpoll hinv hok hlen addrs
  have hruns := applyPayload_runs (recordAddress hi lo) data s
  obtain ⟨u, happ⟩ := applyPayload_of_okFor (a := recordAddress hi lo) hok
  rw [happ] at hruns
  obtain ⟨as, hrun⟩ := hruns
  obtain ⟨-, hp, hblock, hbytes, hothers⟩ := applyPayload_go hinv.core (by omega) happ
  obtain ⟨hnv, htaken⟩ := applyPayload_go_blocks hinv.core happ
  obtain ⟨-, hinb, hint⟩ := hrun.emits.keeps
  have hcount : commitCount (newActions s (lineRestart u)) = blockChanges s.params s.currentBlock addrs := by
    rw [show newActions s (lineRestart u) = as from hrun.emits.newActions]
    exact Nat.add_left_cancel (hrun.emits.answersTaken.symm.trans htaken)
  have hframe : u.timerArmed = s.timerArmed ∧ u.freeCount = s.freeCount := by
    rw [hrun.frame]
    exact ⟨rfl, rfl⟩
  refine ⟨lineRestart u, ?_, hbytes, hothers, rfl, hblock, hnv, hcount, atLineStart_lineRestart u, hp, hframe.1,
    hrun.sender (hinv.sender hpoll), hinb, hframe.2, hint⟩
  rw [exec_recData_dataFlow hi lo data hpoll, dataFlow_go happ, Flow.toOutcome_go]

/-! ### The buffer as a copy of its block -/

theorem MirrorsExcept.mono {dirty dirty' : List Addr} {s : State} (h : MirrorsExcept dirty s) (hsub : dirty ⊆ dirty') :
    MirrorsExcept dirty' s := fun a ha hd => h a ha fun hm => hd (hsub hm)

/-- A block just loaded is mirrored (R116). -/
theorem mirrors_of_block {s : State} (h : s.buf = Memory.block s.params s.nv s.currentBlock) : MirrorsExcept [] s := by
  intro a ha _
  rw [logicalByte, if_pos ha, h, block_getD ha]

theorem mirrors_crossed (a : Addr) (s : State) : MirrorsExcept [] (crossed (blockBase s.params a) s) :=
  mirrors_of_block (by simp)

theorem mirrors_sessionEntries (again : List Nat) (s : State) : MirrorsExcept [] (sessionEntries again s) := by
  rw [sessionEntries_literal]
  exact mirrors_of_block rfl

/-- A byte written joins the places that differ. -/
theorem mirrors_bufWrite {dirty : List Addr} {s : State} {a : Addr} (h : MirrorsExcept dirty s) (v : Byte)
    (hsize : BufferSized s) (ha : blockBase s.params a = s.currentBlock) :
    MirrorsExcept (a :: dirty) (bufWrite a v s) := by
  intro x hx hd
  obtain ⟨hxa, hxd⟩ := not_or.mp (mt List.mem_cons.mpr hd)
  rw [logicalByte_bufWrite hsize v ha, if_neg hxa]
  exact h x hx hxd

/-- The places that may differ after a write, while the block is the same, and after the later addresses. -/
theorem dirty_after_write (c : Prop) [Decidable c] (a : Addr) (dirty later : List Addr) :
    (if c then a :: dirty else []) ++ later ⊆ (if c then dirty else []) ++ a :: later := by
  intro x hx
  split at hx
  · next h => simp [h] at hx ⊢; tauto
  · next h => simp [h] at hx ⊢; tauto

/-- The same after a crossing, which leaves only the byte just written to differ. -/
theorem dirty_after_crossing (c c' : Prop) [Decidable c] [Decidable c'] (a : Addr) (dirty later : List Addr) :
    (if c then [a] else []) ++ later ⊆ (if c' then dirty else []) ++ a :: later := by
  have hsub : (if c then [a] else []) ++ later ⊆ a :: later := by
    split
    · exact fun x hx => hx
    · exact List.subset_cons_self a later
  exact List.subset_append_of_subset_right _ hsub

/-- Applying a payload keeps the buffer a copy of its block but for what differed, while the block is the same, and for the
payload's own addresses. -/
theorem mirrors_applyPayload {dirty : List Addr} {s t : State} {a : Addr} {bs : List Byte} (hc : Core s)
    (h : MirrorsExcept dirty s) (happ : applyPayload a bs s = .go t) :
    MirrorsExcept ((if t.currentBlock = s.currentBlock then dirty else []) ++ payloadAddrs a bs.length) t := by
  induction bs generalizing s a dirty with
  | nil =>
    cases happ
    rw [if_pos rfl]
    exact h.mono (List.subset_append_left _ _)
  | cons b bs ih =>
    obtain ⟨u, hu, ht⟩ := applyPayload_cons_go happ
    obtain ⟨hcu, -⟩ := applyByte_go hc hu
    rw [List.length_cons, payloadAddrs_cons]
    obtain ⟨hbase, rfl⟩ | ⟨-, -, rfl⟩ := applyByte_go_cases hu
    · have hrest := ih hcu (mirrors_bufWrite h b hc.2.1 hbase) ht
      rw [bufWrite_currentBlock] at hrest
      exact hrest.mono (dirty_after_write ..)
    · have hcross : MirrorsExcept [a] (bufWrite a b (crossed (blockBase s.params a) s)) :=
        mirrors_bufWrite (mirrors_crossed a s) b (core_crossed hc a).2.1 (by simp)
      exact (ih hcu hcross ht).mono (dirty_after_crossing ..)

theorem mirrors_lineRestart {dirty : List Addr} {s : State} (h : MirrorsExcept dirty s) :
    MirrorsExcept dirty (lineRestart s) := h

theorem Prepared.mirrors {s u : State} {e : Event} {dirty : List Addr} (h : Prepared s (armed s e) u)
    (hm : MirrorsExcept dirty s) : MirrorsExcept dirty u := by
  intro a ha hd
  rw [h.logicalByte, h.nv]
  rw [h.params, h.block] at ha
  exact hm a ha hd

/-- The addresses that the record in the registers writes, when the event completes it as a data record. -/
theorem addressesDue_of_completes {s : State} {e : Event} (h : CompletesRecord s e) (hty : s.recType = 0x00) :
    addressesDue s = payloadAddrs (recordAddress s.recAddrHi s.recAddrLo) (payload s).length := by
  rw [addressesDue, if_pos ⟨h.phase, h.offset, hty⟩, length_payload]

/-- The row of an event keeps the mirror but for the record it completes. -/
theorem EventStep.mirrors {s t : State} {e : Event} {dirty : List Addr} (hc : Core s) (hm : MirrorsExcept dirty s)
    (h : EventStep s e (.next t)) (hpoll : polls t.fsm = true) :
    MirrorsExcept ((if t.currentBlock = s.currentBlock then dirty else []) ++ addressesDue s) t := by
  cases h with
  | line u hp _ _ he =>
    cases he
    rw [if_pos hp.block]
    exact (hp.mirrors hm).mono (List.subset_append_left _ _)
  | badSum u _ _ _ he => cases he; cases hpoll
  | finishes u _ _ he => obtain ⟨-, rfl⟩ | ⟨-, rfl⟩ := (finish_sat u).of_next he.symm <;> cases hpoll
  | data u hp _ hends hty he =>
    obtain ⟨w, -, happ, rfl⟩ | ⟨w, -, -, rfl⟩ := (dataFlow_sat _ _ u).of_next he.symm
    case inr => cases hpoll
    rw [addressesDue_of_completes hends hty, ← hp.block]
    exact mirrors_lineRestart (mirrors_applyPayload (hp.core hc) (hp.mirrors hm) happ)
  | pastEnd _ _ he => cases he

/-- A step that takes an external reset and ends polling mirrors the block that session entry loads. -/
theorem mirrors_of_reset {s t : State} (h : step s = .next t) (hpollt : polls t.fsm = true)
    (hreset : polls s.fsm = false ∨ ∃ x rest, s.inbox = x :: rest ∧ ∀ e, x ≠ Input.event e) : MirrorsExcept [] t := by
  cases hpoll : polls s.fsm with
  | false =>
    obtain ⟨-, e⟩ | ⟨es, x, again, rest, -, -, e⟩ := step_terminal_cases hpoll
    · cases e.symm.trans h
      cases hpoll.symm.trans hpollt
    · cases e.symm.trans h
      exact mirrors_sessionEntries _ _
  | true =>
    obtain ⟨x, rest, hin, hx⟩ := hreset.resolve_left (by simp [hpoll])
    cases x with
    | event e => exact absurd rfl (hx e)
    | externalReset again =>
      cases (step_reset hpoll hin).symm.trans h
      exact mirrors_sessionEntries _ _
    | resetDuring e count inCommit again =>
      cases (step_cut hpoll hin).symm.trans h
      exact mirrors_sessionEntries _ _

/-- Settles O33: a payload and the row of an event keep the mirror but for the payload's addresses, and session entry makes it
whole. -/
theorem bufferMirrorsItsBlock : Obligations.BufferMirrorsItsBlock := by
  refine ⟨fun hi lo data s t dirty hpoll hinv hm h hpollt => ?record, fun s t dirty hinv hm h hpollt => ?step,
    fun s t h hpollt hreset => mirrors_of_reset h hpollt hreset⟩
  case record =>
    rw [exec_recData_dataFlow hi lo data hpoll] at h
    obtain ⟨u, -, happ, rfl⟩ | ⟨u, -, -, rfl⟩ := (dataFlow_sat (recordAddress hi lo) data s).of_next h
    · exact mirrors_lineRestart (mirrors_applyPayload hinv.core hm happ)
    · cases hpollt
  case step =>
    cases stepCase s with
    | idle e =>
      cases e.symm.trans h
      rw [if_pos rfl]
      exact hm.mono (List.subset_append_left _ _)
    | reset again rest e =>
      cases e.symm.trans h
      exact (mirrors_sessionEntries _ _).mono (List.nil_subset _)
    | event e rest _ _ hstep =>
      exact EventStep.mirrors (s := { s with inbox := rest }) hinv.core hm (h ▸ hstep) hpollt
    | cut e count inCommit again rest he =>
      cases he.symm.trans h
      exact (mirrors_sessionEntries _ _).mono (List.nil_subset _)

end Sys2Proof.Machine
end

section
/-! The text of a record (R63, R64, R75, R134): its characters, stepped one by one, feed its bytes, and the last one runs the row. -/

namespace Sys2Proof.Machine

theorem core_run_one (M : Host.Core) (s : M.State) : M.run 1 s = M.step s := by
  rw [Host.Core.run]
  cases M.step s <;> rfl

theorem run_one (s : State) : Host.Core.run Sys2Proof.core 1 s = step s := core_run_one Sys2Proof.core s

/-- The state in which the byte of two characters is fed: both taken, the timer armed for each. -/
def heardByte (b : Byte) (rest : List Input) (s : State) : State :=
  { s with
    fsm := .accumulatingRecord, timerArmed := true, nibPhase := .high, hiNib := b.extractLsb' 4 4, inbox := rest,
    trace := s.trace ++ [.armTimeout, .armTimeout] }

/-- The state between the two characters of a byte. -/
def heardHalf (b : Byte) (rest : List Input) (s : State) : State :=
  pairHi (b.extractLsb' 4 4) (hexArmed { s with inbox := characters [hexCode (b.extractLsb' 0 4)] ++ rest })

theorem hexPaired_heardHalf (b : Byte) (rest : List Input) (s : State) :
    hexPaired { heardHalf b rest s with inbox := rest } = heardByte b rest s := by
  simp [hexPaired, heardHalf, heardByte, pairLo, pairHi, hexArmed, armTimeout, emit]

/-- The first character of a byte's text (R83). -/
theorem step_firstCharacter {b : Byte} {rest : List Input} {s : State} (hpoll : polls s.fsm = true)
    (hphase : s.nibPhase = .high) (hin : s.inbox = characters (byteText b) ++ rest) :
    step s = .next (heardHalf b rest s) :=
  (step_hex hpoll hin (nib_hexCode _)).trans (hexChar_high _ hpoll hphase)

/-- The second character of a byte's text is a hex character of its low nibble. -/
theorem step_secondCharacter (b : Byte) (rest : List Input) (s : State) :
    step (heardHalf b rest s) = hexChar (b.extractLsb' 0 4) { heardHalf b rest s with inbox := rest } :=
  step_hex (s := heardHalf b rest s) rfl rfl (nib_hexCode _)

/-- The text of a byte before the terminator feeds the byte at its position. -/
theorem step_byteText_inProgress {b : Byte} {rest : List Input} {s : State} {p : Position} (hp : position s = some p)
    (hne : p ≠ .terminator) : step (heardHalf b rest s) = .next (feedAt p b (heardByte b rest s)) := by
  rw [step_secondCharacter, hexChar_low_inProgress _ (s := { heardHalf b rest s with inbox := rest }) rfl rfl hp hne,
    hexPaired_heardHalf, show ({ heardHalf b rest s with inbox := rest } : State).hiNib = b.extractLsb' 4 4 from rfl,
    joinNibbles_halves]

/-- The text of the terminator runs the completed record's row (R137, R138). -/
theorem step_byteText_complete {b : Byte} {rest : List Input} {s : State} (hp : position s = some .terminator) :
    step (heardHalf b rest s) =
      exec (completedRecord (feedAt .terminator b (heardByte b rest s))) (feedAt .terminator b (heardByte b rest s)) := by
  rw [step_secondCharacter, hexChar_low_complete _ (s := { heardHalf b rest s with inbox := rest }) rfl rfl hp,
    hexPaired_heardHalf, show ({ heardHalf b rest s with inbox := rest } : State).hiNib = b.extractLsb' 4 4 from rfl,
    joinNibbles_halves, completeRecord_eq]

/-- How far the text of a record has come: its bytes are fed, the characters taken, the timer armed for each. -/
structure Heard (s : State) (bs : List Byte) (rest : List Input) (t : State) : Prop where
  state : t = { feedAll bs s with
    fsm := t.fsm, timerArmed := t.timerArmed, hiNib := t.hiNib, inbox := rest,
    trace := s.trace ++ List.replicate (2 * bs.length) .armTimeout }
  polling : polls t.fsm = true

theorem characters_append (cs ds : List Byte) : characters (cs ++ ds) = characters cs ++ characters ds := List.map_append

theorem textOf_append (bs cs : List Byte) : textOf (bs ++ cs) = textOf bs ++ textOf cs := List.flatMap_append

/-- The text of one byte at the end of a longer text. -/
theorem inbox_textOf_snoc (bs : List Byte) (b : Byte) (rest : List Input) :
    characters (textOf (bs ++ [b])) ++ rest = characters (textOf bs) ++ (characters (byteText b) ++ rest) := by
  rw [textOf_append, characters_append, List.append_assoc]
  simp [textOf]

theorem replicate_snoc_two (n : Nat) (a : Action) :
    List.replicate (2 * n) a ++ [a, a] = List.replicate (2 * (n + 1)) a := by
  rw [Nat.mul_succ, List.replicate_add]
  rfl

/-- Feeding a byte and hearing its characters commute. -/
theorem Heard.feed {s t : State} {bs : List Byte} {b : Byte} {rest rest' : List Input} {p : Position}
    (h : Heard s bs rest' t) (hphase : (feedAll bs s).nibPhase = .high) (hp : position (feedAll bs s) = some p) :
    Heard s (bs ++ [b]) rest (feedAt p b (heardByte b rest t)) where
  state := by
    have hfeed : feedAll (bs ++ [b]) s = feedAt p b (feedAll bs s) := by
      rw [feedAll_append]
      simp [feedAll, hp]
    have htrace : t.trace ++ [.armTimeout, .armTimeout] =
        s.trace ++ List.replicate (2 * (bs ++ [b]).length) .armTimeout := by
      rw [h.state, List.length_append, List.length_singleton, ← replicate_snoc_two, List.append_assoc]
    rw [hfeed, heardByte, htrace, h.state, ← hphase]
    cases p <;> rfl
  polling := by rw [feedAt_fsm]; rfl

theorem Heard.phase {s t : State} {bs : List Byte} {rest : List Input} (h : Heard s bs rest t) :
    t.nibPhase = (feedAll bs s).nibPhase := by rw [h.state]

theorem Heard.position {s t : State} {bs : List Byte} {rest : List Input} (h : Heard s bs rest t) :
    position t = Machine.position (feedAll bs s) := by
  rw [h.state]
  exact position_congr rfl rfl

theorem Heard.inbox {s t : State} {bs : List Byte} {rest : List Input} (h : Heard s bs rest t) : t.inbox = rest := by
  rw [h.state]

theorem Fed.phase {s u : State} {bs : List Byte} (h : Fed s u bs) : u.nibPhase = s.nibPhase := by rw [h.frame]

/-- A record's first bytes: no more than its length byte leaves before the terminator. -/
abbrev StopsBeforeTerminator (bs : List Byte) : Prop := ∀ x, bs.head? = some x → bs.length ≤ 4 + x.toNat

theorem StopsBeforeTerminator.of_snoc {bs : List Byte} {b : Byte} (h : StopsBeforeTerminator (bs ++ [b])) :
    StopsBeforeTerminator bs := by
  intro x hx
  have hle := h x (by rw [List.head?_append, hx]; rfl)
  rw [List.length_append, List.length_singleton] at hle
  omega

/-- The length byte of a record's first bytes is in its register. -/
theorem Fed.room {s u : State} {bs : List Byte} {b : Byte} (h : Fed s u bs) (hstop : StopsBeforeTerminator (bs ++ [b])) :
    bs.length < 4 ∨ bs.length < 4 + u.recLength.toNat := by
  cases bs with
  | nil => exact .inl (by decide)
  | cons x bs =>
    have hlen : x.toNat = u.recLength.toNat := congrArg BitVec.toNat (Option.some.inj (h.len (Nat.succ_pos _)))
    have hle := hstop x rfl
    rw [List.length_append, List.length_singleton] at hle
    exact .inr (by omega)

/-- The text of a record's bytes before the terminator, from a line start: two steps for each byte. -/
theorem run_text {s : State} (hfsm : s.fsm = .awaitingLine) (hline : AtLineStart s) (bs : List Byte)
    (hstop : StopsBeforeTerminator bs) (rest : List Input) (hin : s.inbox = characters (textOf bs) ++ rest) :
    ∃ t, Heard s bs rest t ∧
      ∀ k, Host.Core.run Sys2Proof.core (k + 2 * bs.length) s = Host.Core.run Sys2Proof.core k t := by
  induction bs using List.reverseRecOn generalizing rest with
  | nil =>
    refine ⟨s, ⟨?_, polls_of_awaitingLine hfsm⟩, fun k => rfl⟩
    have hin' : s.inbox = rest := hin
    subst hin'
    simp [feedAll]
  | append_singleton bs b ih =>
    have hhigh : s.nibPhase = .high := hline.1
    obtain ⟨t, ht, hrun⟩ := ih hstop.of_snoc (characters (byteText b) ++ rest) (by rw [hin, inbox_textOf_snoc])
    have hfed : Fed s (feedAll bs s) bs := feedAll_prefix hline bs hstop.of_snoc
    have hphase : (feedAll bs s).nibPhase = .high := hfed.phase.trans hhigh
    obtain ⟨p, hp, hne, -⟩ := fed_step (b := b) hfed (hfed.room hstop)
    refine ⟨_, ht.feed hphase hp, fun k => ?_⟩
    have hfirst : step t = .next (heardHalf b rest t) :=
      step_firstCharacter ht.polling (ht.phase.trans hphase) ht.inbox
    have hsecond : step (heardHalf b rest t) = .next (feedAt p b (heardByte b rest t)) :=
      step_byteText_inProgress (ht.position.trans hp) hne
    have hsteps : k + 2 * (bs ++ [b]).length = (k + 1 + 1) + 2 * bs.length := by
      rw [List.length_append, List.length_singleton]
      omega
    rw [hsteps, hrun, run_succ _ hfirst, run_succ _ hsecond]

/-- Settles O34: the bytes before the terminator are fed from their text, and the terminator's second character dispatches the
record, whose registers hold the row that the bytes decode to. -/
theorem recordTextRunsAsItsRow : Obligations.RecordTextRunsAsItsRow := by
  intro i s rest hwf hformat hfsm hline hin
  have hdec : decode .record (encode s.params i) = .ok (i, []) := by
    simpa using decodeOfEncode s.params i .record [] hwf hformat
  have hrow : completedRecord (feedAll (encode s.params i) s) = i := completedRecord_feedAll hline hdec
  obtain ⟨len, hi, lo, ty, data, ck, hbytes, hlen, -⟩ := decode_record_inv hdec
  rw [hbytes] at hin hrow ⊢
  generalize hbs : len :: hi :: lo :: ty :: data = bs at hin hrow ⊢
  have hlenbs : bs.length = 4 + len.toNat := by rw [← hbs]; simp [hlen]; omega
  have hhead : bs.head? = some len := by rw [← hbs]; rfl
  have hstop : StopsBeforeTerminator bs := fun x hx => by
    obtain rfl : len = x := Option.some.inj (hhead.symm.trans hx)
    exact hlenbs.le
  obtain ⟨t, ht, hrun⟩ := run_text hfsm hline bs hstop (characters (byteText ck) ++ rest)
    (by rw [hin, inbox_textOf_snoc])
  have hfed : Fed s (feedAll bs s) bs := feedAll_prefix hline bs hstop
  have hphase : (feedAll bs s).nibPhase = .high := hfed.phase.trans hline.1
  have hlast : position (feedAll bs s) = some .terminator := by
    have hreg : len = (feedAll bs s).recLength := Option.some.inj (hhead.symm.trans (hfed.len (by omega)))
    rw [position_eq_terminator, hfed.off, hlenbs, hreg]
  have hheard : Heard s (bs ++ [ck]) rest (feedAt .terminator ck (heardByte ck rest t)) := ht.feed hphase hlast
  have hfirst : step t = .next (heardHalf ck rest t) :=
    step_firstCharacter ht.polling (ht.phase.trans hphase) ht.inbox
  have hrow' : completedRecord (feedAt .terminator ck (heardByte ck rest t)) = i := by
    rw [hheard.state, ← hrow]
    rfl
  refine ⟨feedAt .terminator ck (heardByte ck rest t), 2 * (bs ++ [ck]).length, rfl, ?_, ?_⟩
  · have hsteps : 2 * (bs ++ [ck]).length = (1 + 1) + 2 * bs.length := by
      rw [List.length_append, List.length_singleton]
      omega
    rw [hsteps, hrun, run_succ _ hfirst, run_one, step_byteText_complete (ht.position.trans hlast), hrow']
  · have hfeed : feedAll (bs ++ [ck]) s = feedAt .terminator ck (feedAll bs s) := by
      rw [feedAll_append]
      simp [feedAll, hlast]
    rw [hheard.state, hfeed, hfed.frame, ← hline.1]
    rfl

end Sys2Proof.Machine
end
